-- ==== Sys2Proof/Word.lean ====
section
/-! DEFINITION. The words of the block: their widths (00_scope.md R11) and their plainest arithmetic.
No value of this block is signed (R12). -/

namespace Sys2Proof

/-- A register value, an offset, a duration, a command word: 32 bits (R11). -/
abbrev Word := BitVec 32

/-- A logical port id: 8 bits, unsigned (R11). -/
abbrev PortId := BitVec 8

/-- A lane index: 8 bits, unsigned (R11). -/
abbrev Lane := BitVec 8

/-- A speed in Mb/s: 16 bits, unsigned (R11). -/
abbrev Speed := BitVec 16

end Sys2Proof
end

