-- ==== Sys2Proof/Config.lean ====
section
/-! DEFINITION. What is fixed when the block is constructed: the configuration parameters of 00_scope.md R9, the named
constants of the sequences (R10) and the sequence ROM `K` (30_encoding.md R75). All of it is plain data, held in the
state's field `cfg`, which no step changes (10_state.md R31; log 1). The free values of the model stand at the end. -/

namespace Sys2Proof

/-- The five calibration programs (30_encoding.md R69, 44_calibration.md R130). -/
inductive Program where
  | an10g
  | f5g
  | f10g
  | g1
  | g2
  deriving DecidableEq, Repr

/-- The port-to-lane mapping mode `MAP_MODE` (R9). -/
inductive MapMode where
  | identity
  | reduced
  deriving DecidableEq, Repr

/-- A step word of the sequence ROM: four 32-bit words, `w0` the bits [31:0] (30_encoding.md R76). -/
structure StepWord where
  w0 : Word
  w1 : Word
  w2 : Word
  w3 : Word
  deriving DecidableEq, Repr

/-- One value for each calibration program. -/
structure PerProgram (α : Type) where
  an10g : α
  f5g : α
  f10g : α
  g1 : α
  g2 : α
  deriving DecidableEq, Repr

/-- The PLL constants of 42_pll.md R108. -/
structure PllConsts where
  anaOff : Word
  anaVal : Word
  digOff : Word
  enMask : Word
  deriving DecidableEq, Repr

/-- Which of the two USXGMII reset offsets a write goes to, `USX_RST_SEL` (43_reset.md R116). -/
inductive UsxSel where
  | a
  | b
  deriving DecidableEq, Repr

/-- One write of a USXGMII reset: its offset selector and its value (43_reset.md R116). -/
structure UsxWrite where
  sel : UsxSel
  val : Word
  deriving DecidableEq, Repr

/-- The four writes of one port's USXGMII reset, i = 0..3 (43_reset.md R116). -/
structure UsxPort where
  i0 : UsxWrite
  i1 : UsxWrite
  i2 : UsxWrite
  i3 : UsxWrite
  deriving DecidableEq, Repr

/-- The USXGMII reset constants of 43_reset.md R116. -/
structure UsxConsts where
  offA : Word
  offB : Word
  port1 : UsxPort
  port2 : UsxPort
  settleNs : Word
  deriving DecidableEq, Repr

/-- The port-specific SGMII reset constants of 43_reset.md R121. -/
structure SgmPort where
  enBits : Word
  rstBits : Word
  deriving DecidableEq, Repr

/-- The SGMII reset constants of 43_reset.md R121. -/
structure SgmConsts where
  enOff : Word
  rstOff : Word
  keyMask : Word
  keyVal : Word
  port1 : SgmPort
  port2 : SgmPort
  assertNs : Word
  settleNs : Word
  deriving DecidableEq, Repr

/-- The constants of the PCS part of Autonegotiate-10G: the two named offsets, the two pulse durations, and the
parameter list `AN_PREFIX` itself (44_calibration.md R131). -/
structure AnConsts where
  ctrlOff : Word
  tscOff : Word
  p1Ns : Word
  p2Ns : Word
  steps : List StepWord
  deriving DecidableEq, Repr

/-- The Force constants of one program, F5G or F10G (44_calibration.md R133). -/
structure ForceConsts where
  spdOff : Word
  spdMask : Word
  spdVal : Word
  anOff : Word
  anEnBit : Word
  ckgOff : Word
  ckgMask : Word
  ckgGate : Word
  ckgUngate : Word
  frcOff : Word
  frcMask : Word
  frcVal : Word
  gateNs : Word
  ungateNs : Word
  deriving DecidableEq, Repr

/-- The handshake constants of one program (44_calibration.md R135). -/
structure HsConsts where
  pdOff : Word
  pdVal : Word
  e1Off : Word
  e1Val : Word
  e1Tb : Word
  e2Off : Word
  e2Val : Word
  e2Tb : Word
  finOff : Word
  finVal : Word
  deriving DecidableEq, Repr

/-- The named constants of all sequences (R10): those of the PLL, the two resets, the prefixes, the bodies `BODY(k)`
(44_calibration.md R136), the handshakes, and the one shared delay `T_TRANS_NS` (R135). -/
structure Constants where
  pll : PllConsts
  usx : UsxConsts
  sgm : SgmConsts
  an : AnConsts
  f5g : ForceConsts
  f10g : ForceConsts
  body : PerProgram (List StepWord)
  hs : PerProgram HsConsts
  transNs : Word
  deriving DecidableEq, Repr

/-- The sequence ROM `K`: the named step lists of 30_encoding.md R75, each a list of step words (log 17). -/
structure Rom where
  pll : List StepWord
  usx1 : List StepWord
  usx2 : List StepWord
  sgm1 : List StepWord
  sgm2 : List StepWord
  prog : PerProgram (List StepWord)
  deriving DecidableEq, Repr

/-- The configuration of the block: the parameters of R9, the named constants of R10 and the ROM (30_encoding.md R75).
`hasPcs` and `hasPextp` list the presence of the handle of lane 0, 1, …; they have `laneCount` entries (R9, R43). -/
structure Config where
  laneCount : Nat
  mapMode : MapMode
  portCount : Nat
  hasPll : Bool
  hasRst : Bool
  hasPcs : List Bool
  hasPextp : List Bool
  tickNs : Nat
  k : Constants
  rom : Rom
  deriving DecidableEq, Repr

/-- The FREE VALUES of the model: `freeWord n` is the n-th 32-bit value the spec leaves open. A domain read whose answer
the input list `answers` does not give returns one (20_memory.md R49: "any 32-bit value, chosen freely at each read"), and
a block reset leaves one in `RD` (70_reset_and_hazards.md R198). It has no body: nothing can be proved of its values
(log 4). -/
opaque Config.freeWord : Nat → Word

end Sys2Proof
end

