-- ==== Sys2Proof/Syntax.lean ====
section
/-! DEFINITION. The instructions of the block (00_scope.md R3): the six commands a host writes to `CMD`
(30_encoding.md R66) and the three step kinds of the sequence ROM (30_encoding.md R77), one constructor per row of the
opcode table.

A command carries EVERY bit of its word, the fields it ignores included (R70): `CMD` latches the whole word and the
trace records it (R153), so the ignored bits are observable (log 13). -/

namespace Sys2Proof

/-- A domain class, the field DC of a step word (30_encoding.md R78). -/
inductive DomainClass where
  | pcs
  | pextp
  | pll
  | rst
  deriving DecidableEq, Repr

/-- The reset variant, the field MODE of RESET_LANE (30_encoding.md R68). -/
inductive ResetMode where
  | usx
  | sgmii
  deriving DecidableEq, Repr

/-- The instructions. In the commands, `sub`, `subHi`, `port` and `speed` name the fields of 30_encoding.md R65 as the
command reads them; a name that begins with `ign` is a field the command ignores (R68, R69, R70). -/
inductive Instr where
  /-- SETUP_AUTONEG, OP 0x1 (45_orchestration.md R156) -/
  | setupAutoneg (ignSub : BitVec 4) (port : PortId) (speed : Speed)
  /-- SETUP_FORCED, OP 0x2 (45_orchestration.md R158) -/
  | setupForced (ifk : BitVec 4) (port : PortId) (ignSpeed : Speed)
  /-- RESET_LANE, OP 0x3 (45_orchestration.md R159) -/
  | resetLane (mode : ResetMode) (ignSubHi : BitVec 3) (port : PortId) (ignSpeed : Speed)
  /-- ENABLE_PLL, OP 0x4 (45_orchestration.md R160) -/
  | enablePll (ignSub : BitVec 4) (ignPort : PortId) (ignSpeed : Speed)
  /-- CALIBRATE, OP 0x5 (45_orchestration.md R161); `prog` is the 3-bit code of 30_encoding.md R69, reserved codes too -/
  | calibrate (prog : BitVec 3) (ignSubHi : BitVec 1) (port : PortId) (ignSpeed : Speed)
  /-- QUERY_LANE, OP 0x6 (45_orchestration.md R162) -/
  | queryLane (ignSub : BitVec 4) (port : PortId) (ignSpeed : Speed)
  /-- WR, KIND 0b00 (40_steps.md R89) -/
  | wr (dc : DomainClass) (off val : Word)
  /-- RMW, KIND 0b01 (40_steps.md R91) -/
  | rmw (dc : DomainClass) (off mask val : Word)
  /-- DLY, KIND 0b10, `d` in nanoseconds (40_steps.md R95) -/
  | dly (d : Word)
  deriving DecidableEq, Repr

end Sys2Proof
end

