-- ==== Sys2Proof/WellFormed.lean ====
section
/-! DEFINITION. Which instructions are well-formed. A command word has no ill-formed value (30_encoding.md R70, R74); an
access step is well-formed when its offset is a multiple of 4 (30_encoding.md R80, 20_memory.md R53). The bits R80 requires
to be zero are not fields of Instr, so no term can set them; the decoder refuses the words that do.
`val & ~mask = 0` of an RMW is no condition of the word but of the ROM (check W6 of 44_calibration.md R143; 40_steps.md R93),
and stands in Machine/RomCheck.lean. -/

namespace Sys2Proof

/-- A byte offset is a multiple of 4 (20_memory.md R53). -/
def Word.aligned (off : Word) : Bool := off.toNat % 4 == 0

/-- A well-formed instruction (30_encoding.md R80). -/
def Instr.wf : Instr → Bool
  | .setupAutoneg _ _ _ => true
  | .setupForced _ _ _ => true
  | .resetLane _ _ _ _ => true
  | .enablePll _ _ _ => true
  | .calibrate _ _ _ _ => true
  | .queryLane _ _ _ => true
  | .wr _ off _ => Word.aligned off
  | .rmw _ off _ _ => Word.aligned off
  | .dly _ => true

end Sys2Proof
end

