-- ==== Sys2Proof/Decode.lean ====
section
/-! DEFINITION. The two encodings of the block, CMD32 and STEP128 (30_encoding.md R64): the decoder, total on any words
and rejecting by name, and after it the encoder, both written from R65 to R80. -/

namespace Sys2Proof

/-! ## Fields -/

/-- CMD32 field OP, bits [3:0] (R65). -/
def Cmd32.op (w : Word) : BitVec 4 := w.extractLsb' 0 4

/-- CMD32 field SUB, bits [7:4] (R65). -/
def Cmd32.sub (w : Word) : BitVec 4 := w.extractLsb' 4 4

/-- CMD32 field PORT, bits [15:8] (R65). -/
def Cmd32.port (w : Word) : PortId := w.extractLsb' 8 8

/-- CMD32 field SPEED, bits [31:16] (R65). -/
def Cmd32.speed (w : Word) : Speed := w.extractLsb' 16 16

/-- STEP128 field KIND, `w0[1:0]` (R76). -/
def Step128.kind (s : StepWord) : BitVec 2 := s.w0.extractLsb' 0 2

/-- STEP128 field DC, `w0[3:2]` (R76). -/
def Step128.dc (s : StepWord) : BitVec 2 := s.w0.extractLsb' 2 2

/-- STEP128 reserved field, `w0[31:4]` (R76). -/
def Step128.rsvd (s : StepWord) : BitVec 28 := s.w0.extractLsb' 4 28

/-- The reset variant a MODE bit names (R68). -/
def ResetMode.ofBit : BitVec 1 → ResetMode
  | 0#1 => .usx
  | _ => .sgmii

/-- The MODE bit of a reset variant (R68). -/
def ResetMode.toBit : ResetMode → BitVec 1
  | .usx => 0#1
  | .sgmii => 1#1

/-- The domain class a DC code names (R78). -/
def DomainClass.ofCode : BitVec 2 → DomainClass
  | 0b00#2 => .pcs
  | 0b01#2 => .pextp
  | 0b10#2 => .pll
  | _ => .rst

/-- The DC code of a domain class (R78). -/
def DomainClass.toCode : DomainClass → BitVec 2
  | .pcs => 0b00#2
  | .pextp => 0b01#2
  | .pll => 0b10#2
  | .rst => 0b11#2

/-- The calibration program a PROG code names, or none for the reserved codes 5 to 7 (R69, R73). -/
def Program.ofCode : BitVec 3 → Option Program
  | 0#3 => some .an10g
  | 1#3 => some .f5g
  | 2#3 => some .f10g
  | 3#3 => some .g1
  | 4#3 => some .g2
  | _ => none

/-- The PROG code of a calibration program (R69). -/
def Program.toCode : Program → BitVec 3
  | .an10g => 0#3
  | .f5g => 1#3
  | .f10g => 2#3
  | .g1 => 3#3
  | .g2 => 4#3

/-! ## Decoding -/

/-- Why a word, or a list of words, is no instruction. -/
inductive DecodeError where
  /-- a CMD32 word with OP 0x0 or 0x7 to 0xF (R72): accepted by the block, and answered with INVALID_ARGUMENT -/
  | reservedOp (op : BitVec 4)
  /-- a STEP128 word with KIND 0b11 (R77, R80) -/
  | reservedKind
  /-- a STEP128 word with a bit of `w0[31:4]` set (R80) -/
  | reservedBits
  /-- a STEP128 word with a nonzero field that its kind does not use: DC, VAL or MASK of a DLY, MASK of a WR (R76, R80) -/
  | unusedField
  /-- a WR or RMW whose offset is not a multiple of 4 (R80) -/
  | misalignedOffset
  /-- neither one CMD32 word nor the four words of a STEP128 (R64) -/
  | wrongLength
  deriving DecidableEq, Repr

/-- Decoding of a CMD32 word: one of the six commands, or a reserved opcode (R66, R74). -/
def decodeCmd (w : Word) : Except DecodeError Instr :=
  match Cmd32.op w with
  | 0x1#4 => .ok (.setupAutoneg (Cmd32.sub w) (Cmd32.port w) (Cmd32.speed w))
  | 0x2#4 => .ok (.setupForced (Cmd32.sub w) (Cmd32.port w) (Cmd32.speed w))
  | 0x3#4 => .ok (.resetLane (ResetMode.ofBit ((Cmd32.sub w).extractLsb' 0 1)) ((Cmd32.sub w).extractLsb' 1 3)
      (Cmd32.port w) (Cmd32.speed w))
  | 0x4#4 => .ok (.enablePll (Cmd32.sub w) (Cmd32.port w) (Cmd32.speed w))
  | 0x5#4 => .ok (.calibrate ((Cmd32.sub w).extractLsb' 0 3) ((Cmd32.sub w).extractLsb' 3 1)
      (Cmd32.port w) (Cmd32.speed w))
  | 0x6#4 => .ok (.queryLane (Cmd32.sub w) (Cmd32.port w) (Cmd32.speed w))
  | op => .error (.reservedOp op)

/-- Decoding of a STEP128 word (R76 to R80, R82). -/
def decodeStep (s : StepWord) : Except DecodeError Instr :=
  if Step128.rsvd s ≠ 0#28 then .error .reservedBits
  else
    match Step128.kind s with
    | 0b00#2 =>
      if s.w3 ≠ 0#32 then .error .unusedField
      else if Word.aligned s.w1 then .ok (.wr (DomainClass.ofCode (Step128.dc s)) s.w1 s.w2)
      else .error .misalignedOffset
    | 0b01#2 =>
      if Word.aligned s.w1 then .ok (.rmw (DomainClass.ofCode (Step128.dc s)) s.w1 s.w3 s.w2)
      else .error .misalignedOffset
    | 0b10#2 =>
      if Step128.dc s ≠ 0b00#2 ∨ s.w2 ≠ 0#32 ∨ s.w3 ≠ 0#32 then .error .unusedField
      else .ok (.dly s.w1)
    | _ => .error .reservedKind

/-- Decoding of a list of 32-bit words: one word is a CMD32, four are a STEP128 (R64). -/
def decodeWords : List Word → Except DecodeError Instr
  | [w] => decodeCmd w
  | [w0, w1, w2, w3] => decodeStep { w0 := w0, w1 := w1, w2 := w2, w3 := w3 }
  | _ => .error .wrongLength

/-! ## Encoding -/

/-- A CMD32 word from its four fields, `{speed, port, sub, op}` (R65, R83). -/
def Cmd32.word (op sub : BitVec 4) (port : PortId) (speed : Speed) : Word := speed ++ port ++ sub ++ op

/-- The first word of a STEP128: KIND and DC, the reserved bits zero (R76). -/
def Step128.head (kind dc : BitVec 2) : Word := 0#28 ++ dc ++ kind

/-- The step word of `WR dc, off, val` (R76, R84). -/
def StepWord.wr (dc : DomainClass) (off val : Word) : StepWord :=
  { w0 := Step128.head 0b00#2 dc.toCode, w1 := off, w2 := val, w3 := 0#32 }

/-- The step word of `RMW dc, off, mask, val` (R76, R84). -/
def StepWord.rmw (dc : DomainClass) (off mask val : Word) : StepWord :=
  { w0 := Step128.head 0b01#2 dc.toCode, w1 := off, w2 := val, w3 := mask }

/-- The step word of `DLY d`, `d` in nanoseconds (R76, R84). -/
def StepWord.dly (d : Word) : StepWord :=
  { w0 := Step128.head 0b10#2 0b00#2, w1 := d, w2 := 0#32, w3 := 0#32 }

/-- The pseudo-step `SETB dc, off, bits` (R85). -/
def StepWord.setb (dc : DomainClass) (off bits : Word) : StepWord := StepWord.rmw dc off bits bits

/-- The pseudo-step `CLRB dc, off, bits` (R85). -/
def StepWord.clrb (dc : DomainClass) (off bits : Word) : StepWord := StepWord.rmw dc off bits 0#32

/-- The pseudo-step `FLD dc, off, mask, val` (R85). -/
def StepWord.fld (dc : DomainClass) (off mask val : Word) : StepWord := StepWord.rmw dc off mask val

/-- The four words of a step word, the first one first. -/
def StepWord.words (s : StepWord) : List Word := [s.w0, s.w1, s.w2, s.w3]

/-- The words of an instruction: one for a command, four for a step. -/
def encode : Instr → List Word
  | .setupAutoneg sub port speed => [Cmd32.word 0x1#4 sub port speed]
  | .setupForced ifk port speed => [Cmd32.word 0x2#4 ifk port speed]
  | .resetLane mode subHi port speed => [Cmd32.word 0x3#4 (subHi ++ mode.toBit) port speed]
  | .enablePll sub port speed => [Cmd32.word 0x4#4 sub port speed]
  | .calibrate prog subHi port speed => [Cmd32.word 0x5#4 (subHi ++ prog) port speed]
  | .queryLane sub port speed => [Cmd32.word 0x6#4 sub port speed]
  | .wr dc off val => (StepWord.wr dc off val).words
  | .rmw dc off mask val => (StepWord.rmw dc off mask val).words
  | .dly d => (StepWord.dly d).words

/-! ## Words numbered as the opcode table numbers them -/

/-- The step word whose 128 bits are `w` (R76: `w0` is bits [31:0]). -/
def StepWord.ofNat (w : Nat) : StepWord :=
  { w0 := BitVec.ofNat 32 w
    w1 := BitVec.ofNat 32 (w / 2 ^ 32)
    w2 := BitVec.ofNat 32 (w / 2 ^ 64)
    w3 := BitVec.ofNat 32 (w / 2 ^ 96) }

/-- The two instruction formats (R64). -/
inductive Format where
  | cmd32
  | step128
  deriving DecidableEq, Repr

/-- Whether a word of `nbits` bits is read as a command or as a step. The formats share the low bits (`0x1` is both
SETUP_AUTONEG and the first word of an RMW), and the hardware tells them apart by where they come from (R64), which a
bare number does not say. So: more than 32 bits, or 32 bits (the whole first word, which the table fixes for a step) that
form a well-formed step word, is a step; anything else is a command (log 15). -/
def tableFormat (nbits w : Nat) : Format :=
  if nbits < 32 then .cmd32
  else if 32 < nbits then .step128
  else if (decodeStep (StepWord.ofNat w)).isOk then .step128
  else .cmd32

/-- The instruction the decoder reads from an instruction whose bits are `w`, of which the table gives `nbits`. -/
def decodeTableWord (nbits w : Nat) : Option Instr :=
  match tableFormat nbits w with
  | .cmd32 => (decodeCmd (BitVec.ofNat 32 w)).toOption
  | .step128 => (decodeStep (StepWord.ofNat w)).toOption

end Sys2Proof
end

