-- ==== Sys2Proof/Machine/Sequences.lean ====
section
/-! DEFINITION. The sequences as their rules write them from the named constants: PLL_SEQ (42_pll.md R109), USX_RST and
SGM_RST (43_reset.md R117, R122), FORCE_PREFIX, HS and PROG (44_calibration.md R130, R132, R134). The ROM check W2
(R143) compares the ROM's lists with these. -/

namespace Sys2Proof

/-- The value of program `k`. -/
def PerProgram.get {α : Type} (x : PerProgram α) : Program → α
  | .an10g => x.an10g
  | .f5g => x.f5g
  | .f10g => x.f10g
  | .g1 => x.g1
  | .g2 => x.g2

/-- The value of every program, in the order of the codes. -/
def PerProgram.toList {α : Type} (x : PerProgram α) : List α := [x.an10g, x.f5g, x.f10g, x.g1, x.g2]

/-- All programs, in the order of their codes. -/
def Program.all : List Program := [.an10g, .f5g, .f10g, .g1, .g2]

end Sys2Proof

namespace Sys2Proof.Machine

/-- `PLL_SEQ` (42_pll.md R109). -/
def pllSeq (k : Constants) : List StepWord :=
  [ StepWord.wr .pll k.pll.anaOff k.pll.anaVal,
    StepWord.setb .pll k.pll.digOff k.pll.enMask ]

/-- `off(p,i)`: the offset that write `i` goes to (43_reset.md R117). -/
def usxOff (u : UsxConsts) : UsxSel → Word
  | .a => u.offA
  | .b => u.offB

/-- One write of a USXGMII reset (43_reset.md R117). -/
def usxStep (u : UsxConsts) (w : UsxWrite) : StepWord := StepWord.wr .rst (usxOff u w.sel) w.val

/-- `USX_RST(p)`, from the constants of the port (43_reset.md R117). -/
def usxRst (k : Constants) (p : UsxPort) : List StepWord :=
  [ usxStep k.usx p.i0,
    usxStep k.usx p.i1,
    usxStep k.usx p.i2,
    usxStep k.usx p.i3,
    StepWord.dly k.usx.settleNs ]

/-- `SGM_RST(p)`, from the constants of the port (43_reset.md R122). -/
def sgmRst (k : Constants) (p : SgmPort) : List StepWord :=
  [ StepWord.setb .rst k.sgm.enOff p.enBits,
    StepWord.rmw .rst k.sgm.rstOff (k.sgm.keyMask ||| p.rstBits) (k.sgm.keyVal ||| p.rstBits),
    StepWord.dly k.sgm.assertNs,
    StepWord.rmw .rst k.sgm.rstOff (k.sgm.keyMask ||| p.rstBits) k.sgm.keyVal,
    StepWord.clrb .rst k.sgm.enOff p.enBits,
    StepWord.dly k.sgm.settleNs ]

/-- `FORCE_PREFIX(k)` (44_calibration.md R132). -/
def forcePrefix (f : ForceConsts) : List StepWord :=
  [ StepWord.fld .pcs f.spdOff f.spdMask f.spdVal,
    StepWord.clrb .pcs f.anOff f.anEnBit,
    StepWord.fld .pcs f.ckgOff f.ckgMask f.ckgGate,
    StepWord.dly f.gateNs,
    StepWord.fld .pcs f.frcOff f.frcMask f.frcVal,
    StepWord.fld .pcs f.ckgOff f.ckgMask f.ckgUngate,
    StepWord.dly f.ungateNs ]

/-- `PREFIX(k)` (44_calibration.md R130). -/
def calPrefix (k : Constants) : Program → List StepWord
  | .an10g => k.an.steps
  | .f5g => forcePrefix k.f5g
  | .f10g => forcePrefix k.f10g
  | .g1 => []
  | .g2 => []

/-- `HS(k)`, the power-up handshake (44_calibration.md R134). -/
def handshake (transNs : Word) (h : HsConsts) : List StepWord :=
  [ StepWord.wr .pextp h.pdOff h.pdVal,
    StepWord.dly 150000#32,
    StepWord.wr .pextp h.e1Off h.e1Val,
    StepWord.dly transNs,
    StepWord.wr .pextp h.e1Off (h.e1Val &&& ~~~h.e1Tb),
    StepWord.dly 15000#32,
    StepWord.wr .pextp h.e2Off h.e2Val,
    StepWord.dly transNs,
    StepWord.wr .pextp h.e2Off (h.e2Val &&& ~~~h.e2Tb),
    StepWord.dly 100000#32,
    StepWord.wr .pextp h.finOff h.finVal,
    StepWord.dly 400000#32 ]

/-- `PROG(k) = PREFIX(k) ++ BODY(k) ++ HS(k)` (44_calibration.md R130). -/
def progSeq (k : Constants) (p : Program) : List StepWord :=
  calPrefix k p ++ k.body.get p ++ handshake k.transNs (k.hs.get p)

/-- The ROM that holds exactly the sequences the constants give (30_encoding.md R75, check W2 of 44_calibration.md R143). -/
def romOf (k : Constants) : Rom :=
  { pll := pllSeq k
    usx1 := usxRst k k.usx.port1
    usx2 := usxRst k k.usx.port2
    sgm1 := sgmRst k k.sgm.port1
    sgm2 := sgmRst k k.sgm.port2
    prog :=
      { an10g := progSeq k .an10g
        f5g := progSeq k .f5g
        f10g := progSeq k .f10g
        g1 := progSeq k .g1
        g2 := progSeq k .g2 } }

end Sys2Proof.Machine
end

