-- ==== Sys2Proof/Machine/TestConfig.lean ====
section
/-! DEFINITION. The configurations spec/95_test_vectors.md section 0 writes out: the ROM constants INST-T and the
configurations CFG-R and CFG-I. They are instances "chosen by this file for testing only", not the hardware's values; the
model's reset state takes CFG-R because it must take some configuration (log 2). No obligation rests on them. -/

namespace Sys2Proof.Machine

/-- The USXGMII reset writes of one port of INST-T: A, B, A, B with the port's bit pattern, then zero. -/
def testUsxPort (v : Word) : UsxPort :=
  { i0 := { sel := .a, val := v }, i1 := { sel := .b, val := v }, i2 := { sel := .a, val := 0 }, i3 := { sel := .b, val := 0 } }

/-- The Force constants of INST-T, which differ in the speed and force values only. -/
def testForce (spdVal frcVal : Word) : ForceConsts :=
  { spdOff := 0x10, spdMask := 0x3, spdVal := spdVal
    anOff := 0x00, anEnBit := 0x1000
    ckgOff := 0x14, ckgMask := 0x1, ckgGate := 0x1, ckgUngate := 0x0
    frcOff := 0x18, frcMask := 0xF0, frcVal := frcVal
    gateNs := 100, ungateNs := 100 }

/-- The handshake constants of INST-T, the same for every program. -/
def testHs : HsConsts :=
  { pdOff := 0x200, pdVal := 0x0
    e1Off := 0x204, e1Val := 0x3, e1Tb := 0x2
    e2Off := 0x208, e2Val := 0x3, e2Tb := 0x2
    finOff := 0x20C, finVal := 0x1 }

/-- The body of INST-T: one write. -/
def testBody (v : Word) : List StepWord := [StepWord.wr .pextp 0x100 v]

/-- The constants of INST-T. -/
def testConstants : Constants :=
  { pll := { anaOff := 0x10, anaVal := 0xA5A50001, digOff := 0x14, enMask := 0x1 }
    usx := { offA := 0x00, offB := 0x04, port1 := testUsxPort 0x10, port2 := testUsxPort 0x20, settleNs := 1000000 }
    sgm :=
      { enOff := 0x08, rstOff := 0x0C, keyMask := 0xFF000000, keyVal := 0x88000000
        port1 := { enBits := 0x3, rstBits := 0x3 }, port2 := { enBits := 0xC, rstBits := 0xC }
        assertNs := 10000, settleNs := 1000000 }
    an :=
      { ctrlOff := 0x00, tscOff := 0x04, p1Ns := 100, p2Ns := 100
        steps :=
          [ StepWord.wr .pcs 0x00 0x1000, StepWord.wr .pcs 0x04 0x1, StepWord.dly 100, StepWord.wr .pcs 0x04 0x0,
            StepWord.wr .pcs 0x04 0x2, StepWord.dly 100, StepWord.wr .pcs 0x04 0x0 ] }
    f5g := testForce 0x1 0x30
    f10g := testForce 0x2 0x10
    body := { an10g := testBody 0x11, f5g := testBody 0x15, f10g := testBody 0x1A, g1 := testBody 0x21, g2 := testBody 0x22 }
    hs := { an10g := testHs, f5g := testHs, f10g := testHs, g1 := testHs, g2 := testHs }
    transNs := 1000 }

/-- CFG-R with INST-T: reduced mapping, two lanes, three ports, everything present. -/
def testConfigR : Config :=
  { laneCount := 2, mapMode := .reduced, portCount := 3, hasPll := true, hasRst := true
    hasPcs := [true, true], hasPextp := [true, true], tickNs := 1
    k := testConstants, rom := romOf testConstants }

/-- CFG-I with INST-T: identity mapping, four lanes, four ports, everything present. -/
def testConfigI : Config :=
  { laneCount := 4, mapMode := .identity, portCount := 4, hasPll := true, hasRst := true
    hasPcs := [true, true, true, true], hasPextp := [true, true, true, true], tickNs := 1
    k := testConstants, rom := romOf testConstants }

end Sys2Proof.Machine
end

