-- ==== Sys2Proof/Machine/State.lean ====
section
/-! DEFINITION. The state of the machine (10_state.md), everything the spec gives it, as plain data, and its value at
power-up (R38). The fields `draws`, `answers`, `agenda` and `hostSeen` are the model's own (log 4, 5, 6, 8). -/

namespace Sys2Proof.Machine

/-- A register domain (20_memory.md R45). -/
inductive Domain where
  | pcs (l : Lane)
  | pextp (l : Lane)
  | pll
  | rst
  deriving DecidableEq, Repr

/-- A RESULT code (10_state.md R21); 0b11 is reserved and never produced, so it has no constructor. -/
inductive Result where
  | ok
  | invalidArgument
  | notConfigured
  deriving DecidableEq, Repr

/-- The fields of the read-only register STATUS (10_state.md R20); its word is `statusWord` in Machine/Flags.lean, where
the reserved bits read 0. -/
structure Status where
  busy : Bool
  done : Bool
  result : Result
  laneValid : Bool
  lanePresent : Bool
  lane : Lane
  deriving DecidableEq, Repr

/-- The top-level state of the sequencer (10_state.md R25). -/
inductive Fsm where
  | idle
  | run
  deriving DecidableEq, Repr

/-- The phase of the step at `spc` (10_state.md R28). -/
inductive Phase where
  | issue
  | rmwWb
  | wait
  deriving DecidableEq, Repr

/-- The sequence a bound step came from (10_state.md R26). -/
inductive Tag where
  | pll
  | usxRst
  | sgmRst
  | cal (k : Program)
  deriving DecidableEq, Repr

/-- A bound step: a step word, the target lane (`none` for a PLL step), and the tag of its sequence (10_state.md R26). -/
structure BoundStep where
  word : StepWord
  lane : Option Lane
  tag : Tag
  deriving DecidableEq, Repr

/-- What is known of a lane (ghost state, 10_state.md R33). -/
inductive Redrive where
  | dirty
  | rstSeen
  | clean
  deriving DecidableEq, Repr

/-- A host-contract fault the model records (60_exceptions.md R182). -/
inductive Hazard where
  /-- HZ_BUSY: a host write to CMD while a job runs (45_orchestration.md R154) -/
  | busy
  /-- HZ_CAL_NO_PLL: a calibration that starts while `pll_done` is false (44_calibration.md R145) -/
  | calNoPll
  deriving DecidableEq, Repr

/-- The set of recorded hazards (10_state.md R34), by membership, so that equal sets are equal data. -/
structure HazardSet where
  busy : Bool
  calNoPll : Bool
  deriving DecidableEq, Repr

/-- An event of the trace (20_memory.md R48). -/
inductive Event where
  /-- `Cmd(w)`: a command word was accepted -/
  | cmd (w : Word)
  /-- `Rd(dom, off, v)`: a domain read completed -/
  | rd (dom : Domain) (off v : Word)
  /-- `Wr(dom, off, v)`: a domain write was issued -/
  | wr (dom : Domain) (off v : Word)
  /-- `Dly(d)`: a DLY step of `d` ns completed -/
  | dly (d : Word)
  /-- `Done(s)`: a command completed, with this STATUS value -/
  | done (status : Word)
  /-- `Rst`: a block reset -/
  | rst
  deriving DecidableEq, Repr

/-- An access of the host to the window, of a width in bits at a byte offset (10_state.md R18, 20_memory.md R58). -/
inductive HostAccess where
  | read (off bits : Nat)
  | write (off bits : Nat) (data : Word)
  deriving DecidableEq, Repr

/-- A move of one of the agents that act on their own (10_state.md R15, 70_reset_and_hazards.md R216). -/
inductive Move where
  /-- HOST accesses the window -/
  | host (a : HostAccess)
  /-- SEQ is scheduled -/
  | seq
  /-- RESET asserts block reset -/
  | blockReset
  deriving DecidableEq, Repr

/-- The state. -/
structure State where
  /-- the configuration and the ROM: fixed at construction, changed by no step (R31; log 1) -/
  cfg : Config
  /-- `CMD` (R19) -/
  cmd : Word
  /-- `STATUS` (R20) -/
  status : Status
  /-- `fsm` (R25) -/
  fsm : Fsm
  /-- `job` (R26) -/
  job : List BoundStep
  /-- `spc` (R27) -/
  spc : Nat
  /-- `ph` (R28) -/
  ph : Phase
  /-- `TMR`, in ticks (R29) -/
  tmr : Nat
  /-- `res` (R30) -/
  res : Result
  /-- `RD` (R17) -/
  rd : Word
  /-- `pll_done`, ghost (R32) -/
  pllDone : Bool
  /-- `redrive(l)` for l = 0, 1, …, ghost (R33) -/
  redrive : List Redrive
  /-- `faults`, ghost (R34) -/
  faults : HazardSet
  /-- `trace`, ghost, oldest event first (R35) -/
  trace : List Event
  /-- the model's own: how many free values have been drawn (log 4) -/
  draws : Nat
  /-- the model's own: the answers DOMAINS gives to the next reads; after them, free values (log 5) -/
  answers : List Word
  /-- the model's own: the pending moves, the next one first; when there is none, SEQ moves (log 6) -/
  agenda : List Move
  /-- the model's own: the words HOST's reads have returned, oldest first (log 8) -/
  hostSeen : List Word
  deriving DecidableEq, Repr

/-- Why the machine stops with a fault. -/
inductive Fault where
  /-- An access step whose domain does not exist: its lane-relative class has no lane, or the handle is absent. Raised by WR
  and RMW. 20_memory.md R47 says that no step reaches such a domain, and `Safety.Inv` rules it out; safe (log 12). -/
  | absentDomain
  deriving DecidableEq, Repr

/-- Why the machine has no meaning for what it is asked to do. -/
inductive Refusal where
  /-- An instruction without a meaning. Raised by no arm of this model; safe. -/
  | notModelled (mnemonic : String)
  /-- The configuration fails a check of 44_calibration.md R143 or a constraint of 00_scope.md R9 (60_exceptions.md R183).
  Raised by step, in every state of such a configuration; safe (log 18). -/
  | illFormedConfig
  /-- The step word at `spc` is ill-formed (30_encoding.md R80: "no semantics"). Raised by SEQ; `Safety.Inv` rules it out;
  safe (log 11). -/
  | illFormedStep
  /-- A host access that is not an aligned 32-bit word (20_memory.md R58, 60_exceptions.md R183). Raised by a HOST move;
  safe. -/
  | hostAccessNotAlignedWord
  /-- A step instruction where no step is scheduled: `fsm` is IDLE, or `spc` lies beyond the job (40_steps.md R88). Raised by
  WR, RMW, DLY and by SEQ; `Safety.Inv` rules it out of SEQ; safe (log 11). -/
  | noStepScheduled
  /-- A step instruction in a phase its kind never has (10_state.md R28, R41). Raised by WR, RMW, DLY; `Safety.Inv` rules it
  out; safe (log 11). -/
  | phaseMismatch
  deriving DecidableEq, Repr

/-- STATUS at reset: every field 0 (R20, R38). -/
def Status.zero : Status :=
  { busy := false, done := false, result := .ok, laneValid := false, lanePresent := false, lane := 0 }

/-- No hazard recorded. -/
def HazardSet.empty : HazardSet := { busy := false, calNoPll := false }

/-- The state at power-up of a block constructed with configuration `c` (R38). The value of `rd` is the model's choice
(log 3), those of the last four fields are the model's own fields' (log 4, 5, 6, 8). -/
def State.powerUp (c : Config) : State :=
  { cfg := c
    cmd := 0
    status := Status.zero
    fsm := .idle
    job := []
    spc := 0
    ph := .issue
    tmr := 0
    res := .ok
    rd := 0
    pllDone := false
    redrive := List.replicate c.laneCount .dirty
    faults := HazardSet.empty
    trace := []
    draws := 0
    answers := []
    agenda := []
    hostSeen := [] }

/-- The machine right after power-up, with the configuration CFG-R and ROM INST-T of spec/95_test_vectors.md (log 2). -/
def State.reset : State := State.powerUp testConfigR

end Sys2Proof.Machine
end

