-- ==== Sys2Proof/Machine/Flags.lean ====
section
/-! DEFINITION. The only flags of the block, the fields of STATUS (10_state.md R37): the word a host reads (R20), and the
three ways in which the fields are written, by acceptance, completion and block reset (R22, R23, R24). -/

namespace Sys2Proof.Machine

/-- The code of a result (R21). -/
def Result.code : Result → BitVec 2
  | .ok => 0b00#2
  | .invalidArgument => 0b01#2
  | .notConfigured => 0b10#2

/-- The 32-bit value of STATUS (R20): LANE [15:8], LANE_PRESENT [5], LANE_VALID [4], RESULT [3:2], DONE [1], BUSY [0], and
reserved bits 0. -/
def statusWord (s : Status) : Word :=
  0#16 ++ s.lane ++ 0#2 ++ BitVec.ofBool s.lanePresent ++ BitVec.ofBool s.laneValid ++ s.result.code
    ++ BitVec.ofBool s.done ++ BitVec.ofBool s.busy

/-- The lane fields of STATUS (R20, R24). -/
structure LaneFields where
  lane : Lane
  present : Bool
  valid : Bool
  deriving DecidableEq, Repr

/-- The lane fields of every command but QUERY_LANE (R24). -/
def LaneFields.zero : LaneFields := { lane := 0, present := false, valid := false }

/-- STATUS once a command is accepted: DONE is cleared (R23, 45_orchestration.md R153). -/
def Status.accept (s : Status) : Status := { s with done := false }

/-- STATUS once the job of an accepted command starts: BUSY is set (R22, 45_orchestration.md R153). -/
def Status.start (s : Status) : Status := { s with busy := true }

/-- STATUS once a command completes with result `r` and lane fields `lf` (R22 to R24, 45_orchestration.md R163). -/
def Status.complete (r : Result) (lf : LaneFields) : Status :=
  { busy := false, done := true, result := r, laneValid := lf.valid, lanePresent := lf.present, lane := lf.lane }

end Sys2Proof.Machine
end

