-- ==== Sys2Proof/Machine/Resolver.lean ====
section
/-! DEFINITION. The lane resolver (41_lane_resolver.md): combinational, no state. -/

namespace Sys2Proof.Machine

/-- `resolve(MAP_MODE, port_id)`; `none` is the sentinel Invalid (R100, R101, R102). -/
def resolve (m : MapMode) (p : PortId) : Option Lane :=
  match m with
  | .identity => some p
  | .reduced =>
    if p = 0#8 then some 1#8
    else if p = 1#8 then some 1#8
    else if p = 2#8 then some 0#8
    else none

/-- A lane index is that of a lane that is present (R43, R103). -/
def lanePresent (c : Config) (l : Lane) : Bool := decide (l.toNat < c.laneCount)

/-- `lane(p)` where `lane_ok(p)` holds, and `none` where it does not (R103). -/
def laneOf (c : Config) (p : PortId) : Option Lane :=
  match resolve c.mapMode p with
  | some l => if lanePresent c l then some l else none
  | none => none

/-- `lane_ok(p)` (R103). -/
def laneOk (c : Config) (p : PortId) : Bool := (laneOf c p).isSome

/-- `HAS_PCS(l)`; a lane that does not exist has no handle (R9, R43). -/
def hasPcs (c : Config) (l : Lane) : Bool := lanePresent c l && c.hasPcs.getD l.toNat false

/-- `HAS_PEXTP(l)`; a lane that does not exist has no handle (R9, R43). -/
def hasPextp (c : Config) (l : Lane) : Bool := lanePresent c l && c.hasPextp.getD l.toNat false

end Sys2Proof.Machine
end

