-- ==== Sys2Proof/Machine/Operands.lean ====
section
/-! DEFINITION. The operand forms of the steps: the domain a class resolves to (40_steps.md R87), the masked merge of RMW
(R92), the timer load of DLY (R96). Every other operand is a field of the instruction, taken as it stands
(30_encoding.md R71, R79). -/

namespace Sys2Proof.Machine

/-- A domain exists exactly when its handle is present (20_memory.md R45). -/
def domainExists (c : Config) : Domain → Bool
  | .pcs l => hasPcs c l
  | .pextp l => hasPextp c l
  | .pll => c.hasPll
  | .rst => c.hasRst

/-- `bind(dc, l)` (40_steps.md R87); a lane-relative class without a lane has no domain. -/
def bindClass (dc : DomainClass) (l : Option Lane) : Option Domain :=
  match dc with
  | .pcs => l.map .pcs
  | .pextp => l.map .pextp
  | .pll => some .pll
  | .rst => some .rst

/-- The domain a step of class `dc` with lane `l` accesses, when it exists (40_steps.md R87, 20_memory.md R45, R47). -/
def boundDomain (c : Config) (dc : DomainClass) (l : Option Lane) : Option Domain :=
  (bindClass dc l).filter (domainExists c)

/-- `(RD & ~mask) | (val & mask)` (40_steps.md R92, R217 (a)). -/
def mergeMasked (rd mask val : Word) : Word := (rd &&& ~~~mask) ||| (val &&& mask)

/-- `ceil(d / TICK_NS)`, exact (40_steps.md R96, R217 (b)). -/
def timerLoad (tickNs : Nat) (d : Word) : Nat := (d.toNat + (tickNs - 1)) / tickNs

end Sys2Proof.Machine
end

