-- ==== Sys2Proof/Machine/Ops.lean ====
section
/-! DEFINITION. The shared operations: the trace, hazards, the domain accesses, the start and the completion of a step with
the ghost updates that go with them, the completion of a command, and block reset.

The block takes no exception (60_exceptions.md R178, R187): what stands in that place is the recording of a hazard
(`State.raise`, R182), the completion of a command with its result (`State.complete`, 45_orchestration.md R163), and the
one asynchronous input, block reset (`State.blockReset`, 70_reset_and_hazards.md R198). -/

namespace Sys2Proof.Machine

/-! ## Trace and hazards -/

/-- `emit e` (00_scope.md R13, 20_memory.md R48). -/
def State.emit (s : State) (e : Event) : State := { s with trace := s.trace ++ [e] }

/-- A hazard is recorded in the set. -/
def HazardSet.mem (f : HazardSet) : Hazard → Bool
  | .busy => f.busy
  | .calNoPll => f.calNoPll

/-- The set with a hazard added. -/
def HazardSet.insert (f : HazardSet) : Hazard → HazardSet
  | .busy => { f with busy := true }
  | .calNoPll => { f with calNoPll := true }

/-- `raise Hazard(h)` (00_scope.md R13, 60_exceptions.md R182). -/
def State.raise (s : State) (h : Hazard) : State := { s with faults := s.faults.insert h }

/-! ## Domain accesses -/

/-- The value DOMAINS gives to the next read: the next input, or a free value (20_memory.md R49; log 4, log 5). -/
def State.nextAnswer (s : State) : Word :=
  match s.answers with
  | v :: _ => v
  | [] => Config.freeWord s.draws

/-- The state once that value has been given. -/
def State.answered (s : State) : State :=
  match s.answers with
  | _ :: rest => { s with answers := rest }
  | [] => { s with draws := s.draws + 1 }

/-- `RD <- DomRead(dom, off)`, with its event (20_memory.md R47, R48, 40_steps.md R91). -/
def State.domRead (s : State) (dom : Domain) (off : Word) : State :=
  { s.answered with rd := s.nextAnswer, trace := s.trace ++ [.rd dom off s.nextAnswer] }

/-- `DomWrite(dom, off, v)`: the event, whether or not the write takes effect (20_memory.md R47, R48, R51). -/
def State.domWrite (s : State) (dom : Domain) (off v : Word) : State := s.emit (.wr dom off v)

/-! ## Ghost state -/

/-- `redrive(l)`; a lane that does not exist has no entry and reads as DIRTY (10_state.md R33, R43). -/
def State.redriveOf (s : State) (l : Lane) : Redrive := s.redrive.getD l.toNat .dirty

/-- `redrive(l) <- r` for the lane of a bound step; without a lane, or for a lane that does not exist, nothing
(10_state.md R33, R43). -/
def State.setRedrive (s : State) (l : Option Lane) (r : Redrive) : State :=
  match l with
  | some l => { s with redrive := s.redrive.set l.toNat r }
  | none => s

/-- The part of the job a tag names has a step before position `n` (log 19). -/
def hasBefore (job : List BoundStep) (n : Nat) (t : Tag) : Bool := (job.take n).any fun b => b.tag == t

/-- The part of the job a tag names has a step at or after position `n`: it has not completed when the steps before `n`
have (70_reset_and_hazards.md R199; log 19). -/
def hasFrom (job : List BoundStep) (n : Nat) (t : Tag) : Bool := (job.drop n).any fun b => b.tag == t

/-- The tag of a calibration part. -/
def Tag.isCal : Tag → Bool
  | .cal _ => true
  | _ => false

/-- What the start of a step does to the ghost state: the first step of a calibration part raises HZ_CAL_NO_PLL when
`pll_done` is false (44_calibration.md R145). -/
def State.startStep (s : State) (b : BoundStep) : State :=
  if b.tag.isCal && !s.pllDone && !hasBefore s.job s.spc b.tag then s.raise .calNoPll else s

/-- `redrive(l)` after a completed reset part (43_reset.md R126). -/
def redriveAfterReset (pllDone : Bool) : Redrive := if pllDone then .rstSeen else .dirty

/-- `redrive(l)` after a completed calibration part (44_calibration.md R146). -/
def redriveAfterCal (pllDone : Bool) (old : Redrive) : Redrive := if pllDone && old != .dirty then .clean else .dirty

/-- The ghost update when the part of bound step `b` completes (42_pll.md R112, 43_reset.md R126, 44_calibration.md R146). -/
def State.partCompleted (s : State) (b : BoundStep) : State :=
  match b.tag with
  | .pll => { s with pllDone := true }
  | .usxRst => s.setRedrive b.lane (redriveAfterReset s.pllDone)
  | .sgmRst => s.setRedrive b.lane (redriveAfterReset s.pllDone)
  | .cal _ => s.setRedrive b.lane (redriveAfterCal s.pllDone ((b.lane.map s.redriveOf).getD .dirty))

/-! ## Steps -/

/-- `spc <- spc + 1; ph <- ISSUE` (40_steps.md R88). -/
def State.advance (s : State) : State := { s with spc := s.spc + 1, ph := .issue }

/-- The completion of step `b` at `spc`: the ghost update when it is the last of its part, then the advance (40_steps.md
R88, 42_pll.md R112, 43_reset.md R126, 44_calibration.md R146). -/
def State.completeStep (s : State) (b : BoundStep) : State :=
  (if hasFrom s.job (s.spc + 1) b.tag then s else s.partCompleted b).advance

/-- Run `k` on the bound step at `spc`; a step instruction runs nowhere else (40_steps.md R88; log 11). -/
def State.withStep (s : State) (k : BoundStep → Host.Outcome State Fault Refusal) : Host.Outcome State Fault Refusal :=
  match s.fsm, s.job[s.spc]? with
  | .run, some b => k b
  | _, _ => .refused .noStepScheduled

/-- Run `k` on the domain a step of class `dc` and lane `l` accesses (40_steps.md R87, 20_memory.md R47; log 12). -/
def State.withDomain (s : State) (dc : DomainClass) (l : Option Lane) (k : Domain → Host.Outcome State Fault Refusal) :
    Host.Outcome State Fault Refusal :=
  match boundDomain s.cfg dc l with
  | some dom => k dom
  | none => .fault .absentDomain

/-! ## Commands -/

/-- What `decode_and_build` gives for a command word: a result, a job, and the lane fields (45_orchestration.md R153). -/
structure Build where
  result : Result
  job : List BoundStep
  lanes : LaneFields
  deriving DecidableEq, Repr

/-- `complete(r, lf)` (45_orchestration.md R163). -/
def State.complete (s : State) (r : Result) (lf : LaneFields) : State :=
  ({ s with status := Status.complete r lf, fsm := .idle, job := [], spc := 0, ph := .issue }).emit
    (.done (statusWord (Status.complete r lf)))

/-- The start of the job of an accepted command (45_orchestration.md R153). -/
def State.startJob (s : State) (j : List BoundStep) : State :=
  { s with job := j, spc := 0, ph := .issue, res := .ok, fsm := .run, status := s.status.start }

/-- The latch of an accepted command word: `CMD <- w; emit Cmd(w); STATUS.DONE <- 0` (45_orchestration.md R153). -/
def State.latch (s : State) (w : Word) : State :=
  ({ s with cmd := w, status := s.status.accept }).emit (.cmd w)

/-- Acceptance of the word `w`, which decodes and builds to `b` (45_orchestration.md R153). -/
def State.accept (s : State) (w : Word) (b : Build) : State :=
  if b.result ≠ .ok ∨ b.job = [] then (s.latch w).complete b.result b.lanes else (s.latch w).startJob b.job

/-- A host write of the word `w` to CMD: accepted in IDLE (45_orchestration.md R153), ignored in RUN with HZ_BUSY recorded
(R154). -/
def State.writeCmd (s : State) (w : Word) (b : Build) : State :=
  match s.fsm with
  | .idle => s.accept w b
  | .run => s.raise .busy

/-! ## Block reset -/

/-- The steps of a job that have started, when SEQ stands at `spc` in phase `ph` (70_reset_and_hazards.md R199). -/
def startedSteps (job : List BoundStep) (spc : Nat) (ph : Phase) : List BoundStep :=
  if ph = .issue then job.take spc else job.take (spc + 1)

/-- The ghost update of an interrupted PLL part: `pll_done` is cleared and every lane is DIRTY (70_reset_and_hazards.md
R199). -/
def State.pllInterrupted (s : State) : State := { s with pllDone := false, redrive := s.redrive.map fun _ => .dirty }

/-- The ghost update for one started step of a reset or calibration part: its lane is DIRTY when the part has not
completed (70_reset_and_hazards.md R199). -/
def State.stepInterrupted (s : State) (b : BoundStep) : State :=
  if b.tag ≠ .pll ∧ hasFrom s.job s.spc b.tag then s.setRedrive b.lane .dirty else s

/-- `interrupted(job, spc, ph)` (70_reset_and_hazards.md R199). -/
def State.interrupted (s : State) : State :=
  let started := startedSteps s.job s.spc s.ph
  let s1 := if started.any (fun b => b.tag == .pll) && hasFrom s.job s.spc .pll then s.pllInterrupted else s
  started.foldl State.stepInterrupted s1

/-- The state once a free value has been put into RD (70_reset_and_hazards.md R198: "`RD` becomes unspecified"; log 4). -/
def State.freeRd (s : State) : State := { s with rd := Config.freeWord s.draws, draws := s.draws + 1 }

/-- Block reset (70_reset_and_hazards.md R198). -/
def State.blockReset (s : State) : State :=
  let s1 :=
    match s.fsm with
    | .run => s.interrupted
    | .idle => s
  ({ s1.freeRd with
      cmd := 0, status := Status.zero, fsm := .idle, job := [], spc := 0, ph := .issue, tmr := 0, res := .ok }).emit .rst

/-! ## The host window -/

/-- A host access the window answers: an aligned 32-bit word (20_memory.md R58). -/
def windowOk (off bits : Nat) : Bool := bits == 32 && off % 4 == 0

/-- What a host read of the window returns at a word offset: CMD at 0x0, STATUS at 0x4, 0 elsewhere (10_state.md R18). -/
def State.windowRead (s : State) (off : Nat) : Word :=
  if off = 0x0 then s.cmd
  else if off = 0x4 then statusWord s.status
  else 0

/-- A host read of the window: the word goes to HOST and the block is unchanged (45_orchestration.md R174; log 8). -/
def State.hostRead (s : State) (off : Nat) : State := { s with hostSeen := s.hostSeen ++ [s.windowRead off] }

end Sys2Proof.Machine
end

