-- ==== Sys2Proof/Machine/Jobs.lean ====
section
/-! DEFINITION. The job builders (45_orchestration.md R164, 44_calibration.md R148): what each gated part of a job holds, from
the configuration and the port alone (R153, R170). -/

namespace Sys2Proof.Machine

/-- A sequence with its lane and tag attached to each step (10_state.md R26). -/
def bindAll (l : Option Lane) (t : Tag) (seq : List StepWord) : List BoundStep :=
  seq.map fun w => { word := w, lane := l, tag := t }

/-- `USX_RST(p)`, for the two ports that have one (43_reset.md R114). -/
def usxSeqOf (c : Config) (p : PortId) : Option (List StepWord) :=
  if p = 1#8 then some c.rom.usx1 else if p = 2#8 then some c.rom.usx2 else none

/-- `SGM_RST(p)`, for the two ports that have one (43_reset.md R114). -/
def sgmSeqOf (c : Config) (p : PortId) : Option (List StepWord) :=
  if p = 1#8 then some c.rom.sgm1 else if p = 2#8 then some c.rom.sgm2 else none

/-- `PLLJOB` (45_orchestration.md R164, 42_pll.md R107). -/
def pllJob (c : Config) : List BoundStep := if c.hasPll then bindAll none .pll c.rom.pll else []

/-- The steps of a reset sequence for port `p`, behind the gate of 43_reset.md R114. -/
def resetJob (c : Config) (p : PortId) (seq : Option (List StepWord)) (t : Tag) : List BoundStep :=
  match laneOf c p, c.hasRst, seq with
  | some l, true, some steps => bindAll (some l) t steps
  | _, _, _ => []

/-- `USXJOB(p)` (45_orchestration.md R164). -/
def usxJob (c : Config) (p : PortId) : List BoundStep := resetJob c p (usxSeqOf c p) .usxRst

/-- `SGMJOB(p)` (45_orchestration.md R164). -/
def sgmJob (c : Config) (p : PortId) : List BoundStep := resetJob c p (sgmSeqOf c p) .sgmRst

/-- `CALJOB(k, p)` (44_calibration.md R129, R148). -/
def calJob (c : Config) (k : Program) (p : PortId) : List BoundStep :=
  match laneOf c p with
  | some l => if hasPcs c l && hasPextp c l then bindAll (some l) (.cal k) (c.rom.prog.get k) else []
  | none => []

/-- The job of a setup with program `k` (45_orchestration.md R156, R158, R168). -/
def setupJob (c : Config) (k : Program) (p : PortId) : List BoundStep := pllJob c ++ usxJob c p ++ calJob c k p

/-- `port_id ≥ PORT_COUNT` (45_orchestration.md R156, R158). -/
def portBad (c : Config) (p : PortId) : Bool := decide (c.portCount ≤ p.toNat)

/-- A result without a job. -/
def Build.failed (r : Result) : Build := { result := r, job := [], lanes := LaneFields.zero }

/-- A job that runs, or completes at once when it is empty. -/
def Build.run (j : List BoundStep) : Build := { result := .ok, job := j, lanes := LaneFields.zero }

/-- The build of SETUP_AUTONEG (45_orchestration.md R156, R157). -/
def buildSetupAutoneg (c : Config) (p : PortId) (speed : Speed) : Build :=
  if portBad c p || !(speed == 5000#16 || speed == 10000#16) then Build.failed .invalidArgument
  else Build.run (setupJob c .an10g p)

/-- The program an interface kind selects (30_encoding.md R67, 45_orchestration.md R158). -/
def forcedProgram (ifk : BitVec 4) : Program := if ifk = 0x1#4 then .f5g else .f10g

/-- The build of SETUP_FORCED (45_orchestration.md R158). -/
def buildSetupForced (c : Config) (p : PortId) (ifk : BitVec 4) : Build :=
  if portBad c p then Build.failed .invalidArgument else Build.run (setupJob c (forcedProgram ifk) p)

/-- The build of RESET_LANE (45_orchestration.md R159). -/
def buildResetLane (c : Config) (p : PortId) (mode : ResetMode) : Build :=
  match mode with
  | .usx => Build.run (usxJob c p)
  | .sgmii => Build.run (sgmJob c p)

/-- The build of ENABLE_PLL (45_orchestration.md R160). -/
def buildEnablePll (c : Config) : Build := if c.hasPll then Build.run (pllJob c) else Build.failed .notConfigured

/-- The build of CALIBRATE (45_orchestration.md R161, 30_encoding.md R69, R73). -/
def buildCalibrate (c : Config) (p : PortId) (prog : BitVec 3) : Build :=
  match Program.ofCode prog with
  | some k => Build.run (calJob c k p)
  | none => Build.failed .invalidArgument

/-- The lane fields of QUERY_LANE (45_orchestration.md R162). -/
def queryFields (c : Config) (p : PortId) : LaneFields :=
  { lane := (resolve c.mapMode p).getD 0#8, present := laneOk c p, valid := (resolve c.mapMode p).isSome }

/-- The build of QUERY_LANE (45_orchestration.md R162). -/
def buildQueryLane (c : Config) (p : PortId) : Build := { result := .ok, job := [], lanes := queryFields c p }

/-- The build of a reserved opcode (30_encoding.md R72, 45_orchestration.md R155). -/
def buildReserved : Build := Build.failed .invalidArgument

end Sys2Proof.Machine
end

