-- ==== Sys2Proof/Machine/Commands.lean ====
section
/-! DEFINITION. The six commands (45_orchestration.md R156 to R162): each is the host's write of its word to CMD, accepted in
IDLE (R153), ignored with HZ_BUSY recorded in RUN (R154). -/

namespace Sys2Proof.Machine

/-- SETUP_AUTONEG (45_orchestration.md R156, R157). -/
def execSetupAutoneg (sub : BitVec 4) (port : PortId) (speed : Speed) (s : State) : Host.Outcome State Fault Refusal :=
  .next (s.writeCmd (Cmd32.word 0x1#4 sub port speed) (buildSetupAutoneg s.cfg port speed))

/-- SETUP_FORCED (45_orchestration.md R158). -/
def execSetupForced (ifk : BitVec 4) (port : PortId) (speed : Speed) (s : State) : Host.Outcome State Fault Refusal :=
  .next (s.writeCmd (Cmd32.word 0x2#4 ifk port speed) (buildSetupForced s.cfg port ifk))

/-- RESET_LANE (45_orchestration.md R159). -/
def execResetLane (mode : ResetMode) (subHi : BitVec 3) (port : PortId) (speed : Speed) (s : State) :
    Host.Outcome State Fault Refusal :=
  .next (s.writeCmd (Cmd32.word 0x3#4 (subHi ++ mode.toBit) port speed) (buildResetLane s.cfg port mode))

/-- ENABLE_PLL (45_orchestration.md R160). -/
def execEnablePll (sub : BitVec 4) (port : PortId) (speed : Speed) (s : State) : Host.Outcome State Fault Refusal :=
  .next (s.writeCmd (Cmd32.word 0x4#4 sub port speed) (buildEnablePll s.cfg))

/-- CALIBRATE (45_orchestration.md R161). -/
def execCalibrate (prog : BitVec 3) (subHi : BitVec 1) (port : PortId) (speed : Speed) (s : State) :
    Host.Outcome State Fault Refusal :=
  .next (s.writeCmd (Cmd32.word 0x5#4 (subHi ++ prog) port speed) (buildCalibrate s.cfg port prog))

/-- QUERY_LANE (45_orchestration.md R162). -/
def execQueryLane (sub : BitVec 4) (port : PortId) (speed : Speed) (s : State) : Host.Outcome State Fault Refusal :=
  .next (s.writeCmd (Cmd32.word 0x6#4 sub port speed) (buildQueryLane s.cfg port))

end Sys2Proof.Machine
end

