-- ==== Sys2Proof/Machine/Steps.lean ====
section
/-! DEFINITION. The three step kinds (40_steps.md): each executes one phase of the bound step at `spc`. -/

namespace Sys2Proof.Machine

/-- WR (40_steps.md R89, R90). -/
def execWr (dc : DomainClass) (off val : Word) (s : State) : Host.Outcome State Fault Refusal :=
  s.withStep fun b =>
    match s.ph with
    | .issue => s.withDomain dc b.lane fun dom => .next (((s.startStep b).domWrite dom off val).completeStep b)
    | .rmwWb => .refused .phaseMismatch
    | .wait => .refused .phaseMismatch

/-- RMW: the read phase in ISSUE, the write phase in RMW_WB (40_steps.md R91, R92, R93). -/
def execRmw (dc : DomainClass) (off mask val : Word) (s : State) : Host.Outcome State Fault Refusal :=
  s.withStep fun b =>
    match s.ph with
    | .issue => s.withDomain dc b.lane fun dom => .next { (s.startStep b).domRead dom off with ph := .rmwWb }
    | .rmwWb =>
      s.withDomain dc b.lane fun dom => .next ((s.domWrite dom off (mergeMasked s.rd mask val)).completeStep b)
    | .wait => .refused .phaseMismatch

/-- The end of a DLY step: its event, then the completion (40_steps.md R95). -/
def State.dlyDone (s : State) (b : BoundStep) (d : Word) : State := (s.emit (.dly d)).completeStep b

/-- DLY: in ISSUE the timer is loaded, and a delay of no ticks completes at once (40_steps.md R95, R97); in WAIT each move
is one tick, which completes the step when the timer is 0 and else decrements it (R96, R217 (c); log 9). -/
def execDly (d : Word) (s : State) : Host.Outcome State Fault Refusal :=
  s.withStep fun b =>
    match s.ph with
    | .issue =>
      let s1 := { s.startStep b with tmr := timerLoad s.cfg.tickNs d }
      if s1.tmr = 0 then .next (s1.dlyDone b d) else .next { s1 with ph := .wait }
    | .wait => if s.tmr = 0 then .next (s.dlyDone b d) else .next { s with tmr := s.tmr - 1 }
    | .rmwWb => .refused .phaseMismatch

end Sys2Proof.Machine
end

