-- ==== Sys2Proof/Machine/Dispatch.lean ====
section
/-! DEFINITION. The dispatch of an instruction to its meaning. -/

namespace Sys2Proof.Machine

def exec (i : Instr) (s : State) : Host.Outcome State Fault Refusal :=
  match i with
  | .setupAutoneg sub port speed => Sys2Proof.Machine.execSetupAutoneg sub port speed s
  | .setupForced ifk port speed => Sys2Proof.Machine.execSetupForced ifk port speed s
  | .resetLane mode subHi port speed => Sys2Proof.Machine.execResetLane mode subHi port speed s
  | .enablePll sub port speed => Sys2Proof.Machine.execEnablePll sub port speed s
  | .calibrate prog subHi port speed => Sys2Proof.Machine.execCalibrate prog subHi port speed s
  | .queryLane sub port speed => Sys2Proof.Machine.execQueryLane sub port speed s
  | .wr dc off val => Sys2Proof.Machine.execWr dc off val s
  | .rmw dc off mask val => Sys2Proof.Machine.execRmw dc off mask val s
  | .dly d => Sys2Proof.Machine.execDly d s

end Sys2Proof.Machine
end

