-- ==== Sys2Proof/Machine/RomCheck.lean ====
section
/-! DEFINITION. What a configuration must satisfy: the constraints of 00_scope.md R9 and the checks W1 to W12 of
44_calibration.md R143. The model refuses a configuration that fails any of them (60_exceptions.md R183). -/

namespace Sys2Proof.Machine

/-- Every condition of the list holds. -/
def allOf (l : List Bool) : Bool := l.all fun b => b

/-- The number of one bits (R12). -/
def popcount (w : Word) : Nat := ((List.range 32).filter fun i => w.getLsbD i).length

/-- No bit of `val` lies outside `mask`: `val & ~mask = 0`. -/
def within (val mask : Word) : Bool := (val &&& ~~~mask) == 0#32

/-- Nanosecond scale: 1 ≤ d < 1 000 (44_calibration.md R137). -/
def nsScale (d : Word) : Bool := 1 ≤ d.toNat && d.toNat < 1000

/-- Microsecond scale: 1 000 ≤ d < 1 000 000 (44_calibration.md R137). -/
def usScale (d : Word) : Bool := 1000 ≤ d.toNat && d.toNat < 1000000

/-- Millisecond scale: 1 000 000 ≤ d < 1 000 000 000 (44_calibration.md R137). -/
def msScale (d : Word) : Bool := 1000000 ≤ d.toNat && d.toNat < 1000000000

/-! ## Step words -/

/-- The list of every step word of the ROM. -/
def romWords (r : Rom) : List StepWord :=
  r.pll ++ r.usx1 ++ r.usx2 ++ r.sgm1 ++ r.sgm2 ++ r.prog.an10g ++ r.prog.f5g ++ r.prog.f10g ++ r.prog.g1 ++ r.prog.g2

/-- The bits R76 fixes are as R76 says; the alignment of the offset is left to W3 (30_encoding.md R80). -/
def shapeOk (s : StepWord) : Bool :=
  match decodeStep s with
  | .ok _ => true
  | .error .misalignedOffset => true
  | .error _ => false

/-- A step word whose shape is right has an aligned offset, if it has one (30_encoding.md R80). -/
def offsetOk (s : StepWord) : Bool :=
  match decodeStep s with
  | .error .misalignedOffset => false
  | _ => true

/-- The domain class of an access step; a DLY has none. -/
def accessClass (s : StepWord) : Option DomainClass :=
  match decodeStep s with
  | .ok (.wr dc _ _) => some dc
  | .ok (.rmw dc _ _ _) => some dc
  | _ => none

/-- The offset of an access step; a DLY has none. -/
def accessOff (s : StepWord) : Option Word :=
  match decodeStep s with
  | .ok (.wr _ off _) => some off
  | .ok (.rmw _ off _ _) => some off
  | _ => none

/-- The duration of a DLY step. -/
def dlyOf (s : StepWord) : Option Word :=
  match decodeStep s with
  | .ok (.dly d) => some d
  | _ => none

/-- Every access step of the list has one of the given classes. -/
def classesIn (cs : List DomainClass) (l : List StepWord) : Bool :=
  l.all fun s =>
    match accessClass s with
    | some dc => cs.contains dc
    | none => true

/-! ## The checks -/

/-- The constraints of the parameter table of 00_scope.md R9. -/
def paramsOk (c : Config) : Bool :=
  allOf [c.laneCount ≤ 255, c.portCount ≤ 256, 1 ≤ c.tickNs, c.hasPcs.length == c.laneCount,
    c.hasPextp.length == c.laneCount]

/-- W1: every step word is well-formed but for its alignment. -/
def checkW1 (c : Config) : Bool := (romWords c.rom).all shapeOk

/-- W2: every sequence has the skeleton its rule gives. -/
def checkW2 (c : Config) : Bool := c.rom == romOf c.k

/-- The named offsets of the constants. -/
def namedOffsets (k : Constants) : List Word :=
  [k.pll.anaOff, k.pll.digOff, k.usx.offA, k.usx.offB, k.sgm.enOff, k.sgm.rstOff, k.an.ctrlOff, k.an.tscOff]
    ++ [k.f5g, k.f10g].flatMap (fun f => [f.spdOff, f.anOff, f.ckgOff, f.frcOff])
    ++ k.hs.toList.flatMap (fun h => [h.pdOff, h.e1Off, h.e2Off, h.finOff])

/-- W3: every offset is a multiple of 4. -/
def checkW3 (c : Config) : Bool := (romWords c.rom).all offsetOk && (namedOffsets c.k).all Word.aligned

/-- W4: PLL_SEQ uses only DC = PLL, the resets only DC = RST, the programs only PCS and PEXTP. -/
def checkW4 (c : Config) : Bool :=
  allOf [
    classesIn [.pll] c.rom.pll,
    [c.rom.usx1, c.rom.usx2, c.rom.sgm1, c.rom.sgm2].all (classesIn [.rst]),
    c.rom.prog.toList.all (classesIn [.pcs, .pextp])]

/-- Both offsets occur among the four writes of a port (43_reset.md R116). -/
def usxPortOk (p : UsxPort) : Bool :=
  let sels := [p.i0.sel, p.i1.sel, p.i2.sel, p.i3.sel]
  sels.contains .a && sels.contains .b

/-- The constraints on one port's SGMII reset constants (43_reset.md R121). -/
def sgmPortOk (s : SgmConsts) (p : SgmPort) : Bool :=
  allOf [p.enBits != 0#32, p.rstBits != 0#32, (p.rstBits &&& s.keyMask) == 0#32,
    s.enOff != s.rstOff || (p.enBits &&& (p.rstBits ||| s.keyMask)) == 0#32]

/-- The constraints on one Force prefix's constants (44_calibration.md R133). -/
def forceOk (f : ForceConsts) : Bool :=
  allOf [
    f.spdMask != 0#32, within f.spdVal f.spdMask,
    popcount f.anEnBit == 1,
    f.ckgMask != 0#32, within f.ckgGate f.ckgMask, within f.ckgUngate f.ckgMask, f.ckgGate != f.ckgUngate,
    f.frcMask != 0#32, within f.frcVal f.frcMask]

/-- The constraints on one program's handshake constants (44_calibration.md R135). -/
def hsOk (h : HsConsts) : Bool :=
  allOf [h.e1Tb != 0#32, within h.e1Tb h.e1Val, h.e2Tb != 0#32, within h.e2Tb h.e2Val]

/-- W5: the constraints of the constant tables of the PLL (42_pll.md R108), the resets (43_reset.md R116, R121), the Force
prefixes (44_calibration.md R133) and the handshakes (R135); alignment is W3's and the scales are W7's. -/
def checkW5 (c : Config) : Bool :=
  allOf [
    c.k.pll.digOff != c.k.pll.anaOff, popcount c.k.pll.enMask == 1,
    c.k.usx.offA != c.k.usx.offB, usxPortOk c.k.usx.port1, usxPortOk c.k.usx.port2,
    c.k.sgm.keyMask != 0#32, within c.k.sgm.keyVal c.k.sgm.keyMask,
    sgmPortOk c.k.sgm c.k.sgm.port1, sgmPortOk c.k.sgm c.k.sgm.port2,
    forceOk c.k.f5g, forceOk c.k.f10g,
    c.k.hs.toList.all hsOk]

/-- An RMW step sets no bit outside its mask; other steps have nothing to check (40_steps.md R93). -/
def rmwValOk (s : StepWord) : Bool :=
  match decodeStep s with
  | .ok (.rmw _ _ mask val) => within val mask
  | _ => true

/-- W6: every RMW has `val & ~mask = 0`. -/
def checkW6 (c : Config) : Bool := (romWords c.rom).all rmwValOk

/-- W7: every delay that is given by a scale only lies in its range (44_calibration.md R137, R135 for `T_TRANS_NS`). -/
def checkW7 (c : Config) : Bool :=
  allOf [
    msScale c.k.usx.settleNs, usScale c.k.sgm.assertNs, msScale c.k.sgm.settleNs,
    nsScale c.k.an.p1Ns, nsScale c.k.an.p2Ns,
    nsScale c.k.f5g.gateNs, nsScale c.k.f5g.ungateNs,
    nsScale c.k.f10g.gateNs, nsScale c.k.f10g.ungateNs,
    500 ≤ c.k.transNs.toNat, c.k.transNs.toNat < 2000]

/-- Two lists have the same step kind at each position (44_calibration.md R138). -/
def sameKinds (a b : List StepWord) : Bool := a.map Step128.kind == b.map Step128.kind

/-- Two lists differ at most in the values they write: same kind, class, offset or duration, and mask at each position
(44_calibration.md R139). -/
def sameButValues (a b : List StepWord) : Bool :=
  a.map (fun s => (s.w0, s.w1, s.w3)) == b.map (fun s => (s.w0, s.w1, s.w3))

/-- Two handshakes have the same offsets (44_calibration.md R139). -/
def sameHsOffsets (a b : HsConsts) : Bool :=
  allOf [a.pdOff == b.pdOff, a.e1Off == b.e1Off, a.e2Off == b.e2Off, a.finOff == b.finOff]

/-- W8: the shape relations between programs (44_calibration.md R138, R139). -/
def checkW8 (c : Config) : Bool :=
  allOf [
    sameKinds c.k.body.an10g c.k.body.f5g, sameKinds c.k.body.an10g c.k.body.f10g,
    sameButValues c.k.body.g1 c.k.body.g2, sameHsOffsets c.k.hs.g1 c.k.hs.g2]

/-- W9: the reset offsets of the two variants are disjoint (43_reset.md R124). -/
def checkW9 (c : Config) : Bool :=
  [c.k.sgm.enOff, c.k.sgm.rstOff].all fun off => off != c.k.usx.offA && off != c.k.usx.offB

/-- Every DLY of the list stands between two accesses to `tsc`; `prev` is the step before the list (44_calibration.md
R131 (d)). -/
def pulsesOk (tsc : Word) : Option StepWord → List StepWord → Bool
  | _, [] => true
  | prev, s :: rest =>
    (match dlyOf s with
      | some _ => (prev.bind accessOff) == some tsc && (rest.head?.bind accessOff) == some tsc
      | none => true)
    && pulsesOk tsc (some s) rest

/-- W10: `AN_PREFIX` satisfies (a) to (e) of 44_calibration.md R131, and its two offsets differ. -/
def checkW10 (c : Config) : Bool :=
  let a := c.k.an
  allOf [
    a.ctrlOff != a.tscOff,
    classesIn [.pcs] a.steps,
    (a.steps.takeWhile fun s => accessOff s != some a.tscOff).any (fun s => accessOff s == some a.ctrlOff),
    a.steps.filterMap dlyOf == [a.p1Ns, a.p2Ns], nsScale a.p1Ns, nsScale a.p2Ns,
    pulsesOk a.tscOff none a.steps,
    (a.steps.filterMap accessOff).all (fun off => off == a.ctrlOff || off == a.tscOff)]

/-- A step a body may hold: `WR PEXTP` or `DLY` (44_calibration.md R136). -/
def bodyStepOk (s : StepWord) : Bool :=
  match decodeStep s with
  | .ok (.wr .pextp _ _) => true
  | .ok (.dly _) => true
  | _ => false

/-- W11: `BODY(k)` has only `WR PEXTP` and `DLY` steps. -/
def checkW11 (c : Config) : Bool := c.k.body.toList.all fun b => b.all bodyStepOk

/-- The last twelve steps of a program. -/
def lastTwelve (l : List StepWord) : List StepWord := l.drop (l.length - 12)

/-- W12: the handshake's delays, in every program of the ROM, are exactly those of 44_calibration.md R134. -/
def checkW12 (c : Config) : Bool :=
  c.rom.prog.toList.all fun l =>
    (lastTwelve l).map dlyOf ==
      [none, some 150000#32, none, some c.k.transNs, none, some 15000#32,
       none, some c.k.transNs, none, some 100000#32, none, some 400000#32]

/-- The configuration is accepted: the constraints of R9 and the checks W1 to W12 (44_calibration.md R143). -/
def configOk (c : Config) : Bool :=
  allOf [paramsOk c, checkW1 c, checkW2 c, checkW3 c, checkW4 c, checkW5 c, checkW6 c,
    checkW7 c, checkW8 c, checkW9 c, checkW10 c, checkW11 c, checkW12 c]

end Sys2Proof.Machine
end

