-- ==== Sys2Proof/Machine/Sequencer.lean ====
section
/-! DEFINITION. The moves of the agents (45_orchestration.md R174): SEQ fetches, decodes and runs the step at `spc`; HOST
accesses the window; RESET resets the block. Step.lean only calls these. -/

namespace Sys2Proof.Machine

/-- A move of SEQ in RUN: the step at `spc`, or the completion of the command when `spc = len(job)` (40_steps.md R88,
45_orchestration.md R163, R174). -/
def State.seqRun (s : State) : Host.Outcome State Fault Refusal :=
  match s.job[s.spc]? with
  | some b =>
    match decodeStep b.word with
    | .ok i => exec i s
    | .error _ => .refused .illFormedStep
  | none => if s.spc = s.job.length then .next (s.complete s.res LaneFields.zero) else .refused .noStepScheduled

/-- A move of SEQ: in IDLE it has no step and waits (60_exceptions.md R184; log 7). -/
def State.seqMove (s : State) : Host.Outcome State Fault Refusal :=
  match s.fsm with
  | .idle => .next s
  | .run => s.seqRun

/-- A host write of the window: at 0x0 a command, elsewhere ignored (10_state.md R18, R20, 30_encoding.md R72, R74). -/
def State.windowWrite (s : State) (off : Nat) (w : Word) : Host.Outcome State Fault Refusal :=
  if off = 0x0 then
    match decodeCmd w with
    | .ok i => exec i s
    | .error _ => .next (s.writeCmd w buildReserved)
  else .next s

/-- A move of HOST; an access that is not an aligned 32-bit word is refused (20_memory.md R58). -/
def State.hostMove (s : State) (a : HostAccess) : Host.Outcome State Fault Refusal :=
  match a with
  | .read off bits => if windowOk off bits then .next (s.hostRead off) else .refused .hostAccessNotAlignedWord
  | .write off bits w => if windowOk off bits then s.windowWrite off w else .refused .hostAccessNotAlignedWord

/-- A move of any agent (70_reset_and_hazards.md R216). -/
def State.moveOf (s : State) (m : Move) : Host.Outcome State Fault Refusal :=
  match m with
  | .host a => s.hostMove a
  | .seq => s.seqMove
  | .blockReset => .next s.blockReset

/-- The next move: the first of the agenda, which it leaves, or SEQ's when there is none (log 6). -/
def State.nextMove (s : State) : Host.Outcome State Fault Refusal :=
  match s.agenda with
  | [] => s.seqMove
  | m :: rest => ({ s with agenda := rest }).moveOf m

/-! ## Placing an instruction where the next step finds it -/

/-- The lane and tag a step of a class is given when it stands alone in a job (log 16). -/
def placedLane : DomainClass → Option Lane
  | .pll => none
  | _ => some 0#8

/-- See `placedLane`. -/
def placedTag : DomainClass → Tag
  | .pll => .pll
  | .rst => .usxRst
  | .pcs => .cal .an10g
  | .pextp => .cal .an10g

/-- The state whose next move is HOST's write of `w` to CMD (log 16). -/
def State.placeCommand (s : State) (w : Word) : State := { s with agenda := .host (.write 0x0 32 w) :: s.agenda }

/-- The state whose next move is SEQ's first phase of the one step `w` (log 16). -/
def State.placeStep (s : State) (w : StepWord) : State :=
  { s with
    fsm := .run
    status := { s.status with busy := true, done := false }
    job := [{ word := w, lane := placedLane (DomainClass.ofCode (Step128.dc w)),
              tag := placedTag (DomainClass.ofCode (Step128.dc w)) }]
    spc := 0
    ph := .issue
    agenda := .seq :: s.agenda }

end Sys2Proof.Machine
end

