-- ==== Sys2Proof/Machine/Step.lean ====
section
/-! DEFINITION. One step of the machine: the refusal of an ill-formed configuration (44_calibration.md R143,
60_exceptions.md R183), and else the next move of an agent. -/

namespace Sys2Proof.Machine

/-- One step. -/
def step (s : State) : Host.Outcome State Fault Refusal :=
  if configOk s.cfg then s.nextMove else .refused .illFormedConfig

/-- `s` with an instruction placed where the next step finds it: a command as HOST's pending write to CMD, a step as the
one step of a running job (log 16). -/
def State.withFetchWord (s : State) (nbits w : Nat) : State :=
  match tableFormat nbits w with
  | .cmd32 => s.placeCommand (BitVec.ofNat 32 w)
  | .step128 => s.placeStep (StepWord.ofNat w)

end Sys2Proof.Machine
end

