-- ==== Sys2Proof/Machine/Assembler.lean ====
section
/-! DEFINITION. The assembler lines of 30_encoding.md R83 and R84, as the instructions they stand for. An assembler writes 0
in every field a command ignores (R83). The pseudo-steps SETB, CLRB and FLD of R85 are `StepWord.setb`, `clrb` and `fld`
in Decode.lean, and the instructions `Asm.setb`, `Asm.clrb` and `Asm.fld` here. -/

namespace Sys2Proof

/-- `SETUP_AUTONEG port, speed` (R83). -/
def Asm.setupAutoneg (port : PortId) (speed : Speed) : Instr := .setupAutoneg 0 port speed

/-- `SETUP_FORCED port, ifk` (R83). -/
def Asm.setupForced (port : PortId) (ifk : BitVec 4) : Instr := .setupForced ifk port 0

/-- The interface kind written `5GBASER` (R67, R83). -/
def Asm.ifk5GBaseR : BitVec 4 := 0x1#4

/-- The interface kind written `OTHER` (R83). -/
def Asm.ifkOther : BitVec 4 := 0x0#4

/-- `RESET_LANE port, USX` and `RESET_LANE port, SGMII` (R83). -/
def Asm.resetLane (port : PortId) (mode : ResetMode) : Instr := .resetLane mode 0 port 0

/-- `ENABLE_PLL` (R83). -/
def Asm.enablePll : Instr := .enablePll 0 0 0

/-- `CALIBRATE port, prog` (R83). -/
def Asm.calibrate (port : PortId) (k : Program) : Instr := .calibrate k.toCode 0 port 0

/-- `QUERY_LANE port` (R83). -/
def Asm.queryLane (port : PortId) : Instr := .queryLane 0 port 0

/-- `SETB dc, off, bits` (R85). -/
def Asm.setb (dc : DomainClass) (off bits : Word) : Instr := .rmw dc off bits bits

/-- `CLRB dc, off, bits` (R85). -/
def Asm.clrb (dc : DomainClass) (off bits : Word) : Instr := .rmw dc off bits 0

/-- `FLD dc, off, mask, val` (R85). -/
def Asm.fld (dc : DomainClass) (off mask val : Word) : Instr := .rmw dc off mask val

/-- The unit suffixes of a DLY operand, in nanoseconds (R84). -/
inductive Asm.Unit where
  | ns
  | us
  | ms
  deriving DecidableEq, Repr

/-- The nanoseconds of one unit (R84). -/
def Asm.scale : Asm.Unit → Nat
  | .ns => 1
  | .us => 1000
  | .ms => 1000000

/-- `DLY n<unit>` (R84); a duration that does not fit 32 bits is no DLY step (R79). -/
def Asm.dly (n : Nat) (u : Asm.Unit) : Option Instr :=
  if n * Asm.scale u < 2 ^ 32 then some (.dly (BitVec.ofNat 32 (n * Asm.scale u))) else none

end Sys2Proof
end

