-- ==== Sys2Proof/Safety.lean ====
section
/-! DEFINITION. What counts as a safe run, the invariant of the machine (10_state.md R41), and the words in which the
obligations speak of whole commands: the job a command word builds, the events a job appends, runs of many steps. Nothing
here is used by the machine. -/

namespace Sys2Proof.Safety

open Sys2Proof.Machine

/-! ## Runs -/

/-- No hazard is recorded: the premise of every claim about a run (60_exceptions.md R182). -/
def noHazard (s : State) : Prop := s.faults = HazardSet.empty

/-- The end of a run: IDLE, with nothing pending (70_reset_and_hazards.md R214). -/
def runEnded (s : State) : Prop := s.fsm = .idle ∧ s.agenda = []

/-- `n` steps lead from `s` to `t`. -/
def stepsTo : Nat → State → State → Prop
  | 0, s, t => s = t
  | n + 1, s, t => ∃ u, step s = .next u ∧ stepsTo n u t

/-- The state in which HOST's write of `w` to CMD is the only pending move. -/
def hostWrites (s : State) (w : Word) : State := { s with agenda := [.host (.write 0x0 32 w)] }

/-- The command `w`, written in `s`, runs to its end, which is `t` (45_orchestration.md R175). -/
def completes (s : State) (w : Word) (t : State) : Prop := ∃ n, stepsTo n (hostWrites s w) t ∧ runEnded t

/-- The next pending move is one the host window answers, if it is HOST's (20_memory.md R58). -/
def nextMoveOk (s : State) : Bool :=
  match s.agenda with
  | .host (.read off bits) :: _ => windowOk off bits
  | .host (.write off bits _) :: _ => windowOk off bits
  | _ => true

/-! ## Commands -/

/-- What each command decodes and builds to (45_orchestration.md R155); a step is no command. -/
def buildOf (c : Config) : Instr → Build
  | .setupAutoneg _ p speed => buildSetupAutoneg c p speed
  | .setupForced ifk p _ => buildSetupForced c p ifk
  | .resetLane mode _ p _ => buildResetLane c p mode
  | .enablePll _ _ _ => buildEnablePll c
  | .calibrate prog _ p _ => buildCalibrate c p prog
  | .queryLane _ p _ => buildQueryLane c p
  | .wr _ _ _ => buildReserved
  | .rmw _ _ _ _ => buildReserved
  | .dly _ => buildReserved

/-- `decode_and_build(w)` (45_orchestration.md R153, R155). -/
def decodeAndBuild (c : Config) (w : Word) : Build :=
  match decodeCmd w with
  | .ok i => buildOf c i
  | .error _ => buildReserved

/-- A command, as against a step of the ROM (00_scope.md R3). -/
def isCommand : Instr → Bool
  | .wr _ _ _ => false
  | .rmw _ _ _ _ => false
  | .dly _ => false
  | _ => true

/-- The state after a command word is accepted whose job starts (45_orchestration.md R153, 10_state.md R22, R23). -/
def jobStarted (s : State) (w : Word) (j : List BoundStep) : State :=
  { s with
    cmd := w
    trace := s.trace ++ [.cmd w]
    status := { s.status with busy := true, done := false }
    fsm := .run
    job := j
    spc := 0
    ph := .issue
    res := .ok }

/-- STATUS of a completed command (45_orchestration.md R163). -/
def completedStatus (r : Result) (lane : Lane) (present valid : Bool) : Status :=
  { busy := false, done := true, result := r, laneValid := valid, lanePresent := present, lane := lane }

/-- The state after a command word is accepted that completes at once (45_orchestration.md R153, R163). -/
def completedAtOnce (s : State) (w : Word) (st : Status) : State :=
  { s with
    cmd := w
    trace := s.trace ++ [.cmd w, .done (statusWord st)]
    status := st
    fsm := .idle
    job := []
    spc := 0
    ph := .issue }

/-- The state after a command word is accepted whose result is OK: its job starts, or the command completes at once when
there is nothing to run (45_orchestration.md R153). -/
def startedOrDone (s : State) (w : Word) (j : List BoundStep) : State :=
  if j = [] then completedAtOnce s w (completedStatus .ok 0#8 false false) else jobStarted s w j

/-- The state after a command word is accepted that fails with `r` (45_orchestration.md R153, R167). -/
def failedAtOnce (s : State) (w : Word) (r : Result) : State := completedAtOnce s w (completedStatus r 0#8 false false)

/-! ## The events of a job -/

/-- The n-th value DOMAINS will give from state `s` on (20_memory.md R49): the inputs first, then free values. -/
def oracle (s : State) (n : Nat) : Word :=
  match s.answers[n]? with
  | some v => v
  | none => Config.freeWord (s.draws + (n - s.answers.length))

/-- How many reads a step issues: one for an RMW, none otherwise (20_memory.md R55). -/
def readsOf (b : BoundStep) : Nat :=
  match decodeStep b.word with
  | .ok (.rmw _ _ _ _) => 1
  | _ => 0

/-- The events a bound step appends when its read, if it has one, returns `v` (40_steps.md R89, R91, R92, R95). -/
def stepEvents (v : Word) (b : BoundStep) : List Event :=
  match decodeStep b.word with
  | .ok (.wr dc off val) => (bindClass dc b.lane).toList.map fun dom => .wr dom off val
  | .ok (.rmw dc off mask val) =>
    (bindClass dc b.lane).toList.flatMap fun dom => [.rd dom off v, .wr dom off (mergeMasked v mask val)]
  | .ok (.dly d) => [.dly d]
  | _ => []

/-- The events a job appends, in order, when the reads from the n-th on return `r n`, `r (n + 1)`, … (40_steps.md R88,
20_memory.md R59). -/
def jobEvents (r : Nat → Word) : Nat → List BoundStep → List Event
  | _, [] => []
  | n, b :: rest => stepEvents (r n) b ++ jobEvents r (n + readsOf b) rest

/-- The events that reach the domains, and the delays between them (20_memory.md R48). -/
def isDomainEvent : Event → Bool
  | .rd _ _ _ => true
  | .wr _ _ _ => true
  | .dly _ => true
  | _ => false

/-- The domain events of a trace, in order. -/
def domainEvents (t : List Event) : List Event := t.filter isDomainEvent

/-- An event without the value a domain read returned or an RMW computed from it (40_steps.md R99). -/
def eraseValue : Event → Event
  | .rd dom off _ => .rd dom off 0
  | .wr dom off _ => .wr dom off 0
  | e => e

/-- The events without the values of the reads and of the writes that follow a read at once, which are the writes of RMW
steps (40_steps.md R91, R92, R99); the flag says whether the event before was a read. -/
def eraseRmw : Bool → List Event → List Event
  | _, [] => []
  | _, .rd dom off _ :: l => .rd dom off 0 :: eraseRmw true l
  | true, .wr dom off _ :: l => .wr dom off 0 :: eraseRmw false l
  | _, e :: l => e :: eraseRmw false l

/-- The sum of the durations of the DLY steps of a sequence, in nanoseconds (70_reset_and_hazards.md R212). -/
def delayTotal (l : List StepWord) : Nat := ((l.filterMap dlyOf).map BitVec.toNat).sum

/-! ## The invariant -/

/-- The class of the domain an instruction accesses. -/
def instrClass : Instr → Option DomainClass
  | .wr dc _ _ => some dc
  | .rmw dc _ _ _ => some dc
  | _ => none

/-- A bound step that SEQ can execute: its word is well-formed, and the domain it accesses, if any, exists (40_steps.md
R87, 20_memory.md R47). -/
def runnable (c : Config) (b : BoundStep) : Bool :=
  match decodeStep b.word with
  | .ok i =>
    match instrClass i with
    | some dc => (boundDomain c dc b.lane).isSome
    | none => true
  | .error _ => false

/-- The step at `spc` is an RMW. -/
def atRmw (s : State) : Prop :=
  ∃ b dc off mask val, s.job[s.spc]? = some b ∧ decodeStep b.word = .ok (.rmw dc off mask val)

/-- The step at `spc` is a DLY. -/
def atDly (s : State) : Prop := ∃ b d, s.job[s.spc]? = some b ∧ decodeStep b.word = .ok (.dly d)

/-- What holds in every state a run reaches. -/
structure Inv (s : State) : Prop where
  /-- the configuration is accepted (44_calibration.md R143) -/
  config : configOk s.cfg = true
  /-- `fsm = IDLE` exactly when `job = []` (10_state.md R41) -/
  idle_iff_no_job : s.fsm = .idle ↔ s.job = []
  /-- `STATUS.BUSY = 1` exactly when `fsm = RUN` (10_state.md R22, R41) -/
  busy_iff_run : s.status.busy = true ↔ s.fsm = .run
  /-- DONE is clear while a job runs (10_state.md R23, 45_orchestration.md R173) -/
  not_done_in_run : s.fsm = .run → s.status.done = false
  /-- `0 ≤ spc ≤ len(job)` (10_state.md R27) -/
  spc_le : s.spc ≤ s.job.length
  /-- `spc < len(job)` whenever `ph ≠ ISSUE` (10_state.md R41) -/
  phase_in_job : s.ph ≠ .issue → s.spc < s.job.length
  /-- `ph = RMW_WB` only when the step at `spc` is an RMW (10_state.md R41) -/
  rmwWb_at_rmw : s.ph = .rmwWb → atRmw s
  /-- `ph = WAIT` only when it is a DLY (10_state.md R41) -/
  wait_at_dly : s.ph = .wait → atDly s
  /-- every step of the job is well-formed and reaches only domains that exist (20_memory.md R47, 40_steps.md R87) -/
  steps_run : ∀ b ∈ s.job, runnable s.cfg b = true
  /-- TMR fits its width (10_state.md R29) -/
  tmr_fits : s.tmr ≤ timerLoad s.cfg.tickNs 0xFFFFFFFF#32
  /-- `redrive` has an entry for exactly the lanes that exist (10_state.md R33, R43) -/
  redrive_length : s.redrive.length = s.cfg.laneCount
  /-- `res` is OK (10_state.md R30) -/
  res_ok : s.res = .ok
  /-- LANE_PRESENT only with LANE_VALID (10_state.md R20) -/
  present_valid : s.status.lanePresent = true → s.status.laneValid = true

end Sys2Proof.Safety
end

