-- ==== Sys2Proof/Certificates/Slice0/Obligations.lean ====
section
/-! DEFINITION. The statements for the provers, in the order of OBLIGATIONS.json. A statement quantifies over every
configuration through the state's field `cfg` (log 1); none rests on the configuration of `State.reset` (log 2), on the
value of `rd` at power-up (log 3) or on a value of `Config.freeWord` (log 4), unless its docstring says so. -/

open Sys2Proof Sys2Proof.Machine Sys2Proof.Safety

/-! ## Encoding -/

/-- Words written out from spec/95_test_vectors.md section 2 decode to the instructions, or are the ill-formed step words, that
it gives; the reserved opcode 0x00000007 is TV-K2 of its section 8 (30_encoding.md R72). That the constructors keep the bits
a command ignores (log 13), that a reserved opcode is a rejection of the decoder (log 14), and the rejections' names are the
model's choices. -/
def Obligations.WrittenWordsDecode : Prop :=
  decodeCmd 0x27100101 = .ok (.setupAutoneg 0 1 10000) ∧
  decodeCmd 0x138800F1 = .ok (.setupAutoneg 0xF 0 5000) ∧
  decodeCmd 0x000002F2 = .ok (.setupForced 0xF 2 0) ∧
  decodeCmd 0x00000233 = .ok (.resetLane .sgmii 1 2 0) ∧
  decodeCmd 0xFFFFFF04 = .ok (.enablePll 0 0xFF 0xFFFF) ∧
  decodeCmd 0x00000245 = .ok (.calibrate 4 0 2 0) ∧
  decodeCmd 0x00FF0006 = .ok (.queryLane 0 0 0x00FF) ∧
  decodeCmd 0x00000007 = .error (.reservedOp 7) ∧
  decodeStep { w0 := 0x00000008, w1 := 0x10, w2 := 0xA5A50001, w3 := 0 } = .ok (.wr .pll 0x10 0xA5A50001) ∧
  decodeStep { w0 := 0x0000000D, w1 := 0x0C, w2 := 0x8800000C, w3 := 0xFF00000C } =
    .ok (.rmw .rst 0x0C 0xFF00000C 0x8800000C) ∧
  decodeStep { w0 := 0x00000002, w1 := 0x000249F0, w2 := 0, w3 := 0 } = .ok (.dly 150000) ∧
  decodeStep { w0 := 0x00000003, w1 := 0, w2 := 0, w3 := 0 } = .error .reservedKind ∧
  decodeStep { w0 := 0x00000006, w1 := 0x64, w2 := 0, w3 := 0 } = .error .unusedField ∧
  decodeStep { w0 := 0x00000010, w1 := 0, w2 := 0, w3 := 0 } = .error .reservedBits ∧
  decodeStep { w0 := 0x00000008, w1 := 0x12, w2 := 1, w3 := 0 } = .error .misalignedOffset

/-- Decoding an encoded well-formed instruction gives it back, with every operand (30_encoding.md R65 to R79); ignored fields
included, which the constructors keep by the model's choice (log 13). -/
def Obligations.DecodeOfEncodeIsTheInstruction : Prop :=
  ∀ i : Instr, i.wf = true → decodeWords (encode i) = .ok i

/-- Encoding a decoded instruction gives back the words it was decoded from, and it is well-formed: no bit of a word is
dropped, so two words never decode to one instruction (30_encoding.md R65 to R82). Of command words this holds because the
constructors keep the bits a command ignores, the model's choice (log 13); R82 says it of step words. -/
def Obligations.EncodeOfDecodeIsTheWords : Prop :=
  ∀ (ws : List Word) (i : Instr), decodeWords ws = .ok i → encode i = ws ∧ i.wf = true

/-- 30_encoding.md R74 (with R66, R72): a command word is one of the six commands, or a reserved opcode. That the command's
encoding is the word again, ignored bits included (log 13), and that a reserved opcode is a rejection of the decoder
(log 14) are the model's choices. -/
def Obligations.EveryCommandWordIsACommandOrReserved : Prop :=
  ∀ w : Word,
    (1 ≤ (w.extractLsb' 0 4).toNat ∧ (w.extractLsb' 0 4).toNat ≤ 6 ∧
      ∃ i, decodeCmd w = .ok i ∧ isCommand i = true ∧ encode i = [w]) ∨
    (((w.extractLsb' 0 4).toNat = 0 ∨ 7 ≤ (w.extractLsb' 0 4).toNat) ∧
      decodeCmd w = .error (.reservedOp (w.extractLsb' 0 4)))

/-- 30_encoding.md R77 to R80, R82: the step decoder accepts exactly the well-formed words; KIND names the instruction and DC
its domain class, code by code; and the mapping back is injective. -/
def Obligations.StepDecoderAcceptsExactlyTheWellFormedWords : Prop :=
  (∀ w : StepWord,
    ((w.w0.extractLsb' 4 28 = 0#28 ∧
      ((w.w0.extractLsb' 0 2 = 0#2 ∧ w.w3 = 0#32 ∧ w.w1.toNat % 4 = 0) ∨
       (w.w0.extractLsb' 0 2 = 1#2 ∧ w.w1.toNat % 4 = 0) ∨
       (w.w0.extractLsb' 0 2 = 2#2 ∧ w.w0.extractLsb' 2 2 = 0#2 ∧ w.w2 = 0#32 ∧ w.w3 = 0#32))) ↔
      ∃ i, decodeStep w = .ok i) ∧
    (∀ i, decodeStep w = .ok i →
      (w.w0.extractLsb' 0 2 = 0b00#2 ∧ ∃ dc, i = .wr dc w.w1 w.w2) ∨
      (w.w0.extractLsb' 0 2 = 0b01#2 ∧ ∃ dc, i = .rmw dc w.w1 w.w3 w.w2) ∨
      (w.w0.extractLsb' 0 2 = 0b10#2 ∧ i = .dly w.w1)) ∧
    (∀ dc off mask val, (decodeStep w = .ok (.wr dc off val) ∨ decodeStep w = .ok (.rmw dc off mask val)) →
      (w.w0.extractLsb' 2 2 = 0b00#2 ∧ dc = .pcs) ∨ (w.w0.extractLsb' 2 2 = 0b01#2 ∧ dc = .pextp) ∨
      (w.w0.extractLsb' 2 2 = 0b10#2 ∧ dc = .pll) ∨ (w.w0.extractLsb' 2 2 = 0b11#2 ∧ dc = .rst))) ∧
  (∀ (v w : StepWord) (i : Instr), decodeStep v = .ok i → decodeStep w = .ok i → v = w)

/-! ## Configuration and power-up -/

/-- 10_state.md R38, the power-up column, for the block of any configuration. `RD`, which the spec leaves unspecified, is not
in it. -/
def Obligations.PowerUpValues : Prop :=
  ∀ c : Config,
    (State.powerUp c).cfg = c ∧ (State.powerUp c).cmd = 0x00000000#32 ∧
    statusWord (State.powerUp c).status = 0x00000000#32 ∧ (State.powerUp c).fsm = .idle ∧ (State.powerUp c).job = [] ∧
    (State.powerUp c).spc = 0 ∧ (State.powerUp c).ph = .issue ∧ (State.powerUp c).tmr = 0 ∧
    (State.powerUp c).res = .ok ∧ (State.powerUp c).pllDone = false ∧
    (State.powerUp c).redrive = List.replicate c.laneCount .dirty ∧
    (∀ h, (State.powerUp c).faults.mem h = false) ∧ (State.powerUp c).trace = []

/-- 44_calibration.md R143, 60_exceptions.md R183: no state of an ill-formed configuration has a step; and a configuration
is ill-formed when any one of the checks fails. -/
def Obligations.IllFormedConfigurationHasNoStep : Prop :=
  ∀ s : State,
    (paramsOk s.cfg = false ∨ checkW1 s.cfg = false ∨ checkW2 s.cfg = false ∨ checkW3 s.cfg = false ∨
      checkW4 s.cfg = false ∨ checkW5 s.cfg = false ∨ checkW6 s.cfg = false ∨ checkW7 s.cfg = false ∨
      checkW8 s.cfg = false ∨ checkW9 s.cfg = false ∨ checkW10 s.cfg = false ∨ checkW11 s.cfg = false ∨
      checkW12 s.cfg = false) →
    step s = .refused .illFormedConfig

/-! ## A step runs the decoded instruction -/

/-- SEQ fetches, decodes and runs the step at `spc`: in RUN, with nothing pending or SEQ's move next, `step` is `exec` of the
instruction the step word decodes to, at the state without that move (40_steps.md R88, 45_orchestration.md R174). The
agenda is the model's (log 6). -/
def Obligations.StepRunsTheStepAtSpc : Prop :=
  ∀ (s : State) (rest : List Move) (b : BoundStep) (i : Instr),
    configOk s.cfg = true → (s.agenda = .seq :: rest ∨ (s.agenda = [] ∧ rest = [])) → s.fsm = .run →
    s.job[s.spc]? = some b → decodeStep b.word = .ok i →
    step s = exec i { s with agenda := rest }

/-- HOST's write of a command word to CMD is `exec` of the command it decodes to, at the state without that move
(10_state.md R19, 45_orchestration.md R153 to R155). The agenda is the model's (log 6). -/
def Obligations.StepRunsTheCommandWritten : Prop :=
  ∀ (s : State) (rest : List Move) (w : Word) (i : Instr),
    configOk s.cfg = true → s.agenda = .host (.write 0x0 32 w) :: rest → decodeCmd w = .ok i →
    step s = exec i { s with agenda := rest }

/-- 30_encoding.md R72, 45_orchestration.md R155: a reserved opcode, written in IDLE, is accepted and completes at once with
INVALID_ARGUMENT, STATUS = 0x00000006; no job, no access, BUSY never set, and nothing else changes. -/
def Obligations.ReservedOpcodeCompletesWithInvalidArgument : Prop :=
  ∀ (s : State) (rest : List Move) (w : Word),
    configOk s.cfg = true → s.agenda = .host (.write 0x0 32 w) :: rest → s.fsm = .idle →
    ((w.extractLsb' 0 4).toNat = 0 ∨ 7 ≤ (w.extractLsb' 0 4).toNat) →
    step s = .next (failedAtOnce { s with agenda := rest } w .invalidArgument) ∧
    statusWord (failedAtOnce { s with agenda := rest } w .invalidArgument).status = 0x00000006#32

/-- 45_orchestration.md R154: a write of any word to CMD while a job runs is ignored and HZ_BUSY is recorded; nothing else
changes. -/
def Obligations.CommandWhileRunningIsIgnored : Prop :=
  ∀ (s : State) (rest : List Move) (w : Word),
    configOk s.cfg = true → s.agenda = .host (.write 0x0 32 w) :: rest → s.fsm = .run →
    step s = .next { s with agenda := rest, faults := { s.faults with busy := true } }

/-- 10_state.md R18, 20_memory.md R58: the host window. A read of CMD or STATUS returns it, of another aligned word 0, and
changes nothing of the block; a write anywhere but CMD is ignored; any other access is refused. Where a read's value goes
(`hostSeen`) is the model's choice (log 8). -/
def Obligations.HostWindow : Prop :=
  ∀ (s : State) (rest : List Move) (off bits : Nat) (w : Word), configOk s.cfg = true →
    (s.agenda = .host (.read 0x0 32) :: rest →
      step s = .next { s with agenda := rest, hostSeen := s.hostSeen ++ [s.cmd] }) ∧
    (s.agenda = .host (.read 0x4 32) :: rest →
      step s = .next { s with agenda := rest, hostSeen := s.hostSeen ++ [statusWord s.status] }) ∧
    (s.agenda = .host (.read off 32) :: rest → off % 4 = 0 → off ≠ 0x0 → off ≠ 0x4 →
      step s = .next { s with agenda := rest, hostSeen := s.hostSeen ++ [0#32] }) ∧
    (s.agenda = .host (.write off 32 w) :: rest → off % 4 = 0 → off ≠ 0x0 →
      step s = .next { s with agenda := rest }) ∧
    (s.agenda = .host (.read off bits) :: rest → (bits ≠ 32 ∨ off % 4 ≠ 0) →
      step s = .refused .hostAccessNotAlignedWord) ∧
    (s.agenda = .host (.write off bits w) :: rest → (bits ≠ 32 ∨ off % 4 ≠ 0) →
      step s = .refused .hostAccessNotAlignedWord)

/-- 10_state.md R20, R21: where the fields of STATUS lie; the reserved bits read 0, and RESULT is never 0b11. -/
def Obligations.StatusWordLayout : Prop :=
  ∀ st : Status,
    (statusWord st).getLsbD 0 = st.busy ∧ (statusWord st).getLsbD 1 = st.done ∧
    (statusWord st).extractLsb' 2 2 =
      (match st.result with
        | .ok => 0b00#2
        | .invalidArgument => 0b01#2
        | .notConfigured => 0b10#2) ∧
    (statusWord st).extractLsb' 2 2 ≠ 0b11#2 ∧
    (statusWord st).getLsbD 4 = st.laneValid ∧ (statusWord st).getLsbD 5 = st.lanePresent ∧
    (statusWord st).extractLsb' 6 2 = 0#2 ∧ (statusWord st).extractLsb' 8 8 = st.lane ∧
    (statusWord st).extractLsb' 16 16 = 0#16

/-! ## The commands -/

/-- 45_orchestration.md R156: SETUP_AUTONEG in IDLE. `jobStarted`, `completedAtOnce` and the rest say what acceptance leaves
(R153), every other field unchanged. -/
def Obligations.SetupAutonegAccepted : Prop :=
  ∀ (s : State) (sub : BitVec 4) (p : PortId) (speed : Speed), s.fsm = .idle →
    exec (.setupAutoneg sub p speed) s =
      .next
        (if s.cfg.portCount ≤ p.toNat ∨ ¬(speed.toNat = 5000 ∨ speed.toNat = 10000) then
          failedAtOnce s (speed ++ p ++ sub ++ 0x1#4) .invalidArgument
        else
          startedOrDone s (speed ++ p ++ sub ++ 0x1#4) (pllJob s.cfg ++ usxJob s.cfg p ++ calJob s.cfg .an10g p))

/-- 45_orchestration.md R157: the speed is validated (any other than the two valid ones fails); an accepted SETUP_AUTONEG
runs the autonegotiated-10G path for either valid speed, and its job is a function of the port and the configuration only. -/
def Obligations.SetupAutonegIgnoresWhichValidSpeed : Prop :=
  (∀ (s : State) (sub : BitVec 4) (p : PortId) (speed : Speed), s.fsm = .idle → speed ≠ 5000#16 → speed ≠ 10000#16 →
    exec (.setupAutoneg sub p speed) s =
      .next (failedAtOnce s (speed ++ p ++ sub ++ 0x1#4) .invalidArgument)) ∧
  (∀ (s : State) (sub : BitVec 4) (p : PortId) (speed : Speed), s.fsm = .idle → p.toNat < s.cfg.portCount →
    (speed = 5000#16 ∨ speed = 10000#16) →
    ∃ t, exec (.setupAutoneg sub p speed) s = .next t ∧
      t.job = pllJob s.cfg ++ usxJob s.cfg p ++ calJob s.cfg .an10g p) ∧
  (∀ (s s' t t' : State) (sub sub' : BitVec 4) (p : PortId) (speed speed' : Speed), s.fsm = .idle → s'.fsm = .idle →
    s.cfg = s'.cfg → (speed = 5000#16 ∨ speed = 10000#16) → (speed' = 5000#16 ∨ speed' = 10000#16) →
    exec (.setupAutoneg sub p speed) s = .next t → exec (.setupAutoneg sub' p speed') s' = .next t' → t.job = t'.job)

/-- 45_orchestration.md R158: SETUP_FORCED in IDLE; IFK 0x1 selects F5G, every other value F10G. -/
def Obligations.SetupForcedAccepted : Prop :=
  ∀ (s : State) (ifk : BitVec 4) (p : PortId) (speed : Speed), s.fsm = .idle →
    exec (.setupForced ifk p speed) s =
      .next
        (if s.cfg.portCount ≤ p.toNat then failedAtOnce s (speed ++ p ++ ifk ++ 0x2#4) .invalidArgument
        else
          startedOrDone s (speed ++ p ++ ifk ++ 0x2#4)
            (pllJob s.cfg ++ usxJob s.cfg p ++ calJob s.cfg (if ifk = 0x1#4 then .f5g else .f10g) p))

/-- 45_orchestration.md R159: RESET_LANE in IDLE. -/
def Obligations.ResetLaneAccepted : Prop :=
  ∀ (s : State) (subHi : BitVec 3) (p : PortId) (speed : Speed), s.fsm = .idle →
    exec (.resetLane .usx subHi p speed) s =
      .next (startedOrDone s (speed ++ p ++ (subHi ++ 0#1) ++ 0x3#4) (usxJob s.cfg p)) ∧
    exec (.resetLane .sgmii subHi p speed) s =
      .next (startedOrDone s (speed ++ p ++ (subHi ++ 1#1) ++ 0x3#4) (sgmJob s.cfg p))

/-- 45_orchestration.md R160: ENABLE_PLL in IDLE. -/
def Obligations.EnablePllAccepted : Prop :=
  ∀ (s : State) (sub : BitVec 4) (p : PortId) (speed : Speed), s.fsm = .idle →
    exec (.enablePll sub p speed) s =
      .next
        (if s.cfg.hasPll = true then startedOrDone s (speed ++ p ++ sub ++ 0x4#4) (pllJob s.cfg)
        else failedAtOnce s (speed ++ p ++ sub ++ 0x4#4) .notConfigured)

/-- 45_orchestration.md R161, 30_encoding.md R69, R73: CALIBRATE in IDLE, for each of the eight program codes. -/
def Obligations.CalibrateAccepted : Prop :=
  ∀ (s : State) (prog : BitVec 3) (subHi : BitVec 1) (p : PortId) (speed : Speed), s.fsm = .idle →
    (5 ≤ prog.toNat →
      exec (.calibrate prog subHi p speed) s =
        .next (failedAtOnce s (speed ++ p ++ (subHi ++ prog) ++ 0x5#4) .invalidArgument)) ∧
    (∀ k : Program,
      (prog.toNat = 0 ∧ k = .an10g ∨ prog.toNat = 1 ∧ k = .f5g ∨ prog.toNat = 2 ∧ k = .f10g ∨
        prog.toNat = 3 ∧ k = .g1 ∨ prog.toNat = 4 ∧ k = .g2) →
      exec (.calibrate prog subHi p speed) s =
        .next (startedOrDone s (speed ++ p ++ (subHi ++ prog) ++ 0x5#4) (calJob s.cfg k p)))

/-- 45_orchestration.md R162: QUERY_LANE in IDLE completes at once with the lane fields the resolver gives. -/
def Obligations.QueryLaneAccepted : Prop :=
  ∀ (s : State) (sub : BitVec 4) (p : PortId) (speed : Speed), s.fsm = .idle →
    exec (.queryLane sub p speed) s =
      .next
        (match resolve s.cfg.mapMode p with
          | some l =>
            completedAtOnce s (speed ++ p ++ sub ++ 0x6#4)
              (completedStatus .ok l (decide (l.toNat < s.cfg.laneCount)) true)
          | none => completedAtOnce s (speed ++ p ++ sub ++ 0x6#4) (completedStatus .ok 0#8 false false))

/-- 45_orchestration.md R167: a command word that fails, with INVALID_ARGUMENT or NOT_CONFIGURED, changes CMD and STATUS and
appends the two events `Cmd(w)` and `Done(s)`; everything else, `pll_done`, `redrive` and `faults` among it, is as it was. -/
def Obligations.FailedCommandHasNoSideEffect : Prop :=
  ∀ (s : State) (rest : List Move) (w : Word),
    Inv s → s.fsm = .idle → s.agenda = .host (.write 0x0 32 w) :: rest → (decodeAndBuild s.cfg w).result ≠ .ok →
    step s =
      .next
        { s with
          agenda := rest
          cmd := w
          status := completedStatus (decodeAndBuild s.cfg w).result 0#8 false false
          trace :=
            s.trace ++
              [.cmd w, .done (statusWord (completedStatus (decodeAndBuild s.cfg w).result 0#8 false false))] }

/-- 45_orchestration.md R163, R174, 60_exceptions.md R184: SEQ where no step stands. In RUN, when every step of the job has
run, it completes the command: STATUS shows DONE and `res` with zero lane fields, and no access is issued. In IDLE it has no
step and waits: the model's step then answers the same state (log 7). -/
def Obligations.SequencerCompletesTheCommandOrWaits : Prop :=
  ∀ (s : State) (rest : List Move),
    configOk s.cfg = true → (s.agenda = .seq :: rest ∨ (s.agenda = [] ∧ rest = [])) →
    (s.fsm = .run → s.spc = s.job.length →
      step s =
        .next
          { s with
            agenda := rest
            status := completedStatus s.res 0#8 false false
            fsm := .idle
            job := []
            spc := 0
            ph := .issue
            trace := s.trace ++ [.done (statusWord (completedStatus s.res 0#8 false false))] }) ∧
    (s.fsm = .idle → step s = .next { s with agenda := rest })

/-- 45_orchestration.md R173: while a job runs STATUS reads BUSY = 1, DONE = 0, and RESULT and the lane fields of the
command completed before: the command that starts the job leaves them, and every step of the job keeps STATUS. -/
def Obligations.StatusWhileAJobRuns : Prop :=
  (∀ (s t : State) (i : Instr), s.fsm = .idle → exec i s = .next t → t.fsm = .run →
    (statusWord t.status).extractLsb' 0 2 = 0b01#2 ∧
    (statusWord t.status).extractLsb' 2 30 = (statusWord s.status).extractLsb' 2 30) ∧
  (∀ (s t : State) (i : Instr), isCommand i = false → exec i s = .next t → t.status = s.status ∧ t.fsm = .run)

/-- 45_orchestration.md R164, 44_calibration.md R148 (with 42_pll.md R107, 43_reset.md R114, 44_calibration.md R129): the job
builders, each behind its own gate. -/
def Obligations.JobBuildersFollowTheirGates : Prop :=
  ∀ (c : Config) (p : PortId),
    (c.hasPll = true → pllJob c = c.rom.pll.map fun w => { word := w, lane := none, tag := .pll }) ∧
    (c.hasPll = false → pllJob c = []) ∧
    (∀ l, resolve c.mapMode p = some l → l.toNat < c.laneCount → c.hasRst = true →
      (p = 1#8 →
        usxJob c p = (c.rom.usx1.map fun w => { word := w, lane := some l, tag := .usxRst }) ∧
        sgmJob c p = (c.rom.sgm1.map fun w => { word := w, lane := some l, tag := .sgmRst })) ∧
      (p = 2#8 →
        usxJob c p = (c.rom.usx2.map fun w => { word := w, lane := some l, tag := .usxRst }) ∧
        sgmJob c p = (c.rom.sgm2.map fun w => { word := w, lane := some l, tag := .sgmRst }))) ∧
    ((¬∃ l, resolve c.mapMode p = some l ∧ l.toNat < c.laneCount) ∨ c.hasRst = false ∨ (p ≠ 1#8 ∧ p ≠ 2#8) →
      usxJob c p = [] ∧ sgmJob c p = []) ∧
    (∀ k l, resolve c.mapMode p = some l → l.toNat < c.laneCount → c.hasPcs[l.toNat]? = some true →
      c.hasPextp[l.toNat]? = some true →
      calJob c k p = (c.rom.prog.get k).map fun w => { word := w, lane := some l, tag := .cal k }) ∧
    ((¬∃ l, resolve c.mapMode p = some l ∧ l.toNat < c.laneCount ∧ c.hasPcs[l.toNat]? = some true ∧
        c.hasPextp[l.toNat]? = some true) →
      ∀ k, calJob c k p = [])

/-! ## The lane resolver -/

/-- 41_lane_resolver.md R101, R102, R103, R106: the two mappings and the bound check, for every port and lane count. -/
def Obligations.ResolverAndBoundCheck : Prop :=
  (∀ p : PortId,
    resolve .identity p = some p ∧
    (p.toNat = 0 → resolve .reduced p = some 1#8) ∧ (p.toNat = 1 → resolve .reduced p = some 1#8) ∧
    (p.toNat = 2 → resolve .reduced p = some 0#8) ∧ (3 ≤ p.toNat → resolve .reduced p = none)) ∧
  (∀ (c : Config) (p : PortId),
    (laneOk c p = true ↔ ∃ l, resolve c.mapMode p = some l ∧ l.toNat < c.laneCount) ∧
    (laneOk c p = true → laneOf c p = resolve c.mapMode p) ∧
    (c.mapMode = .identity → (laneOk c p = true ↔ p.toNat < c.laneCount) ∧ (laneOk c p = true → laneOf c p = some p)) ∧
    (c.mapMode = .reduced → c.laneCount = 1 → (laneOk c p = true ↔ p = 2#8) ∧ (p = 2#8 → laneOf c p = some 0#8)) ∧
    (c.mapMode = .reduced → c.laneCount = 0 → laneOk c p = false))

/-- 43_reset.md R128: under the reduced mapping with two lanes, a setup of port 0 calibrates lane 1 with no reset. -/
def Obligations.ReducedPortZeroHasNoReset : Prop :=
  ∀ (c : Config) (k : Program), c.mapMode = .reduced → 2 ≤ c.laneCount →
    laneOf c 0#8 = some 1#8 ∧ usxJob c 0#8 = [] ∧ sgmJob c 0#8 = [] ∧ setupJob c k 0#8 = pllJob c ++ calJob c k 0#8 ∧
    ∀ b ∈ calJob c k 0#8, b.lane = some 1#8

/-! ## The steps -/

/-- 40_steps.md R89, R90: WR issues one write of `val`, whatever RD and the trace before it hold, and completes. Its ghost
updates are stated below; every other field is unchanged. -/
def Obligations.WrIssuesOneWrite : Prop :=
  ∀ (s : State) (b : BoundStep) (dc : DomainClass) (off val : Word) (dom : Domain),
    s.fsm = .run → s.job[s.spc]? = some b → s.ph = .issue → bindClass dc b.lane = some dom →
    domainExists s.cfg dom = true →
    ∃ f pd rv,
      exec (.wr dc off val) s =
        .next
          { s with
            trace := s.trace ++ [.wr dom off val]
            spc := s.spc + 1
            ph := .issue
            faults := f
            pllDone := pd
            redrive := rv }

/-- 40_steps.md R91: the read phase of RMW. RD takes the value DOMAINS gives: the next of `answers`, and a free value, about
which nothing is said, when there is none (20_memory.md R49). -/
def Obligations.RmwReadPhase : Prop :=
  ∀ (s : State) (b : BoundStep) (dc : DomainClass) (off mask val : Word) (dom : Domain),
    s.fsm = .run → s.job[s.spc]? = some b → s.ph = .issue → bindClass dc b.lane = some dom →
    domainExists s.cfg dom = true →
    ∃ f v n,
      exec (.rmw dc off mask val) s =
        .next
          { s with
            trace := s.trace ++ [.rd dom off v]
            rd := v
            ph := .rmwWb
            faults := f
            draws := n
            answers := s.answers.tail } ∧
      (∀ a rest, s.answers = a :: rest → v = a ∧ n = s.draws)

/-- 40_steps.md R92, R93: the write phase of RMW writes `(RD & ~mask) | (val & mask)`, always, and completes the step. -/
def Obligations.RmwWritePhase : Prop :=
  ∀ (s : State) (b : BoundStep) (dc : DomainClass) (off mask val : Word) (dom : Domain),
    s.fsm = .run → s.job[s.spc]? = some b → s.ph = .rmwWb → bindClass dc b.lane = some dom →
    domainExists s.cfg dom = true →
    ∃ pd rv,
      exec (.rmw dc off mask val) s =
        .next
          { s with
            trace := s.trace ++ [.wr dom off ((s.rd &&& ~~~mask) ||| (val &&& mask))]
            spc := s.spc + 1
            ph := .issue
            pllDone := pd
            redrive := rv }

/-- 40_steps.md R92, R93, R98, 30_encoding.md R85: bits outside the mask keep the value read, bits inside take those of
`val`; the corner masks; the pseudo-steps are RMW words, and what SETB and CLRB write. -/
def Obligations.RmwMergeAndPseudoSteps : Prop :=
  (∀ rd mask val : Word,
    (∀ i < 32, (mergeMasked rd mask val).getLsbD i = if mask.getLsbD i then val.getLsbD i else rd.getLsbD i) ∧
    mergeMasked rd 0#32 val = rd ∧ mergeMasked rd 0xFFFFFFFF#32 val = val ∧
    mergeMasked rd mask val = mergeMasked rd mask (val &&& mask) ∧
    mergeMasked rd mask mask = rd ||| mask ∧ mergeMasked rd mask 0#32 = rd &&& ~~~mask) ∧
  (∀ (dc : DomainClass) (off mask val : Word), off.toNat % 4 = 0 →
    decodeStep (StepWord.setb dc off mask) = .ok (.rmw dc off mask mask) ∧
    decodeStep (StepWord.clrb dc off mask) = .ok (.rmw dc off mask 0#32) ∧
    decodeStep (StepWord.fld dc off mask val) = .ok (.rmw dc off mask val))

/-- 40_steps.md R95, R96, R97, R217 (b), (c): DLY loads TMR with `ceil(d / TICK_NS)` (the least number of ticks that last
at least `d`), waits while it counts down, one tick a move, and completes at the tick at which it is 0; a delay of no ticks
completes at once (log 9). Every other field is unchanged, but for the ghost updates stated below. -/
def Obligations.DlyWaitsItsTicks : Prop :=
  ∀ (s : State) (b : BoundStep) (d : Word), s.fsm = .run → s.job[s.spc]? = some b → 1 ≤ s.cfg.tickNs →
    (s.ph = .issue → d = 0#32 →
      ∃ f pd rv,
        exec (.dly d) s =
          .next
            { s with
              trace := s.trace ++ [.dly d], spc := s.spc + 1, ph := .issue, tmr := 0, faults := f, pllDone := pd,
              redrive := rv }) ∧
    (s.ph = .issue → d ≠ 0#32 →
      ∃ f n, d.toNat ≤ n * s.cfg.tickNs ∧ n * s.cfg.tickNs < d.toNat + s.cfg.tickNs ∧
        exec (.dly d) s = .next { s with tmr := n, ph := .wait, faults := f }) ∧
    (s.ph = .wait → 0 < s.tmr → exec (.dly d) s = .next { s with tmr := s.tmr - 1 }) ∧
    (s.ph = .wait → s.tmr = 0 →
      ∃ pd rv,
        exec (.dly d) s =
          .next { s with trace := s.trace ++ [.dly d], spc := s.spc + 1, ph := .issue, pllDone := pd, redrive := rv })

/-- Situations in which the model stops a step instruction, and under which name: the model's own stops, which `Inv` rules
out (log 11, log 12; 40_steps.md R88, 20_memory.md R47, 10_state.md R41). -/
def Obligations.StepInstructionsStopByName : Prop :=
  ∀ (s : State) (dc : DomainClass) (off mask val d : Word),
    (s.fsm = .idle ∨ s.job.length ≤ s.spc →
      exec (.wr dc off val) s = .refused .noStepScheduled ∧ exec (.rmw dc off mask val) s = .refused .noStepScheduled ∧
      exec (.dly d) s = .refused .noStepScheduled) ∧
    (∀ b, s.fsm = .run → s.job[s.spc]? = some b →
      (s.ph ≠ .issue → exec (.wr dc off val) s = .refused .phaseMismatch) ∧
      (s.ph = .wait → exec (.rmw dc off mask val) s = .refused .phaseMismatch) ∧
      (s.ph = .rmwWb → exec (.dly d) s = .refused .phaseMismatch) ∧
      (boundDomain s.cfg dc b.lane = none →
        (s.ph = .issue → exec (.wr dc off val) s = .fault .absentDomain) ∧
        (s.ph ≠ .wait → exec (.rmw dc off mask val) s = .fault .absentDomain)))

/-! ## Ghost updates of the steps -/

/-- 44_calibration.md R145: the first step of a calibration part, started while `pll_done` is false, records
HZ_CAL_NO_PLL; no other start of a step, and no later phase of one, records anything. That a part is the steps of one tag
is the model's reading (log 19). -/
def Obligations.OnlyCalibrationWithoutPllRaises : Prop :=
  ∀ (s t : State) (b : BoundStep) (i : Instr), s.fsm = .run → s.job[s.spc]? = some b → isCommand i = false →
    exec i s = .next t →
    (s.ph = .issue → (∃ k, b.tag = .cal k) → s.pllDone = false → (∀ x ∈ s.job.take s.spc, x.tag ≠ b.tag) →
      t.faults = { s.faults with calNoPll := true }) ∧
    ((s.ph ≠ .issue ∨ (∀ k, b.tag ≠ .cal k) ∨ s.pllDone = true ∨ ∃ x ∈ s.job.take s.spc, x.tag = b.tag) →
      t.faults = s.faults)

/-- 42_pll.md R112: the completion of the last step of the PLL part, one that no later step of its tag follows (log 19), sets
`pll_done`. -/
def Obligations.PllPartCompletionSetsPllDone : Prop :=
  ∀ (s t : State) (b : BoundStep) (i : Instr), s.fsm = .run → s.job[s.spc]? = some b → isCommand i = false →
    exec i s = .next t → t.spc = s.spc + 1 → b.tag = .pll → (∀ x ∈ s.job.drop (s.spc + 1), x.tag ≠ .pll) →
    t.pllDone = true ∧ t.redrive = s.redrive

/-- 43_reset.md R126: the completion of the last step of a reset part on lane `l` leaves `redrive(l)` RST_SEEN when
`pll_done`, DIRTY otherwise, and no other lane changed; a reset that is a no-op changes nothing. That the last step of a part
is one that no later step of its tag follows is the model's reading (log 19). -/
def Obligations.ResetPartCompletionSetsRedrive : Prop :=
  (∀ (s t : State) (b : BoundStep) (i : Instr) (l : Lane), s.fsm = .run → s.job[s.spc]? = some b → isCommand i = false →
    exec i s = .next t → t.spc = s.spc + 1 → (b.tag = .usxRst ∨ b.tag = .sgmRst) → b.lane = some l →
    l.toNat < s.redrive.length → (∀ x ∈ s.job.drop (s.spc + 1), x.tag ≠ b.tag) →
    t.redriveOf l = (if s.pllDone = true then .rstSeen else .dirty) ∧ t.pllDone = s.pllDone ∧
    ∀ m, m ≠ l → t.redriveOf m = s.redriveOf m) ∧
  (∀ (s t : State) (mode : ResetMode) (x : BitVec 3) (p : PortId) (y : Speed), s.fsm = .idle →
    exec (.resetLane mode x p y) s = .next t → t.redrive = s.redrive ∧ t.pllDone = s.pllDone)

/-- 44_calibration.md R146: the completion of the last step of a calibration part on lane `l` leaves `redrive(l)` CLEAN when
`pll_done` and it was RST_SEEN or CLEAN, DIRTY otherwise, and no other lane changed. That the last step of a part is one that
no later step of its tag follows is the model's reading (log 19). -/
def Obligations.CalibrationPartCompletionSetsRedrive : Prop :=
  ∀ (s t : State) (b : BoundStep) (i : Instr) (k : Program) (l : Lane), s.fsm = .run → s.job[s.spc]? = some b →
    isCommand i = false → exec i s = .next t → t.spc = s.spc + 1 → b.tag = .cal k → b.lane = some l →
    l.toNat < s.redrive.length → (∀ x ∈ s.job.drop (s.spc + 1), x.tag ≠ b.tag) →
    t.redriveOf l =
      (if s.pllDone = true ∧ (s.redriveOf l = .rstSeen ∨ s.redriveOf l = .clean) then .clean else .dirty) ∧
    t.pllDone = s.pllDone ∧ ∀ m, m ≠ l → t.redriveOf m = s.redriveOf m

/-- A step phase that is not the completion of the last step of its part leaves `pll_done` and `redrive` unchanged
(10_state.md R32, R33). That the last step of a part is one that no later step of its tag follows is the model's reading
(log 19). -/
def Obligations.UnfinishedPartLeavesPllDoneAndRedrive : Prop :=
  ∀ (s t : State) (b : BoundStep) (i : Instr), s.fsm = .run → s.job[s.spc]? = some b → isCommand i = false →
    exec i s = .next t → (t.spc = s.spc ∨ ∃ x ∈ s.job.drop (s.spc + 1), x.tag = b.tag) →
    t.pllDone = s.pllDone ∧ t.redrive = s.redrive

/-! ## Block reset -/

/-- 70_reset_and_hazards.md R198, R201: block reset, in any state, clears the hardware state, issues no domain access,
appends `Rst`, and leaves `faults` and what is HOST's and DOMAINS' alone. RD takes a free value, about which nothing is
said. -/
def Obligations.BlockResetClearsTheHardwareState : Prop :=
  ∀ (s : State) (rest : List Move), configOk s.cfg = true → s.agenda = .blockReset :: rest →
    ∃ rd pd rv,
      step s =
        .next
          { s with
            agenda := rest
            cmd := 0#32
            status :=
              { busy := false, done := false, result := .ok, laneValid := false, lanePresent := false, lane := 0#8 }
            fsm := .idle
            job := []
            spc := 0
            ph := .issue
            tmr := 0
            res := .ok
            rd := rd
            draws := s.draws + 1
            pllDone := pd
            redrive := rv
            trace := s.trace ++ [.rst] } ∧
      (s.fsm = .idle → pd = s.pllDone ∧ rv = s.redrive)

/-- 70_reset_and_hazards.md R199: block reset during a job. A step has started when it lies before `spc`, or at `spc` in a
phase other than ISSUE; a part has not completed when it has a step at or after `spc` (log 19). -/
def Obligations.BlockResetDuringAJob : Prop :=
  ∀ (s t : State) (rest : List Move), configOk s.cfg = true → s.agenda = .blockReset :: rest → s.fsm = .run →
    step s = .next t →
    (let started : BoundStep → Prop := fun b => ∃ i, s.job[i]? = some b ∧ (i < s.spc ∨ (i = s.spc ∧ s.ph ≠ .issue))
     let unfinished : Tag → Prop := fun g => ∃ j x, s.spc ≤ j ∧ s.job[j]? = some x ∧ x.tag = g
     let pllHit : Prop := (∃ b, started b ∧ b.tag = .pll) ∧ unfinished .pll
     (pllHit → t.pllDone = false ∧ ∀ l, t.redriveOf l = .dirty) ∧
     (¬pllHit → t.pllDone = s.pllDone) ∧
     (∀ b l, started b → b.tag ≠ .pll → unfinished b.tag → b.lane = some l → t.redriveOf l = .dirty) ∧
     (∀ l, ¬pllHit → (∀ b, started b → b.tag ≠ .pll → unfinished b.tag → b.lane ≠ some l) →
       t.redriveOf l = s.redriveOf l))

/-! ## The sequences -/

/-- 42_pll.md R109: PLL_SEQ and its trace, in every accepted configuration. -/
def Obligations.PllSequenceTrace : Prop :=
  ∀ (c : Config) (r : Nat → Word), configOk c = true → c.hasPll = true →
    pllJob c =
      [ { word := StepWord.wr .pll c.k.pll.anaOff c.k.pll.anaVal, lane := none, tag := .pll },
        { word := StepWord.rmw .pll c.k.pll.digOff c.k.pll.enMask c.k.pll.enMask, lane := none, tag := .pll } ] ∧
    jobEvents r 0 (pllJob c) =
      [ .wr .pll c.k.pll.anaOff c.k.pll.anaVal, .rd .pll c.k.pll.digOff (r 0),
        .wr .pll c.k.pll.digOff (r 0 ||| c.k.pll.enMask) ]

/-- 43_reset.md R117, R118: the trace of the USXGMII reset of port 1 and of port 2, in every accepted configuration. -/
def Obligations.UsxResetTrace : Prop :=
  ∀ (c : Config) (p : PortId) (l : Lane) (u : UsxPort) (r : Nat → Word), configOk c = true → c.hasRst = true →
    laneOf c p = some l → (p = 1#8 ∧ u = c.k.usx.port1 ∨ p = 2#8 ∧ u = c.k.usx.port2) →
    jobEvents r 0 (usxJob c p) =
      [ .wr .rst (if u.i0.sel = .a then c.k.usx.offA else c.k.usx.offB) u.i0.val,
        .wr .rst (if u.i1.sel = .a then c.k.usx.offA else c.k.usx.offB) u.i1.val,
        .wr .rst (if u.i2.sel = .a then c.k.usx.offA else c.k.usx.offB) u.i2.val,
        .wr .rst (if u.i3.sel = .a then c.k.usx.offA else c.k.usx.offB) u.i3.val,
        .dly c.k.usx.settleNs ] ∧
    ∀ b ∈ usxJob c p, b.tag = .usxRst ∧ b.lane = some l

/-- 43_reset.md R122, R123: the trace of the SGMII reset of port 1 and of port 2, in every accepted configuration, with
`r 0` to `r 3` the values its four reads return. -/
def Obligations.SgmResetTrace : Prop :=
  ∀ (c : Config) (p : PortId) (l : Lane) (g : SgmPort) (r : Nat → Word), configOk c = true → c.hasRst = true →
    laneOf c p = some l → (p = 1#8 ∧ g = c.k.sgm.port1 ∨ p = 2#8 ∧ g = c.k.sgm.port2) →
    jobEvents r 0 (sgmJob c p) =
      [ .rd .rst c.k.sgm.enOff (r 0), .wr .rst c.k.sgm.enOff (r 0 ||| g.enBits),
        .rd .rst c.k.sgm.rstOff (r 1),
        .wr .rst c.k.sgm.rstOff
          ((r 1 &&& ~~~(c.k.sgm.keyMask ||| g.rstBits)) ||| c.k.sgm.keyVal ||| g.rstBits),
        .dly c.k.sgm.assertNs,
        .rd .rst c.k.sgm.rstOff (r 2),
        .wr .rst c.k.sgm.rstOff ((r 2 &&& ~~~(c.k.sgm.keyMask ||| g.rstBits)) ||| c.k.sgm.keyVal),
        .rd .rst c.k.sgm.enOff (r 3), .wr .rst c.k.sgm.enOff (r 3 &&& ~~~g.enBits),
        .dly c.k.sgm.settleNs ] ∧
    ∀ b ∈ sgmJob c p, b.tag = .sgmRst ∧ b.lane = some l

/-- 43_reset.md R124: for the same port, no offset the SGMII reset accesses is one the USXGMII reset accesses. -/
def Obligations.ResetVariantsAccessDisjointOffsets : Prop :=
  ∀ (c : Config) (p : PortId) (x y : BoundStep) (a b : Word), configOk c = true →
    x ∈ usxJob c p → y ∈ sgmJob c p → accessOff x.word = some a → accessOff y.word = some b → a ≠ b

/-- 44_calibration.md R132: the events of the Force prefix of F5G and of F10G on a lane, from the n-th read on. -/
def Obligations.ForcePrefixTrace : Prop :=
  ∀ (c : Config) (f : ForceConsts) (l : Lane) (g : Tag) (r : Nat → Word) (n : Nat), configOk c = true →
    (f = c.k.f5g ∨ f = c.k.f10g) →
    jobEvents r n (bindAll (some l) g (forcePrefix f)) =
      [ .rd (.pcs l) f.spdOff (r n), .wr (.pcs l) f.spdOff ((r n &&& ~~~f.spdMask) ||| f.spdVal),
        .rd (.pcs l) f.anOff (r (n + 1)), .wr (.pcs l) f.anOff (r (n + 1) &&& ~~~f.anEnBit),
        .rd (.pcs l) f.ckgOff (r (n + 2)), .wr (.pcs l) f.ckgOff ((r (n + 2) &&& ~~~f.ckgMask) ||| f.ckgGate),
        .dly f.gateNs,
        .rd (.pcs l) f.frcOff (r (n + 3)), .wr (.pcs l) f.frcOff ((r (n + 3) &&& ~~~f.frcMask) ||| f.frcVal),
        .rd (.pcs l) f.ckgOff (r (n + 4)), .wr (.pcs l) f.ckgOff ((r (n + 4) &&& ~~~f.ckgMask) ||| f.ckgUngate),
        .dly f.ungateNs ]

/-- 44_calibration.md R130, R134, R140, R141: every program of an accepted ROM is its prefix, its body and its handshake; the
handshake of program `k` on a lane appends its twelve events; and a G1 or G2 program reads nothing and touches PEXTP only. -/
def Obligations.ProgramsEndWithTheHandshake : Prop :=
  ∀ (c : Config) (k : Program) (l : Lane) (g : Tag) (r : Nat → Word) (n : Nat), configOk c = true →
    c.rom.prog.get k =
      (match k with
        | .an10g => c.k.an.steps
        | .f5g => forcePrefix c.k.f5g
        | .f10g => forcePrefix c.k.f10g
        | .g1 => []
        | .g2 => []) ++ c.k.body.get k ++ handshake c.k.transNs (c.k.hs.get k) ∧
    jobEvents r n (bindAll (some l) g (handshake c.k.transNs (c.k.hs.get k))) =
      (let h := c.k.hs.get k
       [ .wr (.pextp l) h.pdOff h.pdVal, .dly 150000#32,
         .wr (.pextp l) h.e1Off h.e1Val, .dly c.k.transNs,
         .wr (.pextp l) h.e1Off (h.e1Val &&& ~~~h.e1Tb), .dly 15000#32,
         .wr (.pextp l) h.e2Off h.e2Val, .dly c.k.transNs,
         .wr (.pextp l) h.e2Off (h.e2Val &&& ~~~h.e2Tb), .dly 100000#32,
         .wr (.pextp l) h.finOff h.finVal, .dly 400000#32 ]) ∧
    ((k = .g1 ∨ k = .g2) → ∀ e ∈ jobEvents r n (bindAll (some l) g (c.rom.prog.get k)),
      (∃ d, e = .dly d) ∨ (∃ off v, e = .wr (.pextp l) off v))

/-- 44_calibration.md R144: every step of a calibration is tagged CAL(k) with its port's lane; what `exec` of a PCS step of it
accesses is PCS of that lane, of a PEXTP step PEXTP of that lane, and it has no other access; nor has the whole job. -/
def Obligations.CalibrationStaysOnItsLane : Prop :=
  ∀ (c : Config) (k : Program) (p : PortId) (r : Nat → Word) (n : Nat), configOk c = true →
    (∀ b ∈ calJob c k p, b.tag = .cal k ∧ b.lane = laneOf c p ∧ b.lane ≠ none) ∧
    (∀ e ∈ jobEvents r n (calJob c k p),
      (∃ d, e = .dly d) ∨
      (∃ l off v, laneOf c p = some l ∧
        (e = .rd (.pcs l) off v ∨ e = .wr (.pcs l) off v ∨ e = .rd (.pextp l) off v ∨ e = .wr (.pextp l) off v))) ∧
    (∀ (s t : State) (b : BoundStep) (i : Instr), s.cfg = c → s.fsm = .run → s.job[s.spc]? = some b →
      b ∈ calJob c k p → decodeStep b.word = .ok i → exec i s = .next t →
      ∃ l es, laneOf c p = some l ∧ t.trace = s.trace ++ es ∧
        ∀ e ∈ es,
          (instrClass i = none ∧ ∃ d, e = .dly d) ∨
          (instrClass i = some .pcs ∧ ∃ off v, e = .rd (.pcs l) off v ∨ e = .wr (.pcs l) off v) ∨
          (instrClass i = some .pextp ∧ ∃ off v, e = .rd (.pextp l) off v ∨ e = .wr (.pextp l) off v))

/-- 44_calibration.md R150: the step counts of every accepted ROM. -/
def Obligations.StepCounts : Prop :=
  ∀ c : Config, configOk c = true →
    c.rom.pll.length = 2 ∧ c.rom.usx1.length = 5 ∧ c.rom.usx2.length = 5 ∧ c.rom.sgm1.length = 6 ∧
    c.rom.sgm2.length = 6 ∧ (forcePrefix c.k.f5g).length = 7 ∧ (forcePrefix c.k.f10g).length = 7 ∧
    (∀ k, (handshake c.k.transNs (c.k.hs.get k)).length = 12) ∧
    c.rom.prog.f5g.length = 19 + c.k.body.f5g.length ∧ c.rom.prog.f10g.length = 19 + c.k.body.f10g.length ∧
    c.rom.prog.an10g.length = c.k.an.steps.length + c.k.body.an10g.length + 12 ∧
    c.rom.prog.g1.length = c.k.body.g1.length + 12 ∧ c.rom.prog.g2.length = c.k.body.g2.length + 12 ∧
    c.rom.prog.g1.length = c.rom.prog.g2.length

/-- 70_reset_and_hazards.md R212: the sums of the delays of the sequences of every accepted ROM, in nanoseconds. -/
def Obligations.DelayLowerBounds : Prop :=
  ∀ c : Config, configOk c = true →
    delayTotal c.rom.pll = 0 ∧
    (∀ u ∈ [c.rom.usx1, c.rom.usx2], delayTotal u = c.k.usx.settleNs.toNat ∧ 1000000 ≤ delayTotal u) ∧
    (∀ g ∈ [c.rom.sgm1, c.rom.sgm2],
      delayTotal g = c.k.sgm.assertNs.toNat + c.k.sgm.settleNs.toNat ∧ 1001000 ≤ delayTotal g) ∧
    (∀ k, delayTotal (handshake c.k.transNs (c.k.hs.get k)) = 665000 + 2 * c.k.transNs.toNat ∧
      666000 ≤ delayTotal (handshake c.k.transNs (c.k.hs.get k))) ∧
    (∀ f ∈ [c.k.f5g, c.k.f10g],
      delayTotal (forcePrefix f) = f.gateNs.toNat + f.ungateNs.toNat ∧ 2 ≤ delayTotal (forcePrefix f)) ∧
    delayTotal c.k.an.steps = c.k.an.p1Ns.toNat + c.k.an.p2Ns.toNat ∧ 2 ≤ delayTotal c.k.an.steps ∧
    (∀ k, 666000 ≤ delayTotal (c.rom.prog.get k)) ∧
    (∀ u ∈ [c.rom.usx1, c.rom.usx2], ∀ k ∈ [Program.an10g, .f5g, .f10g],
      1666002 ≤ delayTotal u + delayTotal (c.rom.prog.get k))

/-! ## Whole-machine rules -/

/-- 10_state.md R31, R34, R35: no step changes the configuration; a recorded hazard is never removed; the trace is never
truncated. -/
def Obligations.ConfigurationHazardsAndTraceArePermanent : Prop :=
  ∀ s t : State, step s = .next t →
    t.cfg = s.cfg ∧ (∀ h, s.faults.mem h = true → t.faults.mem h = true) ∧ ∃ es, t.trace = s.trace ++ es

/-- 40_steps.md R218, 10_state.md R27: `spc` changes only by +1 at a step's completion, the job unchanged, and to 0 at
acceptance, completion and block reset. -/
def Obligations.SpcOnlyAdvancesByOneOrRestarts : Prop :=
  ∀ s t : State, step s = .next t →
    (t.spc = s.spc ∧ t.job = s.job) ∨ (t.spc = s.spc + 1 ∧ t.job = s.job ∧ s.fsm = .run ∧ t.fsm = .run) ∨
    (t.spc = 0 ∧ (s.fsm = .idle ∨ t.fsm = .idle))

/-- 10_state.md R32, R33, 70_reset_and_hazards.md R204: the ghost state improves only in the document's order. `redrive(l)`
becomes CLEAN only at the end of a calibration part of lane `l`, with `pll_done` and `redrive(l)` RST_SEEN; it becomes
RST_SEEN only at the end of a reset part of lane `l`, with `pll_done`; `pll_done` is set only at the end of a PLL part, and
cleared only by a block reset during a job. That a part ends with a step that no later step of its tag follows is the
model's reading (log 19). -/
def Obligations.GhostStateImprovesOnlyInOrder : Prop :=
  ∀ s t : State, step s = .next t →
    (∀ l : Lane, t.redriveOf l ≠ s.redriveOf l →
      (t.redriveOf l = .clean →
        s.pllDone = true ∧ s.redriveOf l = .rstSeen ∧ t.spc = s.spc + 1 ∧
        ∃ b k, s.job[s.spc]? = some b ∧ b.tag = .cal k ∧ b.lane = some l ∧
          ∀ x ∈ s.job.drop (s.spc + 1), x.tag ≠ b.tag) ∧
      (t.redriveOf l = .rstSeen →
        s.pllDone = true ∧ t.spc = s.spc + 1 ∧
        ∃ b, s.job[s.spc]? = some b ∧ (b.tag = .usxRst ∨ b.tag = .sgmRst) ∧ b.lane = some l ∧
          ∀ x ∈ s.job.drop (s.spc + 1), x.tag ≠ b.tag)) ∧
    (t.pllDone ≠ s.pllDone →
      (t.pllDone = true ∧ s.fsm = .run ∧ t.spc = s.spc + 1 ∧
        ∃ b, s.job[s.spc]? = some b ∧ b.tag = .pll ∧ ∀ x ∈ s.job.drop (s.spc + 1), x.tag ≠ .pll) ∨
      (t.pllDone = false ∧ s.fsm = .run ∧ ∃ rest, s.agenda = .blockReset :: rest))

/-! ## Invariants and runs -/

/-- The invariant holds at power-up of every accepted configuration (10_state.md R38, R41). -/
def Obligations.InvariantHoldsAtPowerUp : Prop := ∀ c : Config, configOk c = true → Inv (State.powerUp c)

/-- 10_state.md R41: from every state of the invariant, a step gives a state of the invariant. -/
def Obligations.StepKeepsTheInvariant : Prop := ∀ s t : State, Inv s → step s = .next t → Inv t

/-- 60_exceptions.md R184: no stuck state. From every state of the invariant the machine steps on, unless the next pending
move is a host access the window refuses (20_memory.md R58). That an idle SEQ, which R184 has wait, steps to the same state
(log 7) and that the next move is read from the agenda (log 6) are the model's choices. -/
def Obligations.NoStuckState : Prop := ∀ s : State, Inv s → nextMoveOk s = true → ∃ t, step s = .next t

/-- 10_state.md R26, 45_orchestration.md R154, 70_reset_and_hazards.md R215: while a job runs, it is the job that the word in
CMD builds; from every state in which that holds, a step keeps it. -/
def Obligations.RunningJobIsTheOneCmdBuilds : Prop :=
  ∀ s t : State, (s.fsm = .run → s.job = (decodeAndBuild s.cfg s.cmd).job) → step s = .next t →
    (t.fsm = .run → t.job = (decodeAndBuild t.cfg t.cmd).job)

/-- 70_reset_and_hazards.md R211, 45_orchestration.md R169: with nothing pending, every job ends. That SEQ moves whenever
nothing is pending is the model's choice (log 6). -/
def Obligations.EveryJobEnds : Prop :=
  ∀ s : State, Inv s → s.agenda = [] → ∃ n t, stepsTo n s t ∧ runEnded t

/-- 45_orchestration.md R153, R163, R171, 40_steps.md R88, R99, 20_memory.md R59: a command written in IDLE runs to its end
and appends `Cmd(w)`, then the events of its job, each step once and in order, then `Done(STATUS)`; the values its reads
return are those DOMAINS gives, in order (log 4, log 5). The run is one in which HOST's write is the only pending move: no
block reset and no other host access lands in it, and SEQ moves whenever nothing is pending (log 6). -/
def Obligations.CommandRunsItsWholeJob : Prop :=
  ∀ (s : State) (w : Word), Inv s → s.fsm = .idle →
    ∃ t, completes s w t ∧ t.cfg = s.cfg ∧ t.cmd = w ∧
      t.status =
        completedStatus (decodeAndBuild s.cfg w).result (decodeAndBuild s.cfg w).lanes.lane
          (decodeAndBuild s.cfg w).lanes.present (decodeAndBuild s.cfg w).lanes.valid ∧
      t.trace =
        s.trace ++ [.cmd w] ++ jobEvents (oracle s) 0 (decodeAndBuild s.cfg w).job ++ [.done (statusWord t.status)]

/-- 40_steps.md R99: two runs of one command word, from IDLE states of the invariant with the same configuration whose reads
are given the same values, append the same events and leave the same CMD and STATUS, whatever else the two states hold. A
job reads at most once a step, so only that many values need agree; that the values come from `answers` and the counter
`draws` is the model's (log 4, log 5), as is a run in which HOST's write is the only pending move (log 6). From one state the end of a run is one state. -/
def Obligations.SameReadsGiveTheSameRun : Prop :=
  (∀ (s s' t t' : State) (w : Word), Inv s → Inv s' → s.fsm = .idle → s'.fsm = .idle → s.cfg = s'.cfg →
    (∀ n < (decodeAndBuild s.cfg w).job.length, oracle s n = oracle s' n) →
    completes s w t → completes s' w t' →
    t.cmd = t'.cmd ∧ t.status = t'.status ∧ ∃ es, t.trace = s.trace ++ es ∧ t'.trace = s'.trace ++ es) ∧
  (∀ (s t u : State) (w : Word), completes s w t → completes s w u → t = u)

/-- 40_steps.md R99: two runs of one command word, from IDLE states of the invariant with the same configuration, append
events that agree in all but the values of reads and writes, whatever the two runs read; and of the values only those of the
reads and of the writes that end an RMW can differ (`eraseRmw`). In each run HOST's write is the only pending move
(log 6). -/
def Obligations.EventPositionsDoNotDependOnReads : Prop :=
  ∀ (s s' t t' : State) (w : Word), Inv s → Inv s' → s.fsm = .idle → s'.fsm = .idle → s.cfg = s'.cfg →
    completes s w t → completes s' w t' →
    ∃ es es', t.trace = s.trace ++ es ∧ t'.trace = s'.trace ++ es' ∧
      es.map eraseValue = es'.map eraseValue ∧ eraseRmw false es = eraseRmw false es'

/-- 45_orchestration.md R166, R168: for a valid port with the PLL present, the domain events of SETUP_FORCED are those of
ENABLE_PLL, then RESET_LANE in USXGMII mode, then CALIBRATE, given the same values returned to their reads (log 4, log 5).
In each run HOST's write is the only pending move: no block reset and no other host access lands in it or between two of the
primitives, where R166 (d) lets one come, and SEQ moves whenever nothing is pending (log 6). -/
def Obligations.SetupForcedIsItsThreePrimitives : Prop :=
  ∀ (s t : State) (ifk : BitVec 4) (p : PortId), Inv s → s.fsm = .idle → p.toNat < s.cfg.portCount →
    s.cfg.hasPll = true → completes s (Cmd32.word 0x2#4 ifk p 0#16) t →
    ∃ t1 t2 t3,
      completes s (Cmd32.word 0x4#4 0#4 0#8 0#16) t1 ∧
      completes t1 (Cmd32.word 0x3#4 0#4 p 0#16) t2 ∧
      completes t2 (Cmd32.word 0x5#4 (if ifk = 0x1#4 then 1#4 else 2#4) p 0#16) t3 ∧
      domainEvents t3.trace = domainEvents t.trace ∧ t3.redrive = t.redrive ∧ t3.pllDone = t.pllDone
end

