-- ==== Sys2Proof/Laws/Decode.lean ====
section
/-! SUPPORT. The fields of an encoded word, and the codes of the small types: what a proof about decoding cites instead of
unfolding bit extractions. -/

namespace Sys2Proof

/-! ## Codes -/

@[simp] theorem ResetMode.ofBit_toBit (m : ResetMode) : ResetMode.ofBit m.toBit = m := by cases m <;> rfl
@[simp] theorem DomainClass.ofCode_toCode (d : DomainClass) : DomainClass.ofCode d.toCode = d := by cases d <;> rfl
@[simp] theorem Program.ofCode_toCode (k : Program) : Program.ofCode k.toCode = some k := by cases k <;> rfl
theorem ResetMode.toBit_ofBit : ∀ b : BitVec 1, (ResetMode.ofBit b).toBit = b := by decide
theorem DomainClass.toCode_ofCode : ∀ c : BitVec 2, (DomainClass.ofCode c).toCode = c := by decide

/-! ## Fields of a command word -/

/-- The value of a command word, from its fields (30_encoding.md R65). -/
theorem Cmd32.word_toNat (op sub : BitVec 4) (port : PortId) (speed : Speed) :
    (Cmd32.word op sub port speed).toNat =
      speed.toNat * 65536 + port.toNat * 256 + sub.toNat * 16 + op.toNat := by
  have h : (Cmd32.word op sub port speed).toNat = (speed ++ port ++ sub ++ op).toNat := rfl
  have h1 := op.isLt
  have h2 := sub.isLt
  have h3 := port.isLt
  rw [h, BitVec.toNat_append, BitVec.toNat_append, BitVec.toNat_append, ← Nat.shiftLeft_add_eq_or_of_lt (by omega),
    ← Nat.shiftLeft_add_eq_or_of_lt (by omega), ← Nat.shiftLeft_add_eq_or_of_lt (by omega)]
  simp only [Nat.shiftLeft_eq]
  omega

@[simp] theorem Cmd32.op_word (op sub : BitVec 4) (port : PortId) (speed : Speed) :
    Cmd32.op (Cmd32.word op sub port speed) = op := by
  apply BitVec.eq_of_toNat_eq
  have h1 := op.isLt
  simp only [Cmd32.op, BitVec.extractLsb'_toNat, Cmd32.word_toNat, Nat.shiftRight_zero]
  omega

@[simp] theorem Cmd32.sub_word (op sub : BitVec 4) (port : PortId) (speed : Speed) :
    Cmd32.sub (Cmd32.word op sub port speed) = sub := by
  apply BitVec.eq_of_toNat_eq
  have h1 := op.isLt
  have h2 := sub.isLt
  simp only [Cmd32.sub, BitVec.extractLsb'_toNat, Cmd32.word_toNat, Nat.shiftRight_eq_div_pow]
  omega

@[simp] theorem Cmd32.port_word (op sub : BitVec 4) (port : PortId) (speed : Speed) :
    Cmd32.port (Cmd32.word op sub port speed) = port := by
  apply BitVec.eq_of_toNat_eq
  have h1 := op.isLt
  have h2 := sub.isLt
  have h3 := port.isLt
  simp only [Cmd32.port, BitVec.extractLsb'_toNat, Cmd32.word_toNat, Nat.shiftRight_eq_div_pow]
  omega

@[simp] theorem Cmd32.speed_word (op sub : BitVec 4) (port : PortId) (speed : Speed) :
    Cmd32.speed (Cmd32.word op sub port speed) = speed := by
  apply BitVec.eq_of_toNat_eq
  have h1 := op.isLt
  have h2 := sub.isLt
  have h3 := port.isLt
  have h4 := speed.isLt
  simp only [Cmd32.speed, BitVec.extractLsb'_toNat, Cmd32.word_toNat, Nat.shiftRight_eq_div_pow]
  omega

/-- A command word is the word of its fields. -/
theorem Cmd32.word_fields (w : Word) : Cmd32.word (Cmd32.op w) (Cmd32.sub w) (Cmd32.port w) (Cmd32.speed w) = w := by
  apply BitVec.eq_of_toNat_eq
  have h := w.isLt
  rw [Cmd32.word_toNat]
  simp only [Cmd32.op, Cmd32.sub, Cmd32.port, Cmd32.speed, BitVec.extractLsb'_toNat, Nat.shiftRight_eq_div_pow]
  omega

/-! ## Fields of the first word of a step -/

theorem Step128.head_fields : ∀ kind dc : BitVec 2,
    (Step128.head kind dc).extractLsb' 0 2 = kind ∧ (Step128.head kind dc).extractLsb' 2 2 = dc ∧
      (Step128.head kind dc).extractLsb' 4 28 = 0#28 := by decide

/-- The first word of a step with zero reserved bits is the head of its fields (30_encoding.md R76). -/
theorem Step128.head_of_fields (s : StepWord) (h : Step128.rsvd s = 0#28) :
    Step128.head (Step128.kind s) (Step128.dc s) = s.w0 := by
  apply BitVec.eq_of_toNat_eq
  have h0 := s.w0.isLt
  have h1 := congrArg BitVec.toNat h
  simp only [Step128.rsvd, BitVec.extractLsb'_toNat, Nat.shiftRight_eq_div_pow] at h1
  have h2 : (Step128.head (Step128.kind s) (Step128.dc s)).toNat = (0#28 ++ Step128.dc s ++ Step128.kind s).toNat := rfl
  have h3 := (Step128.kind s).isLt
  have h4 := (Step128.dc s).isLt
  rw [h2, BitVec.toNat_append, BitVec.toNat_append, ← Nat.shiftLeft_add_eq_or_of_lt (by omega),
    ← Nat.shiftLeft_add_eq_or_of_lt (by omega)]
  simp only [Step128.dc, Step128.kind, BitVec.extractLsb'_toNat, Nat.shiftRight_eq_div_pow, Nat.shiftLeft_eq]
  simp at h1 ⊢
  omega

/-! ## Encoded steps decode -/

theorem decodeStep_wr {dc : DomainClass} {off val : Word} (h : Word.aligned off = true) :
    decodeStep (StepWord.wr dc off val) = .ok (.wr dc off val) := by
  obtain ⟨hk, hd, hr⟩ := Step128.head_fields 0b00#2 dc.toCode
  simp [decodeStep, StepWord.wr, Step128.rsvd, Step128.kind, Step128.dc, hk, hd, hr, h]

theorem decodeStep_rmw {dc : DomainClass} {off mask val : Word} (h : Word.aligned off = true) :
    decodeStep (StepWord.rmw dc off mask val) = .ok (.rmw dc off mask val) := by
  obtain ⟨hk, hd, hr⟩ := Step128.head_fields 0b01#2 dc.toCode
  simp [decodeStep, StepWord.rmw, Step128.rsvd, Step128.kind, Step128.dc, hk, hd, hr, h]

theorem decodeStep_dly (d : Word) : decodeStep (StepWord.dly d) = .ok (.dly d) := by
  obtain ⟨hk, hd, hr⟩ := Step128.head_fields 0b10#2 0b00#2
  simp [decodeStep, StepWord.dly, Step128.rsvd, Step128.kind, Step128.dc, hk, hd, hr]

end Sys2Proof
end

