-- ==== Sys2Proof/Laws/Rom.lean ====
section
/-! SUPPORT. What an accepted configuration gives: each check of 44_calibration.md R143 by itself, and what the checks say of
the ROM's sequences. Later proofs cite these instead of unfolding `configOk`. -/

namespace Sys2Proof.Machine

variable {c : Config}

/-! ## Each check -/

/-- An accepted configuration passes every check. -/
theorem configOk_all (h : configOk c = true) :
    paramsOk c = true ∧ checkW1 c = true ∧ checkW2 c = true ∧ checkW3 c = true ∧ checkW4 c = true ∧ checkW5 c = true ∧
      checkW6 c = true ∧ checkW7 c = true ∧ checkW8 c = true ∧ checkW9 c = true ∧ checkW10 c = true ∧
      checkW11 c = true ∧ checkW12 c = true := by
  simpa [configOk, allOf] using h

theorem configOk_params (h : configOk c = true) :
    c.laneCount ≤ 255 ∧ c.portCount ≤ 256 ∧ 1 ≤ c.tickNs ∧ c.hasPcs.length = c.laneCount ∧
      c.hasPextp.length = c.laneCount := by
  simpa [paramsOk, allOf] using (configOk_all h).1

/-- W2: the ROM is the one its constants give. -/
theorem configOk_rom (h : configOk c = true) : c.rom = romOf c.k := by
  simpa [checkW2] using (configOk_all h).2.2.1

/-- W3: the offsets the constants name are aligned. -/
theorem configOk_aligned (h : configOk c = true) {off : Word} (ho : off ∈ namedOffsets c.k) : Word.aligned off = true := by
  have hw := (configOk_all h).2.2.2.1
  simp only [checkW3, Bool.and_eq_true, List.all_eq_true] at hw
  exact hw.2 off ho

/-- W7: the delays that have a scale. -/
theorem configOk_scales (h : configOk c = true) :
    (1000000 ≤ c.k.usx.settleNs.toNat ∧ c.k.usx.settleNs.toNat < 1000000000) ∧
      (1000 ≤ c.k.sgm.assertNs.toNat ∧ c.k.sgm.assertNs.toNat < 1000000) ∧
      (1000000 ≤ c.k.sgm.settleNs.toNat ∧ c.k.sgm.settleNs.toNat < 1000000000) ∧
      (1 ≤ c.k.an.p1Ns.toNat ∧ c.k.an.p1Ns.toNat < 1000) ∧ (1 ≤ c.k.an.p2Ns.toNat ∧ c.k.an.p2Ns.toNat < 1000) ∧
      (1 ≤ c.k.f5g.gateNs.toNat ∧ c.k.f5g.gateNs.toNat < 1000) ∧
      (1 ≤ c.k.f5g.ungateNs.toNat ∧ c.k.f5g.ungateNs.toNat < 1000) ∧
      (1 ≤ c.k.f10g.gateNs.toNat ∧ c.k.f10g.gateNs.toNat < 1000) ∧
      (1 ≤ c.k.f10g.ungateNs.toNat ∧ c.k.f10g.ungateNs.toNat < 1000) ∧
      500 ≤ c.k.transNs.toNat ∧ c.k.transNs.toNat < 2000 := by
  simpa [checkW7, allOf, msScale, usScale, nsScale] using (configOk_all h).2.2.2.2.2.2.2.1

/-! ## The offsets by name -/

theorem aligned_pll (h : configOk c = true) :
    Word.aligned c.k.pll.anaOff = true ∧ Word.aligned c.k.pll.digOff = true :=
  ⟨configOk_aligned h (by simp [namedOffsets]), configOk_aligned h (by simp [namedOffsets])⟩

theorem aligned_usx (h : configOk c = true) (sel : UsxSel) : Word.aligned (usxOff c.k.usx sel) = true := by
  cases sel
  · exact configOk_aligned h (by simp [namedOffsets, usxOff])
  · exact configOk_aligned h (by simp [namedOffsets, usxOff])

theorem aligned_sgm (h : configOk c = true) :
    Word.aligned c.k.sgm.enOff = true ∧ Word.aligned c.k.sgm.rstOff = true :=
  ⟨configOk_aligned h (by simp [namedOffsets]), configOk_aligned h (by simp [namedOffsets])⟩

theorem aligned_force (h : configOk c = true) {f : ForceConsts} (hf : f = c.k.f5g ∨ f = c.k.f10g) :
    Word.aligned f.spdOff = true ∧ Word.aligned f.anOff = true ∧ Word.aligned f.ckgOff = true ∧
      Word.aligned f.frcOff = true := by
  rcases hf with rfl | rfl
  all_goals refine ⟨?_, ?_, ?_, ?_⟩
  all_goals exact configOk_aligned h (by simp [namedOffsets])

theorem aligned_hs (h : configOk c = true) (k : Program) :
    Word.aligned (c.k.hs.get k).pdOff = true ∧ Word.aligned (c.k.hs.get k).e1Off = true ∧
      Word.aligned (c.k.hs.get k).e2Off = true ∧ Word.aligned (c.k.hs.get k).finOff = true := by
  cases k
  all_goals refine ⟨?_, ?_, ?_, ?_⟩
  all_goals exact configOk_aligned h (by simp [namedOffsets, PerProgram.get, PerProgram.toList])

/-! ## Values inside their masks -/

theorem within_iff (val mask : Word) : within val mask = true ↔ val &&& ~~~mask = 0#32 := by simp [within]

/-- A value inside its mask is its own masked value. -/
theorem and_mask_of_within {val mask : Word} (h : within val mask = true) : val &&& mask = val := by
  have hw := (within_iff val mask).1 h
  apply BitVec.eq_of_getLsbD_eq
  intro i hi
  have hb := congrArg (fun w => w.getLsbD i) hw
  simp only [BitVec.getLsbD_and, BitVec.getLsbD_not, hi, BitVec.getLsbD_zero] at hb ⊢
  revert hb
  cases val.getLsbD i <;> cases mask.getLsbD i <;> simp

/-- W6: every RMW of the ROM keeps its value inside its mask. -/
theorem configOk_rmwVal (h : configOk c = true) {s : StepWord} (hs : s ∈ romWords c.rom) : rmwValOk s = true := by
  have hw := (configOk_all h).2.2.2.2.2.2.1
  simp only [checkW6, List.all_eq_true] at hw
  exact hw s hs

/-- W5: the constraints on the Force constants. -/
theorem configOk_force (h : configOk c = true) {f : ForceConsts} (hf : f = c.k.f5g ∨ f = c.k.f10g) :
    within f.spdVal f.spdMask = true ∧ within f.ckgGate f.ckgMask = true ∧ within f.ckgUngate f.ckgMask = true ∧
      within f.frcVal f.frcMask = true := by
  have hw := (configOk_all h).2.2.2.2.2.1
  simp only [checkW5, allOf, List.all_cons, List.all_nil, Bool.and_eq_true] at hw
  obtain ⟨-, -, -, -, -, -, -, -, -, h1, h2, -⟩ := hw
  rcases hf with rfl | rfl
  · simp only [forceOk, allOf, List.all_cons, List.all_nil, Bool.and_eq_true] at h1
    exact ⟨h1.2.1, h1.2.2.2.2.1, h1.2.2.2.2.2.1, h1.2.2.2.2.2.2.2.2.1⟩
  · simp only [forceOk, allOf, List.all_cons, List.all_nil, Bool.and_eq_true] at h2
    exact ⟨h2.2.1, h2.2.2.2.2.1, h2.2.2.2.2.2.1, h2.2.2.2.2.2.2.2.2.1⟩

/-- W5: the constraint on the SGMII key. -/
theorem configOk_key (h : configOk c = true) : within c.k.sgm.keyVal c.k.sgm.keyMask = true := by
  have hw := (configOk_all h).2.2.2.2.2.1
  simp only [checkW5, allOf, List.all_cons, List.all_nil, Bool.and_eq_true] at hw
  exact hw.2.2.2.2.2.2.1

/-! ## Every word of the ROM -/

/-- W1 and W3: every word of the ROM decodes to a step. -/
theorem configOk_decodes (h : configOk c = true) {s : StepWord} (hs : s ∈ romWords c.rom) :
    ∃ i, decodeStep s = .ok i := by
  obtain ⟨-, h1, -, h3, -⟩ := configOk_all h
  simp only [checkW1, checkW3, Bool.and_eq_true, List.all_eq_true] at h1 h3
  have h1 := h1 s hs
  have h3 := h3.1 s hs
  unfold shapeOk at h1
  unfold offsetOk at h3
  cases hd : decodeStep s with
  | ok i => exact ⟨i, rfl⟩
  | error e =>
    rw [hd] at h1 h3
    cases e <;> simp_all

/-- W4: the classes of the accesses. -/
theorem configOk_classes (h : configOk c = true) :
    classesIn [.pll] c.rom.pll = true ∧ classesIn [.rst] c.rom.usx1 = true ∧ classesIn [.rst] c.rom.usx2 = true ∧
      classesIn [.rst] c.rom.sgm1 = true ∧ classesIn [.rst] c.rom.sgm2 = true ∧
      ∀ k, classesIn [.pcs, .pextp] (c.rom.prog.get k) = true := by
  have hw := (configOk_all h).2.2.2.2.1
  simp only [checkW4, allOf, PerProgram.toList, List.all_cons, List.all_nil, Bool.and_eq_true] at hw
  obtain ⟨h1, ⟨h2, h3, h4, h5, -⟩, ⟨g1, g2, g3, g4, g5, -⟩, -⟩ := hw
  refine ⟨h1, h2, h3, h4, h5, fun k => ?_⟩
  cases k
  · exact g1
  · exact g2
  · exact g3
  · exact g4
  · exact g5

/-- What `classesIn` says of one step. -/
theorem class_of_classesIn {cs : List DomainClass} {l : List StepWord} (h : classesIn cs l = true) {s : StepWord}
    (hs : s ∈ l) {dc : DomainClass} (hd : accessClass s = some dc) : dc ∈ cs := by
  simp only [classesIn, List.all_eq_true] at h
  have hh := h s hs
  rw [hd] at hh
  simpa using hh

end Sys2Proof.Machine
end

