-- ==== Sys2Proof/Laws/Events.lean ====
section
/-! SUPPORT. The events of the steps and jobs of Safety.lean, and the durations of step words: one lemma for each step
kind. -/

namespace Sys2Proof.Safety

open Sys2Proof.Machine

variable {dc : DomainClass} {off mask val : Word} {l : Option Lane} {g : Tag}

theorem stepEvents_wr (h : Word.aligned off = true) (v : Word) :
    stepEvents v { word := StepWord.wr dc off val, lane := l, tag := g } =
      (bindClass dc l).toList.map fun dom => .wr dom off val := by
  simp [stepEvents, decodeStep_wr h]

theorem stepEvents_rmw (h : Word.aligned off = true) (v : Word) :
    stepEvents v { word := StepWord.rmw dc off mask val, lane := l, tag := g } =
      (bindClass dc l).toList.flatMap fun dom => [.rd dom off v, .wr dom off (mergeMasked v mask val)] := by
  simp [stepEvents, decodeStep_rmw h]

theorem stepEvents_dly (d v : Word) :
    stepEvents v { word := StepWord.dly d, lane := l, tag := g } = [.dly d] := by
  simp [stepEvents, decodeStep_dly]

theorem readsOf_wr (h : Word.aligned off = true) :
    readsOf { word := StepWord.wr dc off val, lane := l, tag := g } = 0 := by
  simp [readsOf, decodeStep_wr h]

theorem readsOf_rmw (h : Word.aligned off = true) :
    readsOf { word := StepWord.rmw dc off mask val, lane := l, tag := g } = 1 := by
  simp [readsOf, decodeStep_rmw h]

theorem readsOf_dly (d : Word) : readsOf { word := StepWord.dly d, lane := l, tag := g } = 0 := by
  simp [readsOf, decodeStep_dly]

theorem dlyOf_wr (h : Word.aligned off = true) : dlyOf (StepWord.wr dc off val) = none := by
  simp [dlyOf, decodeStep_wr h]

theorem dlyOf_rmw (h : Word.aligned off = true) : dlyOf (StepWord.rmw dc off mask val) = none := by
  simp [dlyOf, decodeStep_rmw h]

theorem dlyOf_dly (d : Word) : dlyOf (StepWord.dly d) = some d := by
  simp [dlyOf, decodeStep_dly]

theorem delayTotal_append (a b : List StepWord) : delayTotal (a ++ b) = delayTotal a + delayTotal b := by
  simp [delayTotal]

/-- How many reads a job issues. -/
def readsIn (j : List BoundStep) : Nat := (j.map readsOf).sum

/-- The events of one part after another. -/
theorem jobEvents_append (r : Nat → Word) (n : Nat) (a b : List BoundStep) :
    jobEvents r n (a ++ b) = jobEvents r n a ++ jobEvents r (n + readsIn a) b := by
  induction a generalizing n with
  | nil => simp [jobEvents, readsIn]
  | cons x a ih => simp [jobEvents, ih, readsIn, Nat.add_assoc]

/-- The events of a job depend only on the values of its reads. -/
theorem jobEvents_shift (r q : Nat → Word) (n m : Nat) (j : List BoundStep) (h : ∀ i, r (n + i) = q (m + i)) :
    jobEvents r n j = jobEvents q m j := by
  induction j generalizing n m with
  | nil => rfl
  | cons b j ih =>
    simp only [jobEvents]
    rw [show r n = q m from h 0, ih (n + readsOf b) (m + readsOf b) (fun i => by
      rw [Nat.add_assoc, Nat.add_assoc]
      exact h (readsOf b + i))]

theorem readsOf_le_one (b : BoundStep) : readsOf b ≤ 1 := by
  unfold readsOf
  split <;> simp

/-- A job's events depend on at most one read value a step. -/
theorem jobEvents_congr (r q : Nat → Word) (n : Nat) (j : List BoundStep) (h : ∀ i < n + j.length, r i = q i) :
    jobEvents r n j = jobEvents q n j := by
  induction j generalizing n with
  | nil => rfl
  | cons b j ih =>
    have hb := readsOf_le_one b
    simp only [List.length_cons] at h
    simp only [jobEvents]
    rw [h n (by omega), ih _ fun i hi => h i (by omega)]

/-- But for values, a job's events do not depend on what its reads return. -/
theorem eraseValue_jobEvents (r q : Nat → Word) (n m : Nat) (j : List BoundStep) :
    (jobEvents r n j).map eraseValue = (jobEvents q m j).map eraseValue := by
  induction j generalizing n m with
  | nil => rfl
  | cons b j ih =>
    simp only [jobEvents, List.map_append, ih (n + readsOf b) (m + readsOf b)]
    congr 1
    unfold stepEvents
    split
    · rfl
    · rename_i dc off mask val _
      cases bindClass dc b.lane <;> simp [eraseValue]
    · rfl
    · rfl

/-- But for the values of RMW steps, a job's events do not depend on what its reads return. -/
theorem eraseRmw_jobEvents (r q : Nat → Word) (n m : Nat) (j : List BoundStep) {x y : List Event}
    (h : eraseRmw false x = eraseRmw false y) :
    eraseRmw false (jobEvents r n j ++ x) = eraseRmw false (jobEvents q m j ++ y) := by
  induction j generalizing n m with
  | nil => exact h
  | cons b j ih =>
    have ih := ih (n + readsOf b) (m + readsOf b)
    simp only [jobEvents, List.append_assoc]
    unfold stepEvents
    split
    · rename_i dc off val _
      cases bindClass dc b.lane <;> simp [eraseRmw, ih]
    · rename_i dc off mask val _
      cases bindClass dc b.lane <;> simp [eraseRmw, ih]
    · simp [eraseRmw, ih]
    · simp [ih]

end Sys2Proof.Safety
end

