-- ==== Sys2Proof/Laws/Flags.lean ====
section
/-! SUPPORT. The value of the STATUS word from its fields, and of its single fields: what a proof about STATUS cites instead
of unfolding the concatenation. -/

namespace Sys2Proof.Machine

/-- The value of STATUS (10_state.md R20). -/
theorem statusWord_toNat (s : Status) :
    (statusWord s).toNat =
      s.lane.toNat * 256 + s.lanePresent.toNat * 32 + s.laneValid.toNat * 16 + s.result.code.toNat * 4
        + s.done.toNat * 2 + s.busy.toNat := by
  have h : (statusWord s).toNat =
      (0#16 ++ s.lane ++ 0#2 ++ BitVec.ofBool s.lanePresent ++ BitVec.ofBool s.laneValid ++ s.result.code
        ++ BitVec.ofBool s.done ++ BitVec.ofBool s.busy).toNat := rfl
  have h1 := s.lane.isLt
  have h2 := s.result.code.isLt
  have h3 : s.busy.toNat < 2 := Bool.toNat_lt _
  have h4 : s.done.toNat < 2 := Bool.toNat_lt _
  have h5 : s.laneValid.toNat < 2 := Bool.toNat_lt _
  have h6 : s.lanePresent.toNat < 2 := Bool.toNat_lt _
  rw [h]
  simp only [BitVec.toNat_append, BitVec.toNat_ofBool, BitVec.toNat_ofNat]
  rw [← Nat.shiftLeft_add_eq_or_of_lt (by omega), ← Nat.shiftLeft_add_eq_or_of_lt (by omega),
    ← Nat.shiftLeft_add_eq_or_of_lt (by omega), ← Nat.shiftLeft_add_eq_or_of_lt (by omega),
    ← Nat.shiftLeft_add_eq_or_of_lt (by omega), ← Nat.shiftLeft_add_eq_or_of_lt (by omega),
    ← Nat.shiftLeft_add_eq_or_of_lt (by omega)]
  simp only [Nat.shiftLeft_eq]
  omega

end Sys2Proof.Machine
end

