-- ==== Sys2Proof/Laws/Jobs.lean ====
section
/-! SUPPORT. What the job builders give: the shape of each part, and that SEQ can execute every step of every job of an
accepted configuration (20_memory.md R47: the gates). -/

namespace Sys2Proof.Machine

open Sys2Proof.Safety

variable {c : Config}

/-- `lane(p)` (41_lane_resolver.md R103). -/
theorem laneOf_eq_some {p : PortId} {l : Lane} :
    laneOf c p = some l ↔ resolve c.mapMode p = some l ∧ l.toNat < c.laneCount := by
  unfold laneOf lanePresent
  split
  · rename_i m h
    simp only [decide_eq_true_eq, h]
    constructor
    · intro hm
      split at hm
      · cases hm
        exact ⟨rfl, ‹_›⟩
      · cases hm
    · rintro ⟨hm, hl⟩
      cases hm
      rw [if_pos hl]
  · rename_i h
    simp [h]

/-- What a step of a reset part is. -/
theorem mem_resetJob {p : PortId} {seq : Option (List StepWord)} {t : Tag} {b : BoundStep} (h : b ∈ resetJob c p seq t) :
    ∃ l steps w, laneOf c p = some l ∧ c.hasRst = true ∧ seq = some steps ∧ w ∈ steps ∧
      b = { word := w, lane := some l, tag := t } := by
  unfold resetJob at h
  split at h
  · rename_i l steps hl hr
    simp only [bindAll, List.mem_map] at h
    obtain ⟨w, hw, rfl⟩ := h
    exact ⟨l, steps, w, hl, hr, rfl, hw, rfl⟩
  · simp at h

/-- What a step of a calibration part is. -/
theorem mem_calJob {k : Program} {p : PortId} {b : BoundStep} (h : b ∈ calJob c k p) :
    ∃ l w, laneOf c p = some l ∧ hasPcs c l = true ∧ hasPextp c l = true ∧ w ∈ c.rom.prog.get k ∧
      b = { word := w, lane := some l, tag := .cal k } := by
  unfold calJob at h
  split at h
  · split at h
    · rename_i l hl hh
      simp only [bindAll, List.mem_map] at h
      obtain ⟨w, hw, rfl⟩ := h
      simp only [Bool.and_eq_true] at hh
      exact ⟨l, w, hl, hh.1, hh.2, hw, rfl⟩
    · simp at h
  · simp at h

/-- What a step of a PLL part is. -/
theorem mem_pllJob {b : BoundStep} (h : b ∈ pllJob c) :
    c.hasPll = true ∧ ∃ w ∈ c.rom.pll, b = { word := w, lane := none, tag := .pll } := by
  unfold pllJob at h
  split at h
  · simp only [bindAll, List.mem_map] at h
    obtain ⟨w, hw, rfl⟩ := h
    exact ⟨‹_›, w, hw, rfl⟩
  · simp at h

/-- A step of an accepted ROM is runnable when each class it may access has a domain that exists. -/
theorem runnable_of_classes (h : configOk c = true) {w : StepWord} (hw : w ∈ romWords c.rom) {seq : List StepWord}
    (hs : w ∈ seq) {cs : List DomainClass} (hc : classesIn cs seq = true) {l : Option Lane} {t : Tag}
    (hd : ∀ dc ∈ cs, (boundDomain c dc l).isSome = true) : runnable c { word := w, lane := l, tag := t } = true := by
  obtain ⟨i, hi⟩ := configOk_decodes h hw
  have ha : accessClass w = instrClass i ∨ instrClass i = none := by
    cases i <;> simp [accessClass, hi, instrClass]
  simp only [runnable, hi]
  cases hcl : instrClass i with
  | none => rfl
  | some dc =>
    rw [hcl] at ha
    exact hd dc (class_of_classesIn hc hs (by simpa using ha))

theorem runnable_pllJob (h : configOk c = true) {b : BoundStep} (hb : b ∈ pllJob c) : runnable c b = true := by
  obtain ⟨hp, w, hw, rfl⟩ := mem_pllJob hb
  refine runnable_of_classes h (by simp [romWords, hw]) hw (configOk_classes h).1 ?_
  intro dc hdc
  simp only [List.mem_singleton] at hdc
  subst hdc
  simp [boundDomain, bindClass, domainExists, hp]

theorem runnable_resetJob (h : configOk c = true) {p : PortId} {seq : Option (List StepWord)} {t : Tag}
    (hseq : ∀ steps, seq = some steps → classesIn [.rst] steps = true ∧ ∀ w ∈ steps, w ∈ romWords c.rom)
    {b : BoundStep} (hb : b ∈ resetJob c p seq t) : runnable c b = true := by
  obtain ⟨l, steps, w, -, hr, hs, hw, rfl⟩ := mem_resetJob hb
  obtain ⟨hc, hm⟩ := hseq steps hs
  refine runnable_of_classes h (hm w hw) hw hc ?_
  intro dc hdc
  simp only [List.mem_singleton] at hdc
  subst hdc
  simp [boundDomain, bindClass, domainExists, hr]

theorem runnable_usxJob (h : configOk c = true) {p : PortId} {b : BoundStep} (hb : b ∈ usxJob c p) :
    runnable c b = true := by
  refine runnable_resetJob h (fun steps hs => ?_) hb
  obtain ⟨-, h1, h2, -⟩ := configOk_classes h
  unfold usxSeqOf at hs
  split at hs
  · cases hs
    exact ⟨h1, fun w hw => by simp [romWords, hw]⟩
  · split at hs
    · cases hs
      exact ⟨h2, fun w hw => by simp [romWords, hw]⟩
    · cases hs

theorem runnable_sgmJob (h : configOk c = true) {p : PortId} {b : BoundStep} (hb : b ∈ sgmJob c p) :
    runnable c b = true := by
  refine runnable_resetJob h (fun steps hs => ?_) hb
  obtain ⟨-, -, -, h1, h2, -⟩ := configOk_classes h
  unfold sgmSeqOf at hs
  split at hs
  · cases hs
    exact ⟨h1, fun w hw => by simp [romWords, hw]⟩
  · split at hs
    · cases hs
      exact ⟨h2, fun w hw => by simp [romWords, hw]⟩
    · cases hs

theorem runnable_calJob (h : configOk c = true) {k : Program} {p : PortId} {b : BoundStep} (hb : b ∈ calJob c k p) :
    runnable c b = true := by
  obtain ⟨l, w, -, h1, h2, hw, rfl⟩ := mem_calJob hb
  have hc := (configOk_classes h).2.2.2.2.2 k
  refine runnable_of_classes h ?_ hw hc ?_
  · cases k <;> simp only [PerProgram.get] at hw <;> simp [romWords, hw]
  · intro dc hdc
    simp only [List.mem_cons, List.not_mem_nil, or_false] at hdc
    rcases hdc with rfl | rfl
    · simp [boundDomain, bindClass, domainExists, h1]
    · simp [boundDomain, bindClass, domainExists, h2]

/-- What `decode_and_build` gives: a failure, a job of runnable steps, or the lane fields of QUERY_LANE. -/
theorem build_cases (c : Config) (w : Word) :
    (∃ r, r ≠ .ok ∧ decodeAndBuild c w = Build.failed r) ∨
      (∃ j, decodeAndBuild c w = Build.run j ∧ (configOk c = true → ∀ b ∈ j, runnable c b = true)) ∨
      (∃ p, decodeAndBuild c w = buildQueryLane c p) := by
  have hsetup : ∀ k p, configOk c = true → ∀ b ∈ setupJob c k p, runnable c b = true := by
    intro k p h b hb
    simp only [setupJob, List.mem_append] at hb
    rcases hb with (hb | hb) | hb
    · exact runnable_pllJob h hb
    · exact runnable_usxJob h hb
    · exact runnable_calJob h hb
  unfold decodeAndBuild
  split
  · rename_i i _
    cases i with
    | setupAutoneg x p speed =>
      simp only [buildOf, buildSetupAutoneg]
      split
      · exact .inl ⟨_, by simp, rfl⟩
      · exact .inr (.inl ⟨_, rfl, hsetup _ _⟩)
    | setupForced ifk p x =>
      simp only [buildOf, buildSetupForced]
      split
      · exact .inl ⟨_, by simp, rfl⟩
      · exact .inr (.inl ⟨_, rfl, hsetup _ _⟩)
    | resetLane mode x p y =>
      cases mode
      · exact .inr (.inl ⟨_, rfl, fun h b hb => runnable_usxJob h hb⟩)
      · exact .inr (.inl ⟨_, rfl, fun h b hb => runnable_sgmJob h hb⟩)
    | enablePll x p y =>
      simp only [buildOf, buildEnablePll]
      split
      · exact .inr (.inl ⟨_, rfl, fun h b hb => runnable_pllJob h hb⟩)
      · exact .inl ⟨_, by simp, rfl⟩
    | calibrate prog x p y =>
      simp only [buildOf, buildCalibrate]
      split
      · exact .inr (.inl ⟨_, rfl, fun h b hb => runnable_calJob h hb⟩)
      · exact .inl ⟨_, by simp, rfl⟩
    | queryLane x p y => exact .inr (.inr ⟨p, rfl⟩)
    | wr _ _ _ => exact .inl ⟨_, by simp, rfl⟩
    | rmw _ _ _ _ => exact .inl ⟨_, by simp, rfl⟩
    | dly _ => exact .inl ⟨_, by simp, rfl⟩
  · exact .inl ⟨.invalidArgument, by simp, rfl⟩

/-- Acceptance of a command with a job, or of one whose job is empty. -/
theorem State.accept_run (s : State) (w : Word) (j : List BoundStep) :
    s.accept w (Build.run j) = startedOrDone s w j := by
  unfold State.accept Build.run startedOrDone
  by_cases hj : j = []
  · simp [hj, completedAtOnce, State.latch, State.complete, State.emit, Status.complete, completedStatus, LaneFields.zero]
  · simp [hj, jobStarted, State.latch, State.startJob, State.emit, Status.accept, Status.start]

/-- Acceptance of a command that fails. -/
theorem State.accept_failed (s : State) (w : Word) (r : Result) :
    s.accept w (Build.failed r) = failedAtOnce s w r := by
  simp [State.accept, Build.failed, failedAtOnce, completedAtOnce, State.latch, State.complete, State.emit,
    Status.complete, completedStatus, LaneFields.zero]

/-- Acceptance of QUERY_LANE. -/
theorem State.accept_query (s : State) (w : Word) (p : PortId) :
    s.accept w (buildQueryLane s.cfg p) =
      completedAtOnce s w
        (completedStatus .ok (queryFields s.cfg p).lane (queryFields s.cfg p).present (queryFields s.cfg p).valid) := by
  simp [State.accept, buildQueryLane, completedAtOnce, State.latch, State.complete, State.emit, Status.complete,
    completedStatus]

end Sys2Proof.Machine
end

