-- ==== Sys2Proof/Laws/State.lean ====
section
/-! SUPPORT. One lemma per field and update of State: what each update leaves in each field. All are true by rfl; later
proofs use them instead of unfolding a record update. -/

namespace Sys2Proof.Machine

variable (s : State)

/-! ## State.emit -/

@[simp] theorem State.emit_cfg (e : Event) : (s.emit e).cfg = s.cfg := rfl
@[simp] theorem State.emit_cmd (e : Event) : (s.emit e).cmd = s.cmd := rfl
@[simp] theorem State.emit_status (e : Event) : (s.emit e).status = s.status := rfl
@[simp] theorem State.emit_fsm (e : Event) : (s.emit e).fsm = s.fsm := rfl
@[simp] theorem State.emit_job (e : Event) : (s.emit e).job = s.job := rfl
@[simp] theorem State.emit_spc (e : Event) : (s.emit e).spc = s.spc := rfl
@[simp] theorem State.emit_ph (e : Event) : (s.emit e).ph = s.ph := rfl
@[simp] theorem State.emit_tmr (e : Event) : (s.emit e).tmr = s.tmr := rfl
@[simp] theorem State.emit_res (e : Event) : (s.emit e).res = s.res := rfl
@[simp] theorem State.emit_rd (e : Event) : (s.emit e).rd = s.rd := rfl
@[simp] theorem State.emit_pllDone (e : Event) : (s.emit e).pllDone = s.pllDone := rfl
@[simp] theorem State.emit_redrive (e : Event) : (s.emit e).redrive = s.redrive := rfl
@[simp] theorem State.emit_faults (e : Event) : (s.emit e).faults = s.faults := rfl
@[simp] theorem State.emit_trace (e : Event) : (s.emit e).trace = s.trace ++ [e] := rfl
@[simp] theorem State.emit_draws (e : Event) : (s.emit e).draws = s.draws := rfl
@[simp] theorem State.emit_answers (e : Event) : (s.emit e).answers = s.answers := rfl
@[simp] theorem State.emit_agenda (e : Event) : (s.emit e).agenda = s.agenda := rfl
@[simp] theorem State.emit_hostSeen (e : Event) : (s.emit e).hostSeen = s.hostSeen := rfl

/-! ## State.raise -/

@[simp] theorem State.raise_cfg (h : Hazard) : (s.raise h).cfg = s.cfg := rfl
@[simp] theorem State.raise_cmd (h : Hazard) : (s.raise h).cmd = s.cmd := rfl
@[simp] theorem State.raise_status (h : Hazard) : (s.raise h).status = s.status := rfl
@[simp] theorem State.raise_fsm (h : Hazard) : (s.raise h).fsm = s.fsm := rfl
@[simp] theorem State.raise_job (h : Hazard) : (s.raise h).job = s.job := rfl
@[simp] theorem State.raise_spc (h : Hazard) : (s.raise h).spc = s.spc := rfl
@[simp] theorem State.raise_ph (h : Hazard) : (s.raise h).ph = s.ph := rfl
@[simp] theorem State.raise_tmr (h : Hazard) : (s.raise h).tmr = s.tmr := rfl
@[simp] theorem State.raise_res (h : Hazard) : (s.raise h).res = s.res := rfl
@[simp] theorem State.raise_rd (h : Hazard) : (s.raise h).rd = s.rd := rfl
@[simp] theorem State.raise_pllDone (h : Hazard) : (s.raise h).pllDone = s.pllDone := rfl
@[simp] theorem State.raise_redrive (h : Hazard) : (s.raise h).redrive = s.redrive := rfl
@[simp] theorem State.raise_faults (h : Hazard) : (s.raise h).faults = s.faults.insert h := rfl
@[simp] theorem State.raise_trace (h : Hazard) : (s.raise h).trace = s.trace := rfl
@[simp] theorem State.raise_draws (h : Hazard) : (s.raise h).draws = s.draws := rfl
@[simp] theorem State.raise_answers (h : Hazard) : (s.raise h).answers = s.answers := rfl
@[simp] theorem State.raise_agenda (h : Hazard) : (s.raise h).agenda = s.agenda := rfl
@[simp] theorem State.raise_hostSeen (h : Hazard) : (s.raise h).hostSeen = s.hostSeen := rfl

/-! ## State.domWrite -/

@[simp] theorem State.domWrite_cfg (dom : Domain) (off v : Word) : (s.domWrite dom off v).cfg = s.cfg := rfl
@[simp] theorem State.domWrite_cmd (dom : Domain) (off v : Word) : (s.domWrite dom off v).cmd = s.cmd := rfl
@[simp] theorem State.domWrite_status (dom : Domain) (off v : Word) : (s.domWrite dom off v).status = s.status := rfl
@[simp] theorem State.domWrite_fsm (dom : Domain) (off v : Word) : (s.domWrite dom off v).fsm = s.fsm := rfl
@[simp] theorem State.domWrite_job (dom : Domain) (off v : Word) : (s.domWrite dom off v).job = s.job := rfl
@[simp] theorem State.domWrite_spc (dom : Domain) (off v : Word) : (s.domWrite dom off v).spc = s.spc := rfl
@[simp] theorem State.domWrite_ph (dom : Domain) (off v : Word) : (s.domWrite dom off v).ph = s.ph := rfl
@[simp] theorem State.domWrite_tmr (dom : Domain) (off v : Word) : (s.domWrite dom off v).tmr = s.tmr := rfl
@[simp] theorem State.domWrite_res (dom : Domain) (off v : Word) : (s.domWrite dom off v).res = s.res := rfl
@[simp] theorem State.domWrite_rd (dom : Domain) (off v : Word) : (s.domWrite dom off v).rd = s.rd := rfl
@[simp] theorem State.domWrite_pllDone (dom : Domain) (off v : Word) : (s.domWrite dom off v).pllDone = s.pllDone := rfl
@[simp] theorem State.domWrite_redrive (dom : Domain) (off v : Word) : (s.domWrite dom off v).redrive = s.redrive := rfl
@[simp] theorem State.domWrite_faults (dom : Domain) (off v : Word) : (s.domWrite dom off v).faults = s.faults := rfl
@[simp] theorem State.domWrite_trace (dom : Domain) (off v : Word) : (s.domWrite dom off v).trace = s.trace ++ [.wr dom off v] := rfl
@[simp] theorem State.domWrite_draws (dom : Domain) (off v : Word) : (s.domWrite dom off v).draws = s.draws := rfl
@[simp] theorem State.domWrite_answers (dom : Domain) (off v : Word) : (s.domWrite dom off v).answers = s.answers := rfl
@[simp] theorem State.domWrite_agenda (dom : Domain) (off v : Word) : (s.domWrite dom off v).agenda = s.agenda := rfl
@[simp] theorem State.domWrite_hostSeen (dom : Domain) (off v : Word) : (s.domWrite dom off v).hostSeen = s.hostSeen := rfl

/-! ## State.advance -/

@[simp] theorem State.advance_cfg : s.advance.cfg = s.cfg := rfl
@[simp] theorem State.advance_cmd : s.advance.cmd = s.cmd := rfl
@[simp] theorem State.advance_status : s.advance.status = s.status := rfl
@[simp] theorem State.advance_fsm : s.advance.fsm = s.fsm := rfl
@[simp] theorem State.advance_job : s.advance.job = s.job := rfl
@[simp] theorem State.advance_spc : s.advance.spc = s.spc + 1 := rfl
@[simp] theorem State.advance_ph : s.advance.ph = .issue := rfl
@[simp] theorem State.advance_tmr : s.advance.tmr = s.tmr := rfl
@[simp] theorem State.advance_res : s.advance.res = s.res := rfl
@[simp] theorem State.advance_rd : s.advance.rd = s.rd := rfl
@[simp] theorem State.advance_pllDone : s.advance.pllDone = s.pllDone := rfl
@[simp] theorem State.advance_redrive : s.advance.redrive = s.redrive := rfl
@[simp] theorem State.advance_faults : s.advance.faults = s.faults := rfl
@[simp] theorem State.advance_trace : s.advance.trace = s.trace := rfl
@[simp] theorem State.advance_draws : s.advance.draws = s.draws := rfl
@[simp] theorem State.advance_answers : s.advance.answers = s.answers := rfl
@[simp] theorem State.advance_agenda : s.advance.agenda = s.agenda := rfl
@[simp] theorem State.advance_hostSeen : s.advance.hostSeen = s.hostSeen := rfl

/-! ## State.latch -/

@[simp] theorem State.latch_cfg (w : Word) : (s.latch w).cfg = s.cfg := rfl
@[simp] theorem State.latch_cmd (w : Word) : (s.latch w).cmd = w := rfl
@[simp] theorem State.latch_status (w : Word) : (s.latch w).status = s.status.accept := rfl
@[simp] theorem State.latch_fsm (w : Word) : (s.latch w).fsm = s.fsm := rfl
@[simp] theorem State.latch_job (w : Word) : (s.latch w).job = s.job := rfl
@[simp] theorem State.latch_spc (w : Word) : (s.latch w).spc = s.spc := rfl
@[simp] theorem State.latch_ph (w : Word) : (s.latch w).ph = s.ph := rfl
@[simp] theorem State.latch_tmr (w : Word) : (s.latch w).tmr = s.tmr := rfl
@[simp] theorem State.latch_res (w : Word) : (s.latch w).res = s.res := rfl
@[simp] theorem State.latch_rd (w : Word) : (s.latch w).rd = s.rd := rfl
@[simp] theorem State.latch_pllDone (w : Word) : (s.latch w).pllDone = s.pllDone := rfl
@[simp] theorem State.latch_redrive (w : Word) : (s.latch w).redrive = s.redrive := rfl
@[simp] theorem State.latch_faults (w : Word) : (s.latch w).faults = s.faults := rfl
@[simp] theorem State.latch_trace (w : Word) : (s.latch w).trace = s.trace ++ [.cmd w] := rfl
@[simp] theorem State.latch_draws (w : Word) : (s.latch w).draws = s.draws := rfl
@[simp] theorem State.latch_answers (w : Word) : (s.latch w).answers = s.answers := rfl
@[simp] theorem State.latch_agenda (w : Word) : (s.latch w).agenda = s.agenda := rfl
@[simp] theorem State.latch_hostSeen (w : Word) : (s.latch w).hostSeen = s.hostSeen := rfl

/-! ## State.startJob -/

@[simp] theorem State.startJob_cfg (j : List BoundStep) : (s.startJob j).cfg = s.cfg := rfl
@[simp] theorem State.startJob_cmd (j : List BoundStep) : (s.startJob j).cmd = s.cmd := rfl
@[simp] theorem State.startJob_status (j : List BoundStep) : (s.startJob j).status = s.status.start := rfl
@[simp] theorem State.startJob_fsm (j : List BoundStep) : (s.startJob j).fsm = .run := rfl
@[simp] theorem State.startJob_job (j : List BoundStep) : (s.startJob j).job = j := rfl
@[simp] theorem State.startJob_spc (j : List BoundStep) : (s.startJob j).spc = 0 := rfl
@[simp] theorem State.startJob_ph (j : List BoundStep) : (s.startJob j).ph = .issue := rfl
@[simp] theorem State.startJob_tmr (j : List BoundStep) : (s.startJob j).tmr = s.tmr := rfl
@[simp] theorem State.startJob_res (j : List BoundStep) : (s.startJob j).res = .ok := rfl
@[simp] theorem State.startJob_rd (j : List BoundStep) : (s.startJob j).rd = s.rd := rfl
@[simp] theorem State.startJob_pllDone (j : List BoundStep) : (s.startJob j).pllDone = s.pllDone := rfl
@[simp] theorem State.startJob_redrive (j : List BoundStep) : (s.startJob j).redrive = s.redrive := rfl
@[simp] theorem State.startJob_faults (j : List BoundStep) : (s.startJob j).faults = s.faults := rfl
@[simp] theorem State.startJob_trace (j : List BoundStep) : (s.startJob j).trace = s.trace := rfl
@[simp] theorem State.startJob_draws (j : List BoundStep) : (s.startJob j).draws = s.draws := rfl
@[simp] theorem State.startJob_answers (j : List BoundStep) : (s.startJob j).answers = s.answers := rfl
@[simp] theorem State.startJob_agenda (j : List BoundStep) : (s.startJob j).agenda = s.agenda := rfl
@[simp] theorem State.startJob_hostSeen (j : List BoundStep) : (s.startJob j).hostSeen = s.hostSeen := rfl

/-! ## State.complete -/

@[simp] theorem State.complete_cfg (r : Result) (lf : LaneFields) : (s.complete r lf).cfg = s.cfg := rfl
@[simp] theorem State.complete_cmd (r : Result) (lf : LaneFields) : (s.complete r lf).cmd = s.cmd := rfl
@[simp] theorem State.complete_status (r : Result) (lf : LaneFields) : (s.complete r lf).status = Status.complete r lf := rfl
@[simp] theorem State.complete_fsm (r : Result) (lf : LaneFields) : (s.complete r lf).fsm = .idle := rfl
@[simp] theorem State.complete_job (r : Result) (lf : LaneFields) : (s.complete r lf).job = [] := rfl
@[simp] theorem State.complete_spc (r : Result) (lf : LaneFields) : (s.complete r lf).spc = 0 := rfl
@[simp] theorem State.complete_ph (r : Result) (lf : LaneFields) : (s.complete r lf).ph = .issue := rfl
@[simp] theorem State.complete_tmr (r : Result) (lf : LaneFields) : (s.complete r lf).tmr = s.tmr := rfl
@[simp] theorem State.complete_res (r : Result) (lf : LaneFields) : (s.complete r lf).res = s.res := rfl
@[simp] theorem State.complete_rd (r : Result) (lf : LaneFields) : (s.complete r lf).rd = s.rd := rfl
@[simp] theorem State.complete_pllDone (r : Result) (lf : LaneFields) : (s.complete r lf).pllDone = s.pllDone := rfl
@[simp] theorem State.complete_redrive (r : Result) (lf : LaneFields) : (s.complete r lf).redrive = s.redrive := rfl
@[simp] theorem State.complete_faults (r : Result) (lf : LaneFields) : (s.complete r lf).faults = s.faults := rfl
@[simp] theorem State.complete_trace (r : Result) (lf : LaneFields) : (s.complete r lf).trace = s.trace ++ [.done (statusWord (Status.complete r lf))] := rfl
@[simp] theorem State.complete_draws (r : Result) (lf : LaneFields) : (s.complete r lf).draws = s.draws := rfl
@[simp] theorem State.complete_answers (r : Result) (lf : LaneFields) : (s.complete r lf).answers = s.answers := rfl
@[simp] theorem State.complete_agenda (r : Result) (lf : LaneFields) : (s.complete r lf).agenda = s.agenda := rfl
@[simp] theorem State.complete_hostSeen (r : Result) (lf : LaneFields) : (s.complete r lf).hostSeen = s.hostSeen := rfl

/-! ## State.pllInterrupted -/

@[simp] theorem State.pllInterrupted_cfg : s.pllInterrupted.cfg = s.cfg := rfl
@[simp] theorem State.pllInterrupted_cmd : s.pllInterrupted.cmd = s.cmd := rfl
@[simp] theorem State.pllInterrupted_status : s.pllInterrupted.status = s.status := rfl
@[simp] theorem State.pllInterrupted_fsm : s.pllInterrupted.fsm = s.fsm := rfl
@[simp] theorem State.pllInterrupted_job : s.pllInterrupted.job = s.job := rfl
@[simp] theorem State.pllInterrupted_spc : s.pllInterrupted.spc = s.spc := rfl
@[simp] theorem State.pllInterrupted_ph : s.pllInterrupted.ph = s.ph := rfl
@[simp] theorem State.pllInterrupted_tmr : s.pllInterrupted.tmr = s.tmr := rfl
@[simp] theorem State.pllInterrupted_res : s.pllInterrupted.res = s.res := rfl
@[simp] theorem State.pllInterrupted_rd : s.pllInterrupted.rd = s.rd := rfl
@[simp] theorem State.pllInterrupted_pllDone : s.pllInterrupted.pllDone = false := rfl
@[simp] theorem State.pllInterrupted_redrive : s.pllInterrupted.redrive = s.redrive.map fun _ => .dirty := rfl
@[simp] theorem State.pllInterrupted_faults : s.pllInterrupted.faults = s.faults := rfl
@[simp] theorem State.pllInterrupted_trace : s.pllInterrupted.trace = s.trace := rfl
@[simp] theorem State.pllInterrupted_draws : s.pllInterrupted.draws = s.draws := rfl
@[simp] theorem State.pllInterrupted_answers : s.pllInterrupted.answers = s.answers := rfl
@[simp] theorem State.pllInterrupted_agenda : s.pllInterrupted.agenda = s.agenda := rfl
@[simp] theorem State.pllInterrupted_hostSeen : s.pllInterrupted.hostSeen = s.hostSeen := rfl

/-! ## State.freeRd -/

@[simp] theorem State.freeRd_cfg : s.freeRd.cfg = s.cfg := rfl
@[simp] theorem State.freeRd_cmd : s.freeRd.cmd = s.cmd := rfl
@[simp] theorem State.freeRd_status : s.freeRd.status = s.status := rfl
@[simp] theorem State.freeRd_fsm : s.freeRd.fsm = s.fsm := rfl
@[simp] theorem State.freeRd_job : s.freeRd.job = s.job := rfl
@[simp] theorem State.freeRd_spc : s.freeRd.spc = s.spc := rfl
@[simp] theorem State.freeRd_ph : s.freeRd.ph = s.ph := rfl
@[simp] theorem State.freeRd_tmr : s.freeRd.tmr = s.tmr := rfl
@[simp] theorem State.freeRd_res : s.freeRd.res = s.res := rfl
@[simp] theorem State.freeRd_rd : s.freeRd.rd = Config.freeWord s.draws := rfl
@[simp] theorem State.freeRd_pllDone : s.freeRd.pllDone = s.pllDone := rfl
@[simp] theorem State.freeRd_redrive : s.freeRd.redrive = s.redrive := rfl
@[simp] theorem State.freeRd_faults : s.freeRd.faults = s.faults := rfl
@[simp] theorem State.freeRd_trace : s.freeRd.trace = s.trace := rfl
@[simp] theorem State.freeRd_draws : s.freeRd.draws = s.draws + 1 := rfl
@[simp] theorem State.freeRd_answers : s.freeRd.answers = s.answers := rfl
@[simp] theorem State.freeRd_agenda : s.freeRd.agenda = s.agenda := rfl
@[simp] theorem State.freeRd_hostSeen : s.freeRd.hostSeen = s.hostSeen := rfl

/-! ## State.hostRead -/

@[simp] theorem State.hostRead_cfg (off : Nat) : (s.hostRead off).cfg = s.cfg := rfl
@[simp] theorem State.hostRead_cmd (off : Nat) : (s.hostRead off).cmd = s.cmd := rfl
@[simp] theorem State.hostRead_status (off : Nat) : (s.hostRead off).status = s.status := rfl
@[simp] theorem State.hostRead_fsm (off : Nat) : (s.hostRead off).fsm = s.fsm := rfl
@[simp] theorem State.hostRead_job (off : Nat) : (s.hostRead off).job = s.job := rfl
@[simp] theorem State.hostRead_spc (off : Nat) : (s.hostRead off).spc = s.spc := rfl
@[simp] theorem State.hostRead_ph (off : Nat) : (s.hostRead off).ph = s.ph := rfl
@[simp] theorem State.hostRead_tmr (off : Nat) : (s.hostRead off).tmr = s.tmr := rfl
@[simp] theorem State.hostRead_res (off : Nat) : (s.hostRead off).res = s.res := rfl
@[simp] theorem State.hostRead_rd (off : Nat) : (s.hostRead off).rd = s.rd := rfl
@[simp] theorem State.hostRead_pllDone (off : Nat) : (s.hostRead off).pllDone = s.pllDone := rfl
@[simp] theorem State.hostRead_redrive (off : Nat) : (s.hostRead off).redrive = s.redrive := rfl
@[simp] theorem State.hostRead_faults (off : Nat) : (s.hostRead off).faults = s.faults := rfl
@[simp] theorem State.hostRead_trace (off : Nat) : (s.hostRead off).trace = s.trace := rfl
@[simp] theorem State.hostRead_draws (off : Nat) : (s.hostRead off).draws = s.draws := rfl
@[simp] theorem State.hostRead_answers (off : Nat) : (s.hostRead off).answers = s.answers := rfl
@[simp] theorem State.hostRead_agenda (off : Nat) : (s.hostRead off).agenda = s.agenda := rfl
@[simp] theorem State.hostRead_hostSeen (off : Nat) : (s.hostRead off).hostSeen = s.hostSeen ++ [s.windowRead off] := rfl

/-! ## Status -/

@[simp] theorem Status.accept_busy (t : Status) : t.accept.busy = t.busy := rfl
@[simp] theorem Status.accept_done (t : Status) : t.accept.done = false := rfl
@[simp] theorem Status.accept_result (t : Status) : t.accept.result = t.result := rfl
@[simp] theorem Status.accept_laneValid (t : Status) : t.accept.laneValid = t.laneValid := rfl
@[simp] theorem Status.accept_lanePresent (t : Status) : t.accept.lanePresent = t.lanePresent := rfl
@[simp] theorem Status.accept_lane (t : Status) : t.accept.lane = t.lane := rfl
@[simp] theorem Status.start_busy (t : Status) : t.start.busy = true := rfl
@[simp] theorem Status.start_done (t : Status) : t.start.done = t.done := rfl
@[simp] theorem Status.start_result (t : Status) : t.start.result = t.result := rfl
@[simp] theorem Status.start_laneValid (t : Status) : t.start.laneValid = t.laneValid := rfl
@[simp] theorem Status.start_lanePresent (t : Status) : t.start.lanePresent = t.lanePresent := rfl
@[simp] theorem Status.start_lane (t : Status) : t.start.lane = t.lane := rfl
@[simp] theorem Status.complete_busy (r : Result) (lf : LaneFields) : (Status.complete r lf).busy = false := rfl
@[simp] theorem Status.complete_done (r : Result) (lf : LaneFields) : (Status.complete r lf).done = true := rfl
@[simp] theorem Status.complete_result (r : Result) (lf : LaneFields) : (Status.complete r lf).result = r := rfl
@[simp] theorem Status.complete_laneValid (r : Result) (lf : LaneFields) : (Status.complete r lf).laneValid = lf.valid := rfl
@[simp] theorem Status.complete_lanePresent (r : Result) (lf : LaneFields) :
    (Status.complete r lf).lanePresent = lf.present := rfl
@[simp] theorem Status.complete_lane (r : Result) (lf : LaneFields) : (Status.complete r lf).lane = lf.lane := rfl

/-! ## Hazards -/

@[simp] theorem HazardSet.mem_insert_self (f : HazardSet) (h : Hazard) : (f.insert h).mem h = true := by cases h <;> rfl
@[simp] theorem HazardSet.mem_empty (h : Hazard) : HazardSet.empty.mem h = false := by cases h <;> rfl

theorem HazardSet.mem_insert (f : HazardSet) (h g : Hazard) : (f.insert h).mem g = (f.mem g || h == g) := by
  cases h <;> cases g <;> simp [HazardSet.insert, HazardSet.mem]

end Sys2Proof.Machine
end

