-- ==== Sys2Proof/Laws/Ops.lean ====
section
/-! SUPPORT. One lemma per shared operation that says everything it can do, as an equation with a record update or as an
inversion; later proofs cite these instead of unfolding the operations. -/

namespace Sys2Proof.Machine

/-! ## Reads -/

theorem State.answered_eq (s : State) :
    s.answered = { s with answers := s.answers.tail, draws := if s.answers = [] then s.draws + 1 else s.draws } := by
  obtain h | ⟨v, rest, h⟩ : s.answers = [] ∨ ∃ v rest, s.answers = v :: rest := by
    cases s.answers <;> simp
  · cases s; simp_all [State.answered]
  · cases s; simp_all [State.answered]

theorem State.domRead_eq (s : State) (dom : Domain) (off : Word) :
    s.domRead dom off =
      { s with
        rd := s.nextAnswer
        trace := s.trace ++ [.rd dom off s.nextAnswer]
        answers := s.answers.tail
        draws := if s.answers = [] then s.draws + 1 else s.draws } := by
  simp [State.domRead, State.answered_eq]

/-! ## Ghost state -/

/-- What `setRedrive` leaves in the list. -/
def redriveSet (rv : List Redrive) (l : Option Lane) (r : Redrive) : List Redrive :=
  match l with
  | some l => rv.set l.toNat r
  | none => rv

@[simp] theorem redriveSet_length (rv : List Redrive) (l : Option Lane) (r : Redrive) :
    (redriveSet rv l r).length = rv.length := by
  cases l <;> simp [redriveSet]

theorem State.setRedrive_eq (s : State) (l : Option Lane) (r : Redrive) :
    s.setRedrive l r = { s with redrive := redriveSet s.redrive l r } := by
  cases l <;> rfl

theorem State.startStep_eq (s : State) (b : BoundStep) :
    s.startStep b =
      { s with
        faults :=
          if b.tag.isCal && !s.pllDone && !hasBefore s.job s.spc b.tag then s.faults.insert .calNoPll else s.faults } := by
  unfold State.startStep
  split <;> rfl

/-- What a completed part leaves in `pll_done`. -/
def pllDoneAfter (pd : Bool) : Tag → Bool
  | .pll => true
  | _ => pd

/-- What a completed part leaves in `redrive`. -/
def redriveAfter (pd : Bool) (rv : List Redrive) (b : BoundStep) : List Redrive :=
  match b.tag with
  | .pll => rv
  | .usxRst => redriveSet rv b.lane (redriveAfterReset pd)
  | .sgmRst => redriveSet rv b.lane (redriveAfterReset pd)
  | .cal _ =>
    redriveSet rv b.lane (redriveAfterCal pd ((b.lane.map fun l => rv.getD l.toNat .dirty).getD .dirty))

@[simp] theorem redriveAfter_length (pd : Bool) (rv : List Redrive) (b : BoundStep) :
    (redriveAfter pd rv b).length = rv.length := by
  unfold redriveAfter
  split <;> simp

theorem State.partCompleted_eq (s : State) (b : BoundStep) :
    s.partCompleted b =
      { s with pllDone := pllDoneAfter s.pllDone b.tag, redrive := redriveAfter s.pllDone s.redrive b } := by
  unfold State.partCompleted redriveAfter pllDoneAfter
  cases b.tag with
  | pll => rfl
  | usxRst => simp [State.setRedrive_eq]
  | sgmRst => simp [State.setRedrive_eq]
  | cal k =>
    simp [State.setRedrive_eq]
    rfl

theorem State.completeStep_eq (s : State) (b : BoundStep) :
    s.completeStep b =
      { s with
        spc := s.spc + 1
        ph := .issue
        pllDone := if hasFrom s.job (s.spc + 1) b.tag then s.pllDone else pllDoneAfter s.pllDone b.tag
        redrive := if hasFrom s.job (s.spc + 1) b.tag then s.redrive else redriveAfter s.pllDone s.redrive b } := by
  unfold State.completeStep
  split <;> simp [State.partCompleted_eq, State.advance]

/-! ## The parts that take a continuation -/

theorem State.withStep_of (s : State) (k : BoundStep → Host.Outcome State Fault Refusal) {b : BoundStep}
    (hf : s.fsm = .run) (hb : s.job[s.spc]? = some b) : s.withStep k = k b := by
  simp [State.withStep, hf, hb]

theorem State.withStep_next {s t : State} {k : BoundStep → Host.Outcome State Fault Refusal}
    (h : s.withStep k = .next t) : ∃ b, s.fsm = .run ∧ s.job[s.spc]? = some b ∧ k b = .next t := by
  unfold State.withStep at h
  split at h
  · exact ⟨_, ‹_›, ‹_›, h⟩
  · cases h

theorem State.withDomain_of (s : State) {dc : DomainClass} {l : Option Lane} {dom : Domain}
    (k : Domain → Host.Outcome State Fault Refusal) (h : boundDomain s.cfg dc l = some dom) :
    s.withDomain dc l k = k dom := by
  simp [State.withDomain, h]

theorem State.withDomain_next {s t : State} {dc : DomainClass} {l : Option Lane}
    {k : Domain → Host.Outcome State Fault Refusal} (h : s.withDomain dc l k = .next t) :
    ∃ dom, boundDomain s.cfg dc l = some dom ∧ k dom = .next t := by
  unfold State.withDomain at h
  split at h
  · exact ⟨_, ‹_›, h⟩
  · cases h

theorem boundDomain_eq_some {c : Config} {dc : DomainClass} {l : Option Lane} {dom : Domain} :
    boundDomain c dc l = some dom ↔ bindClass dc l = some dom ∧ domainExists c dom = true := by
  simp [boundDomain, Option.filter_eq_some_iff]

/-! ## The instructions -/

/-- The state a step that completes leaves behind when it appends the events `es` (40_steps.md R88). -/
def State.stepDone (s : State) (b : BoundStep) (es : List Event) : State :=
  { s with
    trace := s.trace ++ es
    spc := s.spc + 1
    ph := .issue
    pllDone := if hasFrom s.job (s.spc + 1) b.tag then s.pllDone else pllDoneAfter s.pllDone b.tag
    redrive := if hasFrom s.job (s.spc + 1) b.tag then s.redrive else redriveAfter s.pllDone s.redrive b }

/-- What `exec` of WR can do. -/
theorem execWr_next {dc : DomainClass} {off val : Word} {s t : State} (h : execWr dc off val s = .next t) :
    ∃ b dom, s.fsm = .run ∧ s.job[s.spc]? = some b ∧ s.ph = .issue ∧ boundDomain s.cfg dc b.lane = some dom ∧
      t = (s.startStep b).stepDone b [.wr dom off val] := by
  obtain ⟨b, hf, hb, h⟩ := State.withStep_next h
  split at h
  · obtain ⟨dom, hd, h⟩ := State.withDomain_next h
    refine ⟨b, dom, hf, hb, ‹_›, hd, ?_⟩
    cases h
    simp [State.completeStep_eq, State.stepDone, State.domWrite, State.emit]
  · cases h
  · cases h

/-- What `exec` of RMW can do. -/
theorem execRmw_next {dc : DomainClass} {off mask val : Word} {s t : State} (h : execRmw dc off mask val s = .next t) :
    ∃ b dom, s.fsm = .run ∧ s.job[s.spc]? = some b ∧ boundDomain s.cfg dc b.lane = some dom ∧
      ((s.ph = .issue ∧ t = { (s.startStep b).domRead dom off with ph := .rmwWb }) ∨
       (s.ph = .rmwWb ∧ t = s.stepDone b [.wr dom off (mergeMasked s.rd mask val)])) := by
  obtain ⟨b, hf, hb, h⟩ := State.withStep_next h
  split at h
  · obtain ⟨dom, hd, h⟩ := State.withDomain_next h
    cases h
    exact ⟨b, dom, hf, hb, hd, .inl ⟨‹_›, rfl⟩⟩
  · obtain ⟨dom, hd, h⟩ := State.withDomain_next h
    refine ⟨b, dom, hf, hb, hd, .inr ⟨‹_›, ?_⟩⟩
    cases h
    simp [State.completeStep_eq, State.stepDone, State.domWrite, State.emit]
  · cases h

theorem State.dlyDone_eq (s : State) (b : BoundStep) (d : Word) : s.dlyDone b d = s.stepDone b [.dly d] := by
  simp [State.dlyDone, State.completeStep_eq, State.stepDone, State.emit]

/-- What `exec` of DLY can do. -/
theorem execDly_next {d : Word} {s t : State} (h : execDly d s = .next t) :
    ∃ b, s.fsm = .run ∧ s.job[s.spc]? = some b ∧
      ((s.ph = .issue ∧ timerLoad s.cfg.tickNs d = 0 ∧
          t = ({ s.startStep b with tmr := 0 }).stepDone b [.dly d]) ∨
       (s.ph = .issue ∧ timerLoad s.cfg.tickNs d ≠ 0 ∧
          t = { s.startStep b with tmr := timerLoad s.cfg.tickNs d, ph := .wait }) ∨
       (s.ph = .wait ∧ s.tmr = 0 ∧ t = s.stepDone b [.dly d]) ∨
       (s.ph = .wait ∧ s.tmr ≠ 0 ∧ t = { s with tmr := s.tmr - 1 })) := by
  obtain ⟨b, hf, hb, h⟩ := State.withStep_next h
  refine ⟨b, hf, hb, ?_⟩
  split at h
  · rename_i hp
    by_cases h0 : timerLoad s.cfg.tickNs d = 0
    · simp only [h0, if_true] at h
      cases h
      exact .inl ⟨hp, h0, by rw [State.dlyDone_eq]⟩
    · simp only [h0, if_false] at h
      cases h
      exact .inr (.inl ⟨hp, h0, rfl⟩)
  · rename_i hp
    by_cases h0 : s.tmr = 0
    · simp only [h0, if_true] at h
      cases h
      exact .inr (.inr (.inl ⟨hp, h0, by rw [State.dlyDone_eq]⟩))
    · simp only [h0, if_false] at h
      cases h
      exact .inr (.inr (.inr ⟨hp, h0, rfl⟩))
  · cases h

/-! ## Commands -/

open Sys2Proof.Safety in
theorem State.accept_eq (s : State) (w : Word) (b : Build) :
    s.accept w b =
      if b.result ≠ .ok ∨ b.job = [] then
        completedAtOnce s w (completedStatus b.result b.lanes.lane b.lanes.present b.lanes.valid)
      else jobStarted s w b.job := by
  unfold State.accept
  split
  · simp [State.complete, State.latch, State.emit, completedAtOnce, completedStatus, Status.complete]
  · simp [State.startJob, State.latch, State.emit, jobStarted, Status.start, Status.accept]

theorem State.writeCmd_idle {s : State} (h : s.fsm = .idle) (w : Word) (b : Build) : s.writeCmd w b = s.accept w b := by
  simp [State.writeCmd, h]

theorem State.writeCmd_run {s : State} (h : s.fsm = .run) (w : Word) (b : Build) : s.writeCmd w b = s.raise .busy := by
  simp [State.writeCmd, h]

open Sys2Proof.Safety in
/-- A command word that decodes is written by the command's own meaning. -/
theorem exec_command {w : Word} {i : Instr} (h : decodeCmd w = .ok i) : isCommand i = true := by
  unfold decodeCmd at h
  split at h <;> cases h <;> rfl

/-! ## Block reset -/

theorem State.stepInterrupted_eq (s : State) (b : BoundStep) :
    s.stepInterrupted b =
      { s with
        redrive := if b.tag ≠ .pll ∧ hasFrom s.job s.spc b.tag then redriveSet s.redrive b.lane .dirty else s.redrive } := by
  unfold State.stepInterrupted
  split <;> simp [State.setRedrive_eq]

/-- The ghost updates of interrupted reset and calibration parts change `redrive` only. -/
theorem State.foldl_stepInterrupted (l : List BoundStep) (s : State) :
    ∃ rv, rv.length = s.redrive.length ∧ l.foldl State.stepInterrupted s = { s with redrive := rv } := by
  induction l generalizing s with
  | nil => exact ⟨s.redrive, rfl, rfl⟩
  | cons b l ih =>
    obtain ⟨rv, hl, h⟩ := ih (s.stepInterrupted b)
    refine ⟨rv, ?_, ?_⟩
    · rw [hl, State.stepInterrupted_eq]
      dsimp only
      split <;> simp
    · rw [List.foldl_cons, h, State.stepInterrupted_eq]

/-- An interruption changes `pll_done` and `redrive` only. -/
theorem State.interrupted_eq (s : State) :
    ∃ pd rv, rv.length = s.redrive.length ∧ s.interrupted = { s with pllDone := pd, redrive := rv } := by
  unfold State.interrupted
  dsimp only
  split
  · obtain ⟨rv, hl, h⟩ := State.foldl_stepInterrupted (startedSteps s.job s.spc s.ph) s.pllInterrupted
    exact ⟨false, rv, by simpa using hl, by rw [h]; rfl⟩
  · obtain ⟨rv, hl, h⟩ := State.foldl_stepInterrupted (startedSteps s.job s.spc s.ph) s
    exact ⟨s.pllDone, rv, hl, by rw [h]⟩

/-- Block reset writes the hardware state, draws RD, and appends `Rst`; the rest it leaves, but for `pll_done` and
`redrive`, which keep their values in IDLE. -/
theorem State.blockReset_eq (s : State) :
    ∃ pd rv, rv.length = s.redrive.length ∧ (s.fsm = .idle → pd = s.pllDone ∧ rv = s.redrive) ∧
      s.blockReset =
        { s with
          cmd := 0
          status := Status.zero
          fsm := .idle
          job := []
          spc := 0
          ph := .issue
          tmr := 0
          res := .ok
          rd := Config.freeWord s.draws
          draws := s.draws + 1
          pllDone := pd
          redrive := rv
          trace := s.trace ++ [.rst] } := by
  cases hf : s.fsm with
  | idle =>
    exact ⟨s.pllDone, s.redrive, rfl, fun _ => ⟨rfl, rfl⟩, by simp [State.blockReset, hf, State.freeRd, State.emit]⟩
  | run =>
    obtain ⟨pd, rv, hl, h⟩ := s.interrupted_eq
    exact ⟨pd, rv, hl, (by simp), by simp [State.blockReset, hf, h, State.freeRd, State.emit]⟩

end Sys2Proof.Machine
end

