-- ==== Sys2Proof/Laws/PerInstr.lean ====
section
/-! SUPPORT. Statements for all instructions, made per instruction. `EncodedLength`: a command is one word, a step four
(30_encoding.md R64). -/

namespace Sys2Proof.Laws.EncodedLength

open Sys2Proof.Safety

/-- The number of words an instruction takes (30_encoding.md R64). -/
def Statement (i : Instr) : Prop := (encode i).length = if isCommand i then 1 else 4

theorem setupAutoneg (sub : BitVec 4) (port : PortId) (speed : Speed) : Statement (.setupAutoneg sub port speed) := rfl

theorem setupForced (ifk : BitVec 4) (port : PortId) (speed : Speed) : Statement (.setupForced ifk port speed) := rfl

theorem resetLane (mode : ResetMode) (subHi : BitVec 3) (port : PortId) (speed : Speed) :
    Statement (.resetLane mode subHi port speed) := rfl

theorem enablePll (sub : BitVec 4) (port : PortId) (speed : Speed) : Statement (.enablePll sub port speed) := rfl

theorem calibrate (prog : BitVec 3) (subHi : BitVec 1) (port : PortId) (speed : Speed) :
    Statement (.calibrate prog subHi port speed) := rfl

theorem queryLane (sub : BitVec 4) (port : PortId) (speed : Speed) : Statement (.queryLane sub port speed) := rfl

theorem wr (dc : DomainClass) (off val : Word) : Statement (.wr dc off val) := rfl

theorem rmw (dc : DomainClass) (off mask val : Word) : Statement (.rmw dc off mask val) := rfl

theorem dly (d : Word) : Statement (.dly d) := rfl

end Sys2Proof.Laws.EncodedLength
end

