-- ==== Sys2Proof/Laws/Step.lean ====
section
/-! SUPPORT. What one step can do, said once: the step's move, the effect of each move, and the effect of each phase of a
step instruction. -/

namespace Sys2Proof.Machine

open Sys2Proof.Safety

/-! ## Commands -/

/-- The meaning of the command a word decodes to is the host's write of that word. -/
theorem exec_of_decodeCmd {w : Word} {i : Instr} (h : decodeCmd w = .ok i) (s : State) :
    exec i s = .next (s.writeCmd w (buildOf s.cfg i)) := by
  have hw := Cmd32.word_fields w
  unfold decodeCmd at h
  split at h <;> cases h <;> simp only [*] at hw
  · simp only [exec, execSetupAutoneg, buildOf, hw]
  · simp only [exec, execSetupForced, buildOf, hw]
  · have e : (Cmd32.sub w).extractLsb' 1 3 ++ (ResetMode.ofBit ((Cmd32.sub w).extractLsb' 0 1)).toBit = Cmd32.sub w := by
      rw [ResetMode.toBit_ofBit]
      generalize Cmd32.sub w = x
      revert x
      decide
    simp only [exec, execResetLane, buildOf, e, hw]
  · simp only [exec, execEnablePll, buildOf, hw]
  · have e : (Cmd32.sub w).extractLsb' 3 1 ++ (Cmd32.sub w).extractLsb' 0 3 = Cmd32.sub w := by
      generalize Cmd32.sub w = x
      revert x
      decide
    simp only [exec, execCalibrate, buildOf, e, hw]
  · simp only [exec, execQueryLane, buildOf, hw]

/-- A write of any word to CMD (10_state.md R19). -/
theorem windowWrite_cmd (s : State) (w : Word) : s.windowWrite 0x0 w = .next (s.writeCmd w (decodeAndBuild s.cfg w)) := by
  unfold State.windowWrite decodeAndBuild
  rw [if_pos rfl]
  cases h : decodeCmd w with
  | ok i => exact exec_of_decodeCmd h s
  | error e => rfl

/-- A step word never decodes to a command. -/
theorem isCommand_of_decodeStep {w : StepWord} {i : Instr} (h : decodeStep w = .ok i) : isCommand i = false := by
  unfold decodeStep at h
  repeat' split at h
  all_goals cases h
  all_goals rfl

/-! ## Step instructions -/

/-- The faults a phase of the step `b` leaves: a phase in ISSUE is a start (44_calibration.md R145). -/
def phaseFaults (s : State) (b : BoundStep) : HazardSet := if s.ph = .issue then (s.startStep b).faults else s.faults

/-- The effect of a phase that ends the step `b` with the events `es`. -/
def phaseEnds (s : State) (b : BoundStep) (es : List Event) (tm : Nat) : State :=
  { s with
    tmr := tm
    faults := phaseFaults s b
    trace := s.trace ++ es
    spc := s.spc + 1
    ph := .issue
    pllDone := if hasFrom s.job (s.spc + 1) b.tag then s.pllDone else pllDoneAfter s.pllDone b.tag
    redrive := if hasFrom s.job (s.spc + 1) b.tag then s.redrive else redriveAfter s.pllDone s.redrive b }

/-- What a phase of a step instruction can do: end the step, read for an RMW, or wait for a DLY. -/
theorem exec_step_next {i : Instr} {s t : State} (hi : isCommand i = false) (h : exec i s = .next t) :
    ∃ b, s.fsm = .run ∧ s.job[s.spc]? = some b ∧
      ((∃ dc off val dom, i = .wr dc off val ∧ s.ph = .issue ∧ boundDomain s.cfg dc b.lane = some dom ∧
          t = phaseEnds s b [.wr dom off val] s.tmr) ∨
       (∃ dc off mask val dom, i = .rmw dc off mask val ∧ s.ph = .issue ∧ boundDomain s.cfg dc b.lane = some dom ∧
          t = { s with
                faults := phaseFaults s b
                rd := s.nextAnswer
                trace := s.trace ++ [.rd dom off s.nextAnswer]
                answers := s.answers.tail
                draws := if s.answers = [] then s.draws + 1 else s.draws
                ph := .rmwWb }) ∨
       (∃ dc off mask val dom, i = .rmw dc off mask val ∧ s.ph = .rmwWb ∧ boundDomain s.cfg dc b.lane = some dom ∧
          t = phaseEnds s b [.wr dom off (mergeMasked s.rd mask val)] s.tmr) ∨
       (∃ d, i = .dly d ∧ s.ph = .issue ∧ timerLoad s.cfg.tickNs d = 0 ∧ t = phaseEnds s b [.dly d] 0) ∨
       (∃ d, i = .dly d ∧ s.ph = .issue ∧ timerLoad s.cfg.tickNs d ≠ 0 ∧
          t = { s with faults := phaseFaults s b, tmr := timerLoad s.cfg.tickNs d, ph := .wait }) ∨
       (∃ d, i = .dly d ∧ s.ph = .wait ∧ s.tmr = 0 ∧ t = phaseEnds s b [.dly d] s.tmr) ∨
       (∃ d, i = .dly d ∧ s.ph = .wait ∧ s.tmr ≠ 0 ∧ t = { s with tmr := s.tmr - 1 })) := by
  cases i with
  | wr dc off val =>
    obtain ⟨b, dom, hf, hb, hp, hd, rfl⟩ := execWr_next h
    refine ⟨b, hf, hb, .inl ⟨dc, off, val, dom, rfl, hp, hd, ?_⟩⟩
    simp [phaseEnds, phaseFaults, hp, State.stepDone, State.startStep_eq]
  | rmw dc off mask val =>
    obtain ⟨b, dom, hf, hb, hd, ⟨hp, rfl⟩ | ⟨hp, rfl⟩⟩ := execRmw_next h
    · refine ⟨b, hf, hb, .inr (.inl ⟨dc, off, mask, val, dom, rfl, hp, hd, ?_⟩)⟩
      simp [phaseFaults, hp, State.startStep_eq, State.domRead_eq, State.nextAnswer]
    · refine ⟨b, hf, hb, .inr (.inr (.inl ⟨dc, off, mask, val, dom, rfl, hp, hd, ?_⟩))⟩
      simp [phaseEnds, phaseFaults, hp, State.stepDone]
  | dly d =>
    obtain ⟨b, hf, hb, h⟩ := execDly_next h
    refine ⟨b, hf, hb, .inr (.inr (.inr ?_))⟩
    obtain ⟨hp, h0, rfl⟩ | ⟨hp, h0, rfl⟩ | ⟨hp, h0, rfl⟩ | ⟨hp, h0, rfl⟩ := h
    · exact .inl ⟨d, rfl, hp, h0, by simp [phaseEnds, phaseFaults, hp, State.stepDone, State.startStep_eq]⟩
    · exact .inr (.inl ⟨d, rfl, hp, h0, by simp [phaseFaults, hp, State.startStep_eq]⟩)
    · exact .inr (.inr (.inl ⟨d, rfl, hp, h0, by simp [phaseEnds, phaseFaults, hp, State.stepDone]⟩))
    · exact .inr (.inr (.inr ⟨d, rfl, hp, h0, rfl⟩))
  | _ => cases hi

/-! ## Moves -/

/-- What a move can do. -/
theorem moveOf_next {s t : State} {m : Move} (h : s.moveOf m = .next t) :
    (∃ off, m = .host (.read off 32) ∧ t = s.hostRead off) ∨
    (∃ off w, m = .host (.write off 32 w) ∧ off ≠ 0 ∧ t = s) ∨
    (∃ w, m = .host (.write 0x0 32 w) ∧ s.fsm = .idle ∧ t = s.accept w (decodeAndBuild s.cfg w)) ∨
    (∃ w, m = .host (.write 0x0 32 w) ∧ s.fsm = .run ∧ t = s.raise .busy) ∨
    (m = .seq ∧ s.fsm = .idle ∧ t = s) ∨
    (m = .seq ∧ s.fsm = .run ∧
      ∃ b i, s.job[s.spc]? = some b ∧ decodeStep b.word = .ok i ∧ isCommand i = false ∧ exec i s = .next t) ∨
    (m = .seq ∧ s.fsm = .run ∧ s.spc = s.job.length ∧ t = s.complete s.res LaneFields.zero) ∨
    (m = .blockReset ∧ t = s.blockReset) := by
  cases m with
  | host a =>
    cases a with
    | read off bits =>
      simp only [State.moveOf, State.hostMove] at h
      split at h
      · rename_i hw
        simp only [windowOk, Bool.and_eq_true, beq_iff_eq] at hw
        cases h
        exact .inl ⟨off, by rw [hw.1], rfl⟩
      · cases h
    | write off bits w =>
      simp only [State.moveOf, State.hostMove] at h
      split at h
      · rename_i hw
        simp only [windowOk, Bool.and_eq_true, beq_iff_eq] at hw
        obtain ⟨rfl, -⟩ := hw
        by_cases h0 : off = 0
        · subst h0
          rw [windowWrite_cmd] at h
          cases h
          cases hf : s.fsm with
          | idle => exact .inr (.inr (.inl ⟨w, rfl, rfl, by rw [State.writeCmd_idle hf]⟩))
          | run => exact .inr (.inr (.inr (.inl ⟨w, rfl, rfl, by rw [State.writeCmd_run hf]⟩)))
        · simp only [State.windowWrite, h0, if_false] at h
          cases h
          exact .inr (.inl ⟨off, w, rfl, h0, rfl⟩)
      · cases h
  | seq =>
    simp only [State.moveOf, State.seqMove] at h
    split at h
    · cases h
      exact .inr (.inr (.inr (.inr (.inl ⟨rfl, ‹_›, rfl⟩))))
    · rename_i hf
      unfold State.seqRun at h
      split at h
      · split at h
        · exact .inr (.inr (.inr (.inr (.inr (.inl
            ⟨rfl, hf, _, _, ‹_›, ‹_›, isCommand_of_decodeStep ‹_›, h⟩)))))
        · cases h
      · split at h
        · cases h
          exact .inr (.inr (.inr (.inr (.inr (.inr (.inl ⟨rfl, hf, ‹_›, rfl⟩))))))
        · cases h
  | blockReset =>
    cases h
    exact .inr (.inr (.inr (.inr (.inr (.inr (.inr ⟨rfl, rfl⟩))))))

/-- A step is the move of an agent, in an accepted configuration. -/
theorem step_next {s t : State} (h : step s = .next t) :
    configOk s.cfg = true ∧ ∃ m rest, (s.agenda = m :: rest ∨ s.agenda = [] ∧ m = .seq ∧ rest = []) ∧
      ({ s with agenda := rest }).moveOf m = .next t := by
  unfold step at h
  split at h
  · refine ⟨‹_›, ?_⟩
    unfold State.nextMove at h
    split at h
    · rename_i ha
      refine ⟨.seq, [], .inr ⟨ha, rfl, rfl⟩, ?_⟩
      have e : ({ s with agenda := [] } : State) = s := by
        cases s
        simp_all
      rw [e]
      exact h
    · rename_i m rest ha
      exact ⟨m, rest, .inl ha, h⟩
  · cases h

/-- The step of an accepted configuration whose next move is known. -/
theorem step_of_agenda {s : State} {m : Move} {rest : List Move} (hc : configOk s.cfg = true)
    (ha : s.agenda = m :: rest ∨ s.agenda = [] ∧ m = .seq ∧ rest = []) :
    step s = ({ s with agenda := rest }).moveOf m := by
  unfold step
  rw [if_pos hc]
  unfold State.nextMove
  obtain ha | ⟨ha, rfl, rfl⟩ := ha
  · rw [ha]
  · rw [ha]
    have e : ({ s with agenda := [] } : State) = s := by
      cases s
      simp_all
    rw [e]
    rfl

end Sys2Proof.Machine
end

