-- ==== Sys2Proof/Tests/Slice0.lean ====
section
/-! SUPPORT. The model's own tests, and a witness for every obligation that has hypotheses. Expected values are those of
spec/95_test_vectors.md, whose section or vector each comment names, unless a rule is named instead. -/

namespace Sys2Proof.Tests

open Sys2Proof.Machine Sys2Proof.Safety

/-! ## Helpers -/

/-- CFG-R with other constants, the ROM made from them. -/
def cfgWith (f : Constants → Constants) : Config :=
  { testConfigR with k := f testConstants, rom := romOf (f testConstants) }

/-- CFG-R without a PLL. -/
def cfgNoPll : Config := { testConfigR with hasPll := false }

/-- CFG-R without a reset controller. -/
def cfgNoRst : Config := { testConfigR with hasRst := false }

/-- CFG-R with LANE_COUNT = 1. -/
def cfgOneLane : Config := { testConfigR with laneCount := 1, hasPcs := [true], hasPextp := [true] }

/-- CFG-R with LANE_COUNT = 0. -/
def cfgNoLane : Config := { testConfigR with laneCount := 0, hasPcs := [], hasPextp := [] }

/-- Power-up of `c` with pending moves. -/
def pending (c : Config) (m : List Move) : State := { State.powerUp c with agenda := m }

/-- Power-up of `c`, HOST's write of `w` to CMD pending. -/
def cmdPending (c : Config) (w : Word) : State := pending c [.host (.write 0x0 32 w)]

/-- A running job at a position and phase. -/
def running (c : Config) (j : List BoundStep) (spc : Nat) (ph : Phase) : State :=
  { State.powerUp c with fsm := .run, status := { Status.zero with busy := true }, job := j, spc := spc, ph := ph }

/-- A bound step. -/
def bound (w : StepWord) (l : Option Lane) (t : Tag) : BoundStep := { word := w, lane := l, tag := t }

/-- The next state of an outcome, power-up where it is a stop. -/
def nextOf : Host.Outcome State Fault Refusal → State
  | .next t => t
  | .fault _ => State.reset
  | .refused _ => State.reset

/-- The STATUS word after one step from power-up of `c` with the command word `w` pending. -/
def statusAfter (c : Config) (w : Word) : Word := statusWord (nextOf (step (cmdPending c w))).status

/-- The trace after one step from a state whose trace is empty. -/
def traceAfter (s : State) : List Event := (nextOf (step s)).trace

/-! ## Well-formedness and the ROM checks, each with a term or a configuration it refuses -/

theorem test_wf_wr : (Instr.wr .pll 0x10 1).wf = true ∧ (Instr.wr .pll 0x12 1).wf = false := by decide
theorem test_wf_rmw : (Instr.rmw .pcs 0xFFFFFFFC 1 1).wf = true ∧ (Instr.rmw .pcs 0x11 1 1).wf = false := by decide

/- Section 2.2, the ill-formed step words. -/
theorem test_ill_kind : decodeStep ⟨0x3, 0, 0, 0⟩ = .error .reservedKind := by decide
theorem test_ill_dly_dc : decodeStep ⟨0x6, 0x64, 0, 0⟩ = .error .unusedField := by decide
theorem test_ill_reserved_bits : decodeStep ⟨0x10, 0, 0, 0⟩ = .error .reservedBits := by decide
theorem test_ill_wr_mask : decodeStep ⟨0x8, 0x10, 1, 1⟩ = .error .unusedField := by decide
theorem test_ill_dly_val : decodeStep ⟨0x2, 0x64, 1, 0⟩ = .error .unusedField := by decide
theorem test_ill_offset : decodeStep ⟨0x8, 0x12, 1, 0⟩ = .error .misalignedOffset := by decide
theorem test_ill_length : decodeWords [1, 2] = .error .wrongLength := by decide
theorem test_ill_rmw_value : rmwValOk ⟨0x1, 0x10, 0x5, 0x3⟩ = false := by decide

/- "they satisfy the checks W1 to W12" (section 0). -/
theorem test_configs_accepted : configOk testConfigR = true ∧ configOk testConfigI = true := by decide

def badParams : Config := { testConfigR with tickNs := 0 }
def badW1 : Config := cfgWith fun k => { k with body := { k.body with g1 := [⟨0x3, 0, 0, 0⟩] } }
def badW2 : Config := { testConfigR with rom := { testConfigR.rom with pll := testConfigR.rom.pll.take 1 } }
def badW3 : Config := cfgWith fun k => { k with pll := { k.pll with anaOff := 0x12 } }
def badW4 : Config := cfgWith fun k => { k with body := { k.body with f5g := [StepWord.wr .rst 0x100 0x15] } }
def badW5 : Config := cfgWith fun k => { k with pll := { k.pll with enMask := 0x3 } }
def badW6 : Config := cfgWith fun k => { k with f5g := { k.f5g with spdVal := 0x5 } }
def badW7 : Config := cfgWith fun k => { k with usx := { k.usx with settleNs := 999999 } }
def badW8 : Config := cfgWith fun k => { k with body := { k.body with f10g := [] } }
def badW9 : Config := cfgWith fun k => { k with sgm := { k.sgm with enOff := 0x04 } }
def badW10 : Config := cfgWith fun k => { k with an := { k.an with p1Ns := 101 } }
def badW11 : Config := cfgWith fun k => { k with body := { k.body with f5g := [StepWord.wr .pcs 0x100 0x15] } }
def badW12 : Config :=
  { testConfigR with
    rom := { testConfigR.rom with prog := { testConfigR.rom.prog with g1 := testConfigR.rom.prog.g1.dropLast } } }

theorem test_params_refused : paramsOk badParams = false ∧ step (State.powerUp badParams) = .refused .illFormedConfig := ⟨by decide, rfl⟩
theorem test_w1_refused : checkW1 badW1 = false ∧ step (State.powerUp badW1) = .refused .illFormedConfig := ⟨by decide, rfl⟩
theorem test_w2_refused : checkW2 badW2 = false ∧ step (State.powerUp badW2) = .refused .illFormedConfig := ⟨by decide, rfl⟩
theorem test_w3_refused : checkW3 badW3 = false ∧ step (State.powerUp badW3) = .refused .illFormedConfig := ⟨by decide, rfl⟩
theorem test_w4_refused : checkW4 badW4 = false ∧ step (State.powerUp badW4) = .refused .illFormedConfig := ⟨by decide, rfl⟩
theorem test_w5_refused : checkW5 badW5 = false ∧ step (State.powerUp badW5) = .refused .illFormedConfig := ⟨by decide, rfl⟩
theorem test_w6_refused : checkW6 badW6 = false ∧ step (State.powerUp badW6) = .refused .illFormedConfig := ⟨by decide, rfl⟩
theorem test_w7_refused : checkW7 badW7 = false ∧ step (State.powerUp badW7) = .refused .illFormedConfig := ⟨by decide, rfl⟩
theorem test_w8_refused : checkW8 badW8 = false ∧ step (State.powerUp badW8) = .refused .illFormedConfig := ⟨by decide, rfl⟩
theorem test_w9_refused : checkW9 badW9 = false ∧ step (State.powerUp badW9) = .refused .illFormedConfig := ⟨by decide, rfl⟩
theorem test_w10_refused : checkW10 badW10 = false ∧ step (State.powerUp badW10) = .refused .illFormedConfig := ⟨by decide, rfl⟩
theorem test_w11_refused : checkW11 badW11 = false ∧ step (State.powerUp badW11) = .refused .illFormedConfig := ⟨by decide, rfl⟩
theorem test_w12_refused : checkW12 badW12 = false ∧ step (State.powerUp badW12) = .refused .illFormedConfig := ⟨by decide, rfl⟩

/-! ## Decoding: words written out from section 2, and what an assembler line stands for -/

theorem test_decode_setupAutoneg :
    decodeCmd 0x27100101 = .ok (.setupAutoneg 0 1 10000) ∧ encode (Asm.setupAutoneg 1 10000) = [0x27100101] ∧
    encode (Asm.setupAutoneg 3 10000) = [0x27100301] ∧ decodeCmd 0x138800F1 = .ok (.setupAutoneg 0xF 0 5000) := by
  decide

theorem test_decode_setupForced :
    encode (Asm.setupForced 1 Asm.ifk5GBaseR) = [0x00000112] ∧ encode (Asm.setupForced 0 Asm.ifkOther) = [0x00000002] ∧
    encode (Asm.setupForced 2 0xF) = [0x000002F2] ∧ decodeCmd 0x27100112 = .ok (.setupForced 1 1 10000) := by
  decide

theorem test_decode_resetLane :
    encode (Asm.resetLane 1 .usx) = [0x00000103] ∧ encode (Asm.resetLane 2 .sgmii) = [0x00000213] ∧
    decodeCmd 0x00000233 = .ok (.resetLane .sgmii 1 2 0) := by
  decide

theorem test_decode_enablePll :
    encode Asm.enablePll = [0x00000004] ∧ decodeCmd 0xFFFFFF04 = .ok (.enablePll 0 0xFF 0xFFFF) := by
  decide

theorem test_decode_calibrate :
    encode (Asm.calibrate 1 .an10g) = [0x00000105] ∧ encode (Asm.calibrate 1 .f5g) = [0x00000115] ∧
    encode (Asm.calibrate 1 .f10g) = [0x00000125] ∧ encode (Asm.calibrate 2 .g1) = [0x00000235] ∧
    encode (Asm.calibrate 2 .g2) = [0x00000245] ∧ decodeCmd 0x00000185 = .ok (.calibrate 0 1 1 0) ∧
    decodeCmd 0x000001D5 = .ok (.calibrate 5 1 1 0) := by
  decide

theorem test_decode_queryLane :
    encode (Asm.queryLane 0) = [0x00000006] ∧ decodeCmd 0x00FF0006 = .ok (.queryLane 0 0 0x00FF) := by
  decide

theorem test_decode_wr :
    encode (.wr .pll 0x10 0xA5A50001) = [0x00000008, 0x00000010, 0xA5A50001, 0x00000000] ∧
    decodeStep ⟨0x00000004, 0x00000204, 0x00000003, 0⟩ = .ok (.wr .pextp 0x204 0x3) ∧
    decodeStep ⟨0x0000000C, 0, 0x10, 0⟩ = .ok (.wr .rst 0x00 0x10) := by
  decide

theorem test_decode_rmw :
    encode (Asm.setb .pll 0x14 0x1) = [0x00000009, 0x00000014, 0x00000001, 0x00000001] ∧
    encode (Asm.clrb .pcs 0x00 0x1000) = [0x00000001, 0, 0, 0x00001000] ∧
    encode (Asm.fld .pcs 0x10 0x3 0x1) = [0x00000001, 0x00000010, 0x00000001, 0x00000003] ∧
    decodeStep ⟨0x0000000D, 0x0000000C, 0x8800000C, 0xFF00000C⟩ = .ok (.rmw .rst 0x0C 0xFF00000C 0x8800000C) := by
  decide

theorem test_decode_dly :
    (Asm.dly 150 .us).map encode = some [0x00000002, 0x000249F0, 0, 0] ∧
    (Asm.dly 1 .ms).map encode = some [0x00000002, 0x000F4240, 0, 0] ∧
    (Asm.dly 100 .ns).map encode = some [0x00000002, 0x00000064, 0, 0] ∧ Asm.dly 4295 .ms = none := by
  decide

/- The words of the opcode table, as the host numbers them. -/
theorem test_table_words :
    decodeTableWord 8 0x1 = some (.setupAutoneg 0 0 0) ∧ decodeTableWord 8 0x6 = some (.queryLane 0 0 0) ∧
    decodeTableWord 32 0x0 = some (.wr .pcs 0 0) ∧ decodeTableWord 32 0x1 = some (.rmw .pcs 0 0 0) ∧
    decodeTableWord 32 0x2 = some (.dly 0) ∧ decodeTableWord 32 0x27100101 = some (.setupAutoneg 0 1 10000) ∧
    decodeTableWord 8 0x7 = none ∧ decodeTableWord 128 0x0000000000000000000000640000000A = none := by
  decide

theorem test_fetch_command :
    step (State.reset.withFetchWord 8 0x6) = exec (.queryLane 0 0 0) State.reset := rfl

theorem test_fetch_step :
    traceAfter (State.reset.withFetchWord 128 0x00000000A5A500010000001000000008) = [.wr .pll 0x10 0xA5A50001] ∧
    traceAfter (State.reset.withFetchWord 32 0x2) = [.dly 0] := by
  decide

/-! ## The commands -/

/- TV-K4, TV-K5, TV-K6. -/
theorem test_setupAutoneg_invalid :
    statusAfter testConfigR 0x27100301 = 0x6 ∧ statusAfter testConfigR 0x09C40001 = 0x6 ∧
    statusAfter testConfigR 0xFFFFFFF1 = 0x6 := by
  decide

/- P1's and P4's job shape: 2 + 5 + 20 steps; TV-K15, R157. -/
theorem test_setupAutoneg_runs :
    (nextOf (step (cmdPending testConfigR 0x27100101))).job.length = 27 ∧ statusAfter testConfigR 0x27100101 = 0x1 ∧
    (nextOf (step (cmdPending testConfigR 0x13880101))).job = (nextOf (step (cmdPending testConfigR 0x27100101))).job := by
  decide

/- TV-K7, and section 7.1. -/
theorem test_setupForced_invalid :
    statusAfter testConfigR 0x00000312 = 0x6 ∧
    (nextOf (step (cmdPending testConfigR 0x00000112))).job.getLast?.map (·.tag) = some (.cal .f5g) ∧
    (nextOf (step (cmdPending testConfigR 0x000001F2))).job.getLast?.map (·.tag) = some (.cal .f10g) := by
  decide

/- TV-K9, TV-K10, TV-K11: 5 + 20 steps, 2 + 20 steps, 2 steps. -/
theorem test_setupForced_gates :
    (nextOf (step (cmdPending cfgNoPll 0x00000112))).job.length = 25 ∧
    (nextOf (step (cmdPending testConfigR 0x00000002))).job.length = 22 ∧
    (nextOf (step (cmdPending cfgOneLane 0x00000112))).job.length = 2 := by
  decide

/- TV-R5 to TV-R8. -/
theorem test_resetLane_noop :
    traceAfter (cmdPending testConfigR 0x00000003) = [.cmd 0x3, .done 0x2] ∧
    traceAfter (cmdPending testConfigR 0x00000313) = [.cmd 0x313, .done 0x2] ∧
    traceAfter (cmdPending cfgNoRst 0x00000103) = [.cmd 0x103, .done 0x2] ∧
    traceAfter (cmdPending cfgOneLane 0x00000103) = [.cmd 0x103, .done 0x2] := by
  decide

/- TV-R1, TV-R2, TV-R4, TV-R9: the events of the jobs, every read returning 0x12345670. -/
theorem test_resetLane_events :
    jobEvents (fun _ => 0x12345670) 0 (usxJob testConfigR 1) =
      [.wr .rst 0x00 0x10, .wr .rst 0x04 0x10, .wr .rst 0x00 0x00, .wr .rst 0x04 0x00, .dly 1000000] ∧
    jobEvents (fun _ => 0x12345670) 0 (sgmJob testConfigR 2) =
      [.rd .rst 0x08 0x12345670, .wr .rst 0x08 0x1234567C, .rd .rst 0x0C 0x12345670, .wr .rst 0x0C 0x8834567C,
       .dly 10000, .rd .rst 0x0C 0x12345670, .wr .rst 0x0C 0x88345670, .rd .rst 0x08 0x12345670,
       .wr .rst 0x08 0x12345670, .dly 1000000] ∧
    (usxJob testConfigI 2).map (·.word) = (usxJob testConfigR 2).map (·.word) ∧
    (usxJob testConfigI 2).map (·.lane) = List.replicate 5 (some 2) := by
  decide

/- TV-P3. -/
theorem test_enablePll_absent :
    traceAfter (cmdPending cfgNoPll 0x00000004) = [.cmd 0x4, .done 0xA] ∧ statusAfter cfgNoPll 0x00000004 = 0xA := by
  decide

/- TV-P1's events, and TV-K15's STATUS. -/
theorem test_enablePll_events :
    jobEvents (fun _ => 0x12345670) 0 (pllJob testConfigR) =
      [.wr .pll 0x10 0xA5A50001, .rd .pll 0x14 0x12345670, .wr .pll 0x14 0x12345671] ∧
    statusAfter testConfigR 0x00000004 = 0x1 := by
  decide

/- TV-C5, TV-C6, section 8's TV-K14 is below. -/
theorem test_calibrate_edges :
    traceAfter (cmdPending testConfigR 0x00000325) = [.cmd 0x325, .done 0x2] ∧ statusAfter testConfigR 0x00000175 = 0x6 ∧
    traceAfter (cmdPending { testConfigR with hasPcs := [true, false] } 0x00000135) = [.cmd 0x135, .done 0x2] := by
  decide

/- Section 7.2: F5G on lane 1, read answers 0. -/
theorem test_calibrate_events :
    jobEvents (fun _ => 0) 0 (calJob testConfigR .f5g 1) =
      [.rd (.pcs 1) 0x10 0, .wr (.pcs 1) 0x10 0x1, .rd (.pcs 1) 0x00 0, .wr (.pcs 1) 0x00 0x0, .rd (.pcs 1) 0x14 0,
       .wr (.pcs 1) 0x14 0x1, .dly 100, .rd (.pcs 1) 0x18 0, .wr (.pcs 1) 0x18 0x30, .rd (.pcs 1) 0x14 0,
       .wr (.pcs 1) 0x14 0x0, .dly 100, .wr (.pextp 1) 0x100 0x15, .wr (.pextp 1) 0x200 0x0, .dly 150000,
       .wr (.pextp 1) 0x204 0x3, .dly 1000, .wr (.pextp 1) 0x204 0x1, .dly 15000, .wr (.pextp 1) 0x208 0x3,
       .dly 1000, .wr (.pextp 1) 0x208 0x1, .dly 100000, .wr (.pextp 1) 0x20C 0x1, .dly 400000] := by
  decide

/- Section 3. -/
theorem test_queryLane_reduced :
    statusAfter testConfigR 0x00000006 = 0x132 ∧ statusAfter testConfigR 0x00000106 = 0x132 ∧
    statusAfter testConfigR 0x00000206 = 0x32 ∧ statusAfter testConfigR 0x00000306 = 0x2 ∧
    statusAfter testConfigR 0x0000FF06 = 0x2 ∧ statusAfter cfgOneLane 0x00000006 = 0x112 ∧
    statusAfter cfgOneLane 0x00000206 = 0x32 ∧ statusAfter cfgNoLane 0x00000206 = 0x12 := by
  decide

theorem test_queryLane_identity :
    statusAfter testConfigI 0x00000006 = 0x32 ∧ statusAfter testConfigI 0x00000306 = 0x332 ∧
    statusAfter testConfigI 0x00000406 = 0x412 ∧ statusAfter testConfigI 0x0000C806 = 0xC812 := by
  decide

/- TV-K1 to TV-K3. -/
theorem test_reserved_opcodes :
    statusAfter testConfigR 0x00000000 = 0x6 ∧ statusAfter testConfigR 0x00000007 = 0x6 ∧
    statusAfter testConfigR 0xFFFFFFFF = 0x6 := by
  decide

/- TV-K13: the job of SETUP_FORCED, started after QUERY_LANE 0. -/
theorem test_status_while_running :
    statusWord (nextOf (step (hostWrites (nextOf (step (cmdPending testConfigR 0x00000006))) 0x00000112))).status = 0x131 := by
  decide

/-! ## The steps -/

/-- A running job of one step, without a lane, tagged as a PLL step. -/
def oneStep (w : StepWord) (ph : Phase) : State := running testConfigR [bound w none .pll] 0 ph

/- TV-W1, and R89: the step completes. -/
theorem test_wr :
    traceAfter (oneStep (StepWord.wr .pll 0x10 0xA5A50001) .issue) = [.wr .pll 0x10 0xA5A50001] ∧
    (nextOf (step (oneStep (StepWord.wr .pll 0x10 0xA5A50001) .issue))).spc = 1 := by
  decide

/- TV-W2: a zero value is written, to the lane's own domain. -/
theorem test_wr_lane :
    traceAfter (running testConfigR [bound (StepWord.wr .pextp 0x204 0) (some 1) (.cal .g1)] 0 .issue) =
      [.wr (.pextp 1) 0x204 0] := by
  decide

/- TV-M1 to TV-M10. -/
theorem test_rmw_merge :
    mergeMasked 0x12345678 0x80000000 0x80000000 = 0x92345678 ∧ mergeMasked 0xFFFFFFFF 0x0000FF00 0x00001200 = 0xFFFF12FF ∧
    mergeMasked 0xDEADBEEF 0x00000000 0x00000000 = 0xDEADBEEF ∧ mergeMasked 0xDEADBEEF 0xFFFFFFFF 0x0000ABCD = 0x0000ABCD ∧
    mergeMasked 0x00000001 0x1 0x1 = 0x00000001 ∧ mergeMasked 0x12345670 0x1 0x1 = 0x12345671 ∧
    mergeMasked 0xFFFFFFFF 0x1000 0 = 0xFFFFEFFF ∧ mergeMasked 0x000000C5 0xF0 0x30 = 0x00000035 ∧
    mergeMasked 0x12345670 0xFF00000C 0x8800000C = 0x8834567C ∧ mergeMasked 0x12345670 0xFF00000C 0x88000000 = 0x88345670 := by
  decide

/- TV-P1's RMW: its read, then its write. -/
theorem test_rmw_phases :
    traceAfter { oneStep (StepWord.setb .pll 0x14 0x1) .issue with answers := [0x12345670] } = [.rd .pll 0x14 0x12345670] ∧
    traceAfter { oneStep (StepWord.setb .pll 0x14 0x1) .rmwWb with rd := 0x12345670 } = [.wr .pll 0x14 0x12345671] := by
  decide

/- TV-T1 to TV-T6. -/
theorem test_timer_load :
    timerLoad 1 0 = 0 ∧ timerLoad 1000 1000 = 1 ∧ timerLoad 1000 1500 = 2 ∧ timerLoad 3 10 = 4 ∧
    timerLoad 1 150000 = 150000 ∧ timerLoad 1 0xFFFFFFFF = 4294967295 := by
  decide

/- R95, R96: a delay loads the timer, ticks down, and completes at the tick at which the timer is 0. -/
theorem test_dly :
    (nextOf (step (oneStep (StepWord.dly 5) .issue))).tmr = 5 ∧ traceAfter (oneStep (StepWord.dly 5) .issue) = [] ∧
    (nextOf (step { oneStep (StepWord.dly 5) .wait with tmr := 5 })).tmr = 4 ∧
    traceAfter { oneStep (StepWord.dly 5) .wait with tmr := 1 } = [] ∧
    traceAfter (oneStep (StepWord.dly 5) .wait) = [.dly 5] := by
  decide

/-! ## Hazards, ghost state, block reset, the window -/

/- TV-C1: HZ_CAL_NO_PLL at the first step of a calibration; none once the PLL is done (TV-C2). -/
theorem test_hazard_cal_no_pll :
    (nextOf (step (running testConfigR (calJob testConfigR .an10g 1) 0 .issue))).faults = { busy := false, calNoPll := true } ∧
    (nextOf (step { running testConfigR (calJob testConfigR .an10g 1) 0 .issue with pllDone := true })).faults =
      HazardSet.empty := by
  decide

/- TV-K14. -/
theorem test_hazard_busy :
    nextOf (step { running testConfigR (pllJob testConfigR) 0 .issue with agenda := [.host (.write 0x0 32 0x4)] }) =
      { running testConfigR (pllJob testConfigR) 0 .issue with faults := { busy := true, calNoPll := false } } := by
  decide

/-- The last step of a job, a delay whose timer has run out. -/
def atLastTick (j : List BoundStep) (pll : Bool) (r : List Redrive) : State :=
  { running testConfigR j (j.length - 1) .wait with pllDone := pll, redrive := r }

/- TV-R1 (notes), TV-C2, TV-C3. -/
theorem test_ghost_redrive :
    (nextOf (step (atLastTick (usxJob testConfigR 1) false [.dirty, .dirty]))).redrive = [.dirty, .dirty] ∧
    (nextOf (step (atLastTick (usxJob testConfigR 1) true [.dirty, .dirty]))).redrive = [.dirty, .rstSeen] ∧
    (nextOf (step (atLastTick (calJob testConfigR .f5g 1) true [.dirty, .dirty]))).redrive = [.dirty, .dirty] ∧
    (nextOf (step (atLastTick (calJob testConfigR .f5g 1) true [.dirty, .rstSeen]))).redrive = [.dirty, .clean] := by
  decide

/-- P4: block reset pending in the first DLY of AN_PREFIX. -/
def midDelay : State :=
  { running testConfigR (setupJob testConfigR .an10g 1) 9 .wait with
    pllDone := true, redrive := [.dirty, .rstSeen], tmr := 40, agenda := [.blockReset] }

/-- P4b: block reset pending between the read and the write of the PLL's RMW. -/
def midRmw : State :=
  { running testConfigR (setupJob testConfigR .an10g 1) 1 .rmwWb with
    pllDone := true, redrive := [.clean, .clean], agenda := [.blockReset] }

theorem test_block_reset_in_delay :
    traceAfter midDelay = [.rst] ∧ (nextOf (step midDelay)).redrive = [.dirty, .dirty] ∧
    (nextOf (step midDelay)).pllDone = true ∧ (nextOf (step midDelay)).fsm = .idle ∧
    statusWord (nextOf (step midDelay)).status = 0 := by
  decide

theorem test_block_reset_in_rmw :
    traceAfter midRmw = [.rst] ∧ (nextOf (step midRmw)).pllDone = false ∧
    (nextOf (step midRmw)).redrive = [.dirty, .dirty] := by
  decide

/- TV-K16. -/
theorem test_window :
    step (pending testConfigR [.host (.write 0x8 32 0x4)]) = .next State.reset ∧
    (nextOf (step (pending testConfigR [.host (.read 0x8 32)]))).hostSeen = [0] ∧
    step (pending testConfigR [.host (.read 0x2 32)]) = .refused .hostAccessNotAlignedWord := ⟨rfl, by decide, rfl⟩

theorem test_core : Sys2Proof.core.reset = State.reset := rfl

/-! ## Witnesses: for every obligation with hypotheses, a state and operands that meet all of them -/

/-- The step at the position of a running state, as a bound step. -/
def pllWr : BoundStep := bound (StepWord.wr .pll 0x10 0xA5A50001) none .pll

/-- See `pllWr`. -/
def pllRmw : BoundStep := bound (StepWord.setb .pll 0x14 0x1) none .pll

/-- CFG-R, the PLL's job running, at a position and phase. -/
def pllRun (spc : Nat) (ph : Phase) : State := running testConfigR (pllJob testConfigR) spc ph

/-- CFG-R, the USXGMII reset of port 1 running, at its final delay. -/
def usxWait (tmr : Nat) : State := { running testConfigR (usxJob testConfigR 1) 4 .wait with tmr := tmr }

theorem witness_DecodeOfEncodeIsTheInstruction :
    (Instr.setupAutoneg 0xF 0xFF 0xFFFF).wf = true ∧ (Instr.calibrate 7 1 0xFF 0).wf = true ∧
    (Instr.wr .rst 0xFFFFFFFC 0).wf = true ∧ (Instr.rmw .pcs 0 0 0xFFFFFFFF).wf = true ∧
    (Instr.dly 0xFFFFFFFF).wf = true := by
  decide

theorem witness_EncodeOfDecodeIsTheWords :
    decodeWords [0xFFFFFF05] = .ok (.calibrate 0 0 0xFF 0xFFFF) ∧
    decodeWords [0x0000000D, 0xFFFFFFFC, 1, 0xFFFFFFFF] = .ok (.rmw .rst 0xFFFFFFFC 0xFFFFFFFF 1) := by
  decide

theorem witness_StepDecoderAcceptsExactlyTheWellFormedWords :
    decodeStep ⟨0x0, 0xFFFFFFFC, 0, 0⟩ = .ok (.wr .pcs 0xFFFFFFFC 0) ∧
    decodeStep ⟨0x4, 0x204, 0x3, 0⟩ = .ok (.wr .pextp 0x204 0x3) ∧
    decodeStep ⟨0x9, 0x14, 1, 1⟩ = .ok (.rmw .pll 0x14 1 1) ∧
    decodeStep ⟨0xC, 0, 0x10, 0⟩ = .ok (.wr .rst 0 0x10) ∧
    decodeStep ⟨0x2, 0xFFFFFFFF, 0, 0⟩ = .ok (.dly 0xFFFFFFFF) := by
  decide

theorem witness_IllFormedConfigurationHasNoStep :
    paramsOk badParams = false ∧ checkW1 badW1 = false ∧ checkW2 badW2 = false ∧ checkW3 badW3 = false ∧
    checkW4 badW4 = false ∧ checkW5 badW5 = false ∧ checkW6 badW6 = false ∧ checkW7 badW7 = false ∧
    checkW8 badW8 = false ∧ checkW9 badW9 = false ∧ checkW10 badW10 = false ∧ checkW11 badW11 = false ∧
    checkW12 badW12 = false := by
  decide

theorem witness_StepRunsTheStepAtSpc :
    configOk (pllRun 0 .issue).cfg = true ∧ (pllRun 0 .issue).agenda = [] ∧ (pllRun 0 .issue).fsm = .run ∧
    (pllRun 0 .issue).job[(pllRun 0 .issue).spc]? = some pllWr ∧
    decodeStep pllWr.word = .ok (.wr .pll 0x10 0xA5A50001) ∧
    ({ pllRun 1 .rmwWb with agenda := [.seq, .blockReset] } : State).agenda = .seq :: [.blockReset] ∧
    (pllRun 1 .rmwWb).job[(pllRun 1 .rmwWb).spc]? = some pllRmw ∧
    decodeStep pllRmw.word = .ok (.rmw .pll 0x14 0x1 0x1) := by
  decide

theorem witness_StepRunsTheCommandWritten :
    configOk (cmdPending testConfigR 0x6).cfg = true ∧
    (cmdPending testConfigR 0x6).agenda = .host (.write 0x0 32 0x6) :: [] ∧ decodeCmd 0x6 = .ok (.queryLane 0 0 0) := by
  decide

theorem witness_ReservedOpcodeCompletesWithInvalidArgument :
    configOk (cmdPending testConfigR 0x7).cfg = true ∧
    (cmdPending testConfigR 0x7).agenda = .host (.write 0x0 32 0x7) :: [] ∧ (cmdPending testConfigR 0x7).fsm = .idle ∧
    ((0x7 : Word).extractLsb' 0 4).toNat = 7 ∧ ((0xFFFFFFF0 : Word).extractLsb' 0 4).toNat = 0 := by
  decide

theorem witness_CommandWhileRunningIsIgnored :
    let s := { pllRun 0 .issue with agenda := [.host (.write 0x0 32 0x4)] }
    configOk s.cfg = true ∧ s.agenda = .host (.write 0x0 32 0x4) :: [] ∧ s.fsm = .run := by
  decide

/- The offsets where the clauses meet: 0x0, 0x4 and 0x8; 0x3 and 0x5 beside them; widths 31 and 33 beside 32. -/
theorem witness_HostWindow :
    configOk (pending testConfigR [.host (.read 0x0 32)]).cfg = true ∧
    (pending testConfigR [.host (.read 0x0 32)]).agenda = .host (.read 0x0 32) :: [] ∧
    (pending testConfigR [.host (.read 0x4 32)]).agenda = .host (.read 0x4 32) :: [] ∧
    (pending testConfigR [.host (.read 0x8 32)]).agenda = .host (.read 0x8 32) :: [] ∧ 0x8 % 4 = 0 ∧
    (pending testConfigR [.host (.write 0x4 32 1)]).agenda = .host (.write 0x4 32 1) :: [] ∧ 0x4 % 4 = 0 ∧
    (pending testConfigR [.host (.read 0x3 32)]).agenda = .host (.read 0x3 32) :: [] ∧ 0x3 % 4 ≠ 0 ∧
    (pending testConfigR [.host (.write 0x0 33 1)]).agenda = .host (.write 0x0 33 1) :: [] ∧ 33 ≠ 32 := by
  decide

/- Port 2 is the last of three, 3 the first beyond; 5000 and 10000 are valid, 9999 is not. -/
theorem witness_SetupAutonegAccepted :
    State.reset.fsm = .idle ∧ ¬State.reset.cfg.portCount ≤ (2 : PortId).toNat ∧ State.reset.cfg.portCount ≤ (3 : PortId).toNat ∧
    (5000 : Speed).toNat = 5000 ∧ (10000 : Speed).toNat = 10000 ∧
    ¬((9999 : Speed).toNat = 5000 ∨ (9999 : Speed).toNat = 10000) := by
  decide

theorem witness_SetupAutonegIgnoresWhichValidSpeed :
    State.reset.fsm = .idle ∧ (2 : PortId).toNat < State.reset.cfg.portCount ∧
    ((9999 : Speed) ≠ 5000#16 ∧ (9999 : Speed) ≠ 10000#16) ∧
    (∃ t, exec (.setupAutoneg 0 2 5000) State.reset = .next t) ∧
    (∃ t, exec (.setupAutoneg 0xF 2 10000) State.reset = .next t) :=
  ⟨rfl, by decide, by decide, ⟨_, rfl⟩, ⟨_, rfl⟩⟩

theorem witness_SetupForcedAccepted :
    State.reset.fsm = .idle ∧ ¬State.reset.cfg.portCount ≤ (2 : PortId).toNat ∧
    State.reset.cfg.portCount ≤ (3 : PortId).toNat := by
  decide

theorem witness_ResetLaneAccepted :
    State.reset.fsm = .idle ∧ usxJob State.reset.cfg 1 ≠ [] ∧ sgmJob State.reset.cfg 2 ≠ [] ∧ usxJob State.reset.cfg 0 = [] := by
  decide

theorem witness_EnablePllAccepted :
    State.reset.fsm = .idle ∧ State.reset.cfg.hasPll = true ∧ (State.powerUp cfgNoPll).cfg.hasPll = false := by
  decide

theorem witness_CalibrateAccepted :
    State.reset.fsm = .idle ∧ 5 ≤ (5 : BitVec 3).toNat ∧ (4 : BitVec 3).toNat = 4 ∧ (0 : BitVec 3).toNat = 0 := by
  decide

theorem witness_QueryLaneAccepted :
    State.reset.fsm = .idle ∧ resolve State.reset.cfg.mapMode 2 = some 0 ∧ resolve State.reset.cfg.mapMode 3 = none := by
  decide

/- The invariant of the states below, field by field. -/
theorem inv_idle (c : Config) (m : List Move) (hc : configOk c = true) : Inv (pending c m) where
  config := hc
  idle_iff_no_job := ⟨fun _ => rfl, fun _ => rfl⟩
  busy_iff_run := ⟨nofun, nofun⟩
  not_done_in_run := nofun
  spc_le := Nat.le_refl _
  phase_in_job := fun h => absurd rfl h
  rmwWb_at_rmw := nofun
  wait_at_dly := nofun
  steps_run := nofun
  tmr_fits := Nat.zero_le _
  redrive_length := List.length_replicate
  res_ok := rfl
  present_valid := nofun

theorem inv_rmwWb : Inv (pllRun 1 .rmwWb) where
  config := by decide
  idle_iff_no_job := ⟨nofun, nofun⟩
  busy_iff_run := ⟨fun _ => rfl, fun _ => rfl⟩
  not_done_in_run := fun _ => rfl
  spc_le := by decide
  phase_in_job := by decide
  rmwWb_at_rmw := fun _ => ⟨pllRmw, .pll, 0x14, 0x1, 0x1, by decide, by decide⟩
  wait_at_dly := nofun
  steps_run := by decide
  tmr_fits := by decide
  redrive_length := by decide
  res_ok := rfl
  present_valid := nofun

theorem inv_wait : Inv (usxWait 3) where
  config := by decide
  idle_iff_no_job := ⟨nofun, nofun⟩
  busy_iff_run := ⟨fun _ => rfl, fun _ => rfl⟩
  not_done_in_run := fun _ => rfl
  spc_le := by decide
  phase_in_job := by decide
  rmwWb_at_rmw := nofun
  wait_at_dly := fun _ => ⟨bound (StepWord.dly 1000000) (some 1) .usxRst, 1000000, by decide, by decide⟩
  steps_run := by decide
  tmr_fits := by decide
  redrive_length := by decide
  res_ok := rfl
  present_valid := nofun

theorem witness_FailedCommandHasNoSideEffect :
    Inv (cmdPending testConfigR 0x7) ∧ (cmdPending testConfigR 0x7).fsm = .idle ∧
    (decodeAndBuild testConfigR 0x7).result = .invalidArgument ∧
    Inv (cmdPending cfgNoPll 0x4) ∧ (decodeAndBuild cfgNoPll 0x4).result = .notConfigured :=
  ⟨inv_idle _ _ (by decide), rfl, by decide, inv_idle _ _ (by decide), by decide⟩

theorem witness_SequencerCompletesTheCommandOrWaits :
    configOk (pllRun 2 .issue).cfg = true ∧ (pllRun 2 .issue).agenda = [] ∧ (pllRun 2 .issue).fsm = .run ∧
    (pllRun 2 .issue).spc = (pllRun 2 .issue).job.length ∧ State.reset.fsm = .idle ∧
    (pending testConfigR [.seq]).agenda = .seq :: [] := by
  decide

theorem witness_StatusWhileAJobRuns :
    State.reset.fsm = .idle ∧ (∃ t, exec (.setupForced 1 1 0) State.reset = .next t ∧ t.fsm = .run) ∧
    isCommand (.wr .pll 0x10 0xA5A50001) = false ∧
    ∃ t, exec (.wr .pll 0x10 0xA5A50001) (pllRun 0 .issue) = .next t :=
  ⟨rfl, ⟨_, rfl, rfl⟩, rfl, _, rfl⟩

/- Port 1 resolves to lane 1: present with two lanes, beyond the last with one. -/
theorem witness_JobBuildersFollowTheirGates :
    testConfigR.hasPll = true ∧ cfgNoPll.hasPll = false ∧
    resolve testConfigR.mapMode 1 = some 1 ∧ (1 : Lane).toNat < testConfigR.laneCount ∧ testConfigR.hasRst = true ∧
    resolve testConfigR.mapMode 2 = some 0 ∧ laneOf cfgOneLane 1 = none ∧ cfgNoRst.hasRst = false ∧
    ((0 : PortId) ≠ 1 ∧ (0 : PortId) ≠ 2) ∧ testConfigR.hasPcs[(1 : Lane).toNat]? = some true ∧
    testConfigR.hasPextp[(1 : Lane).toNat]? = some true := by
  decide

theorem witness_ResolverAndBoundCheck :
    (0 : PortId).toNat = 0 ∧ (1 : PortId).toNat = 1 ∧ (2 : PortId).toNat = 2 ∧ 3 ≤ (3 : PortId).toNat ∧
    testConfigI.mapMode = .identity ∧ laneOk testConfigI 3 = true ∧ laneOk testConfigI 4 = false ∧
    cfgOneLane.mapMode = .reduced ∧ cfgOneLane.laneCount = 1 ∧ laneOk cfgOneLane 2 = true ∧
    cfgNoLane.mapMode = .reduced ∧ cfgNoLane.laneCount = 0 := by
  decide

theorem witness_ReducedPortZeroHasNoReset : testConfigR.mapMode = .reduced ∧ 2 ≤ testConfigR.laneCount := by decide

theorem witness_WrIssuesOneWrite :
    (pllRun 0 .issue).fsm = .run ∧ (pllRun 0 .issue).job[(pllRun 0 .issue).spc]? = some pllWr ∧
    (pllRun 0 .issue).ph = .issue ∧ bindClass .pll pllWr.lane = some .pll ∧
    domainExists (pllRun 0 .issue).cfg .pll = true ∧ bindClass .pextp (some 1) = some (.pextp 1) ∧
    domainExists testConfigR (.pextp 1) = true ∧ domainExists testConfigR (.pextp 2) = false := by
  decide

theorem witness_RmwReadPhase :
    let s := { pllRun 1 .issue with answers := [0x12345670] }
    s.fsm = .run ∧ s.job[s.spc]? = some pllRmw ∧ s.ph = .issue ∧ bindClass .pll pllRmw.lane = some .pll ∧
    domainExists s.cfg .pll = true ∧ s.answers = 0x12345670 :: [] := by
  decide

theorem witness_RmwWritePhase :
    (pllRun 1 .rmwWb).fsm = .run ∧ (pllRun 1 .rmwWb).job[(pllRun 1 .rmwWb).spc]? = some pllRmw ∧
    (pllRun 1 .rmwWb).ph = .rmwWb ∧ bindClass .pll pllRmw.lane = some .pll ∧
    domainExists (pllRun 1 .rmwWb).cfg .pll = true := by
  decide

theorem witness_RmwMergeAndPseudoSteps : (0xFFFFFFFC : Word).toNat % 4 = 0 ∧ 31 < 32 := by decide

theorem witness_DlyWaitsItsTicks :
    let b := bound (StepWord.dly 1000000) (some 1) .usxRst
    (usxWait 3).fsm = .run ∧ (usxWait 3).job[(usxWait 3).spc]? = some b ∧ 1 ≤ (usxWait 3).cfg.tickNs ∧
    (running testConfigR (usxJob testConfigR 1) 4 .issue).ph = .issue ∧ (0xFFFFFFFF : Word) ≠ 0 ∧
    (usxWait 3).ph = .wait ∧ 0 < (usxWait 1).tmr ∧ (usxWait 0).tmr = 0 ∧
    (oneStep (StepWord.dly 0) .issue).job[(oneStep (StepWord.dly 0) .issue).spc]? = some (bound (StepWord.dly 0) none .pll) := by
  decide

theorem witness_StepInstructionsStopByName :
    State.reset.fsm = .idle ∧ (pllRun 2 .issue).job.length ≤ (pllRun 2 .issue).spc ∧
    (pllRun 0 .wait).fsm = .run ∧ (pllRun 0 .wait).job[(pllRun 0 .wait).spc]? = some pllWr ∧ (pllRun 0 .wait).ph ≠ .issue ∧
    (pllRun 0 .rmwWb).ph = .rmwWb ∧ boundDomain testConfigR .pcs pllWr.lane = none ∧
    boundDomain testConfigR .pextp (some 2) = none := by
  decide

/-- The first step of a calibration, and the second. -/
def calAt (spc : Nat) (ph : Phase) : State := running testConfigR (calJob testConfigR .g1 1) spc ph

/-- The first step of G1 on lane 1. -/
def calFirst : BoundStep := bound (StepWord.wr .pextp 0x100 0x21) (some 1) (.cal .g1)

/-- The second step of G1 on lane 1. -/
def calSecond : BoundStep := bound (StepWord.wr .pextp 0x200 0x0) (some 1) (.cal .g1)

theorem witness_OnlyCalibrationWithoutPllRaises :
    (calAt 0 .issue).fsm = .run ∧ (calAt 0 .issue).job[(calAt 0 .issue).spc]? = some calFirst ∧
    isCommand (.wr .pextp 0x100 0x21) = false ∧
    (∃ t, exec (.wr .pextp 0x100 0x21) (calAt 0 .issue) = .next t) ∧ (calAt 0 .issue).ph = .issue ∧
    (∃ k, calFirst.tag = .cal k) ∧ (calAt 0 .issue).pllDone = false ∧
    (∀ x ∈ (calAt 0 .issue).job.take (calAt 0 .issue).spc, x.tag ≠ calFirst.tag) ∧
    (calAt 1 .issue).job[(calAt 1 .issue).spc]? = some calSecond ∧
    (∃ x ∈ (calAt 1 .issue).job.take (calAt 1 .issue).spc, x.tag = calSecond.tag) ∧
    (∃ t, exec (.wr .pextp 0x200 0x0) (calAt 1 .issue) = .next t) ∧
    (∀ k, pllWr.tag ≠ .cal k) ∧ (pllRun 1 .rmwWb).ph ≠ .issue :=
  ⟨rfl, by decide, rfl, ⟨_, rfl⟩, rfl, ⟨.g1, rfl⟩, rfl, by decide, by decide, by decide, ⟨_, rfl⟩, nofun, by decide⟩

theorem witness_PllPartCompletionSetsPllDone :
    (pllRun 1 .rmwWb).fsm = .run ∧ (pllRun 1 .rmwWb).job[(pllRun 1 .rmwWb).spc]? = some pllRmw ∧
    (∃ t, exec (.rmw .pll 0x14 0x1 0x1) (pllRun 1 .rmwWb) = .next t ∧ t.spc = (pllRun 1 .rmwWb).spc + 1) ∧
    pllRmw.tag = .pll ∧ ∀ x ∈ (pllRun 1 .rmwWb).job.drop ((pllRun 1 .rmwWb).spc + 1), x.tag ≠ .pll :=
  ⟨rfl, by decide, ⟨_, rfl, rfl⟩, rfl, by decide⟩

theorem witness_ResetPartCompletionSetsRedrive :
    let b := bound (StepWord.dly 1000000) (some 1) .usxRst
    (usxWait 0).fsm = .run ∧ (usxWait 0).job[(usxWait 0).spc]? = some b ∧
    (∃ t, exec (.dly 1000000) (usxWait 0) = .next t ∧ t.spc = (usxWait 0).spc + 1) ∧ b.tag = .usxRst ∧
    b.lane = some 1 ∧ (1 : Lane).toNat < (usxWait 0).redrive.length ∧
    (∀ x ∈ (usxWait 0).job.drop ((usxWait 0).spc + 1), x.tag ≠ b.tag) ∧
    State.reset.fsm = .idle ∧ ∃ t, exec (.resetLane .usx 0 0 0) State.reset = .next t :=
  ⟨rfl, by decide, ⟨_, rfl, rfl⟩, rfl, rfl, by decide, by decide, rfl, ⟨_, rfl⟩⟩

/-- The last tick of F5G on lane 1, after the PLL and a reset. -/
def calEnd : State := atLastTick (calJob testConfigR .f5g 1) true [.dirty, .rstSeen]

theorem witness_CalibrationPartCompletionSetsRedrive :
    let b := bound (StepWord.dly 400000) (some 1) (.cal .f5g)
    calEnd.fsm = .run ∧ calEnd.job[calEnd.spc]? = some b ∧
    (∃ t, exec (.dly 400000) calEnd = .next t ∧ t.spc = calEnd.spc + 1) ∧ b.tag = .cal .f5g ∧ b.lane = some 1 ∧
    (1 : Lane).toNat < calEnd.redrive.length ∧ ∀ x ∈ calEnd.job.drop (calEnd.spc + 1), x.tag ≠ b.tag :=
  ⟨rfl, by decide, ⟨_, rfl, rfl⟩, rfl, rfl, by decide, by decide⟩

theorem witness_UnfinishedPartLeavesPllDoneAndRedrive :
    (pllRun 0 .issue).fsm = .run ∧ (pllRun 0 .issue).job[(pllRun 0 .issue).spc]? = some pllWr ∧
    (∃ t, exec (.wr .pll 0x10 0xA5A50001) (pllRun 0 .issue) = .next t) ∧
    (∃ x ∈ (pllRun 0 .issue).job.drop ((pllRun 0 .issue).spc + 1), x.tag = pllWr.tag) ∧
    (∃ t, exec (.dly 1000000) (usxWait 3) = .next t ∧ t.spc = (usxWait 3).spc) :=
  ⟨rfl, by decide, ⟨_, rfl⟩, by decide, ⟨_, rfl, rfl⟩⟩

theorem witness_BlockResetClearsTheHardwareState :
    configOk midDelay.cfg = true ∧ midDelay.agenda = .blockReset :: [] ∧
    (pending testConfigR [.blockReset]).agenda = .blockReset :: [] ∧ (pending testConfigR [.blockReset]).fsm = .idle := by
  decide

/- P4 and P4b: the calibration part is hit, the PLL part is hit. -/
theorem witness_BlockResetDuringAJob :
    configOk midRmw.cfg = true ∧ midRmw.agenda = .blockReset :: [] ∧ midRmw.fsm = .run ∧
    (∃ t, step midRmw = .next t) ∧ midRmw.job[1]? = some pllRmw ∧ midRmw.spc = 1 ∧ midRmw.ph ≠ .issue ∧
    midDelay.fsm = .run ∧ (∃ t, step midDelay = .next t) ∧
    midDelay.job[8]? = some (bound (StepWord.wr .pcs 0x04 0x1) (some 1) (.cal .an10g)) ∧ midDelay.spc = 9 ∧
    midDelay.job[9]? = some (bound (StepWord.dly 100) (some 1) (.cal .an10g)) :=
  ⟨by decide, rfl, rfl, ⟨_, rfl⟩, by decide, rfl, by decide, rfl, ⟨_, rfl⟩, by decide, rfl, by decide⟩

theorem witness_PllSequenceTrace : configOk testConfigR = true ∧ testConfigR.hasPll = true := by decide

theorem witness_UsxResetTrace :
    configOk testConfigR = true ∧ testConfigR.hasRst = true ∧ laneOf testConfigR 1 = some 1 ∧
    laneOf testConfigR 2 = some 0 := by
  decide

theorem witness_SgmResetTrace :
    configOk testConfigI = true ∧ testConfigI.hasRst = true ∧ laneOf testConfigI 1 = some 1 ∧
    laneOf testConfigI 2 = some 2 := by
  decide

theorem witness_ResetVariantsAccessDisjointOffsets :
    configOk testConfigR = true ∧ bound (StepWord.wr .rst 0x04 0x20) (some 0) .usxRst ∈ usxJob testConfigR 2 ∧
    bound (StepWord.setb .rst 0x08 0xC) (some 0) .sgmRst ∈ sgmJob testConfigR 2 ∧
    accessOff (StepWord.wr .rst 0x04 0x20) = some 0x04 ∧ accessOff (StepWord.setb .rst 0x08 0xC) = some 0x08 := by
  decide

theorem witness_ForcePrefixTrace :
    configOk testConfigR = true ∧ testForce 0x1 0x30 = testConfigR.k.f5g ∧ testForce 0x2 0x10 = testConfigR.k.f10g := by
  decide

theorem witness_ProgramsEndWithTheHandshake :
    configOk testConfigR = true ∧
    Event.wr (.pextp 1) 0x100 0x22 ∈
      jobEvents (fun _ => 0) 0 (bindAll (some 1) (.cal .g2) (testConfigR.rom.prog.get .g2)) := by
  decide

theorem witness_StepCounts : configOk testConfigR = true ∧ testConfigR.rom.prog.f5g.length = 20 := by decide

theorem witness_DelayLowerBounds :
    configOk testConfigR = true ∧ testConfigR.rom.usx1 ∈ [testConfigR.rom.usx1, testConfigR.rom.usx2] ∧
    delayTotal testConfigR.rom.usx1 + delayTotal (testConfigR.rom.prog.get .f5g) = 1667200 := by
  decide

theorem witness_InvariantHoldsAtPowerUp :
    configOk testConfigR = true ∧ configOk cfgNoLane = true ∧ configOk cfgOneLane = true ∧ configOk cfgNoRst = true := by
  decide

theorem witness_CalibrationStaysOnItsLane :
    configOk testConfigR = true ∧ calFirst ∈ calJob testConfigR .g1 1 ∧
    Event.wr (.pextp 1) 0x100 0x21 ∈ jobEvents (fun _ => 0) 0 (calJob testConfigR .g1 1) ∧
    (calAt 0 .issue).cfg = testConfigR ∧ (calAt 0 .issue).fsm = .run ∧
    (calAt 0 .issue).job[(calAt 0 .issue).spc]? = some calFirst ∧
    decodeStep calFirst.word = .ok (.wr .pextp 0x100 0x21) ∧
    ∃ t, exec (.wr .pextp 0x100 0x21) (calAt 0 .issue) = .next t :=
  ⟨by decide, by decide, by decide, rfl, rfl, by decide, by decide, ⟨_, rfl⟩⟩

theorem witness_ConfigurationHazardsAndTraceArePermanent :
    let s := { pllRun 0 .issue with faults := { busy := true, calNoPll := false } }
    (∃ t, step s = .next t) ∧ s.faults.mem .busy = true :=
  ⟨⟨_, rfl⟩, rfl⟩

/- One step that leaves `spc`, one that adds 1, one that sets it to 0. -/
theorem witness_SpcOnlyAdvancesByOneOrRestarts :
    (∃ t, step (usxWait 3) = .next t ∧ t.spc = 4) ∧ (∃ t, step (pllRun 0 .issue) = .next t ∧ t.spc = 1) ∧
    (∃ t, step (pllRun 2 .issue) = .next t ∧ t.spc = 0) :=
  ⟨⟨_, rfl, rfl⟩, ⟨_, rfl, rfl⟩, ⟨_, rfl, rfl⟩⟩

theorem witness_GhostStateImprovesOnlyInOrder :
    (∃ t, step calEnd = .next t ∧ calEnd.redriveOf 1 = .rstSeen ∧ t.redriveOf 1 = .clean) ∧
    (∃ t, step { usxWait 0 with pllDone := true } = .next t ∧ (usxWait 0).redriveOf 1 = .dirty ∧
      t.redriveOf 1 = .rstSeen) ∧
    (∃ t, step (pllRun 1 .rmwWb) = .next t ∧ (pllRun 1 .rmwWb).pllDone = false ∧ t.pllDone = true) ∧
    (∃ t, step midRmw = .next t ∧ midRmw.pllDone = true ∧ t.pllDone = false) :=
  ⟨⟨_, rfl, rfl, rfl⟩, ⟨_, rfl, rfl, rfl⟩, ⟨_, rfl, rfl, rfl⟩, ⟨_, rfl, rfl, rfl⟩⟩

theorem witness_StepKeepsTheInvariant :
    Inv (pllRun 1 .rmwWb) ∧ (∃ t, step (pllRun 1 .rmwWb) = .next t) ∧ Inv (usxWait 3) ∧ (∃ t, step (usxWait 3) = .next t) ∧
    Inv (cmdPending testConfigR 0x27100101) ∧ ∃ t, step (cmdPending testConfigR 0x27100101) = .next t :=
  ⟨inv_rmwWb, ⟨_, rfl⟩, inv_wait, ⟨_, rfl⟩, inv_idle _ _ (by decide), ⟨_, rfl⟩⟩

theorem witness_NoStuckState :
    Inv (pllRun 1 .rmwWb) ∧ nextMoveOk (pllRun 1 .rmwWb) = true ∧ Inv (pending testConfigR [.host (.read 0x8 32)]) ∧
    nextMoveOk (pending testConfigR [.host (.read 0x8 32)]) = true :=
  ⟨inv_rmwWb, rfl, inv_idle _ _ (by decide), rfl⟩

theorem witness_RunningJobIsTheOneCmdBuilds :
    let s := { pllRun 0 .issue with cmd := 0x4 }
    s.fsm = .run ∧ s.job = (decodeAndBuild s.cfg s.cmd).job ∧ ∃ t, step s = .next t :=
  ⟨rfl, by decide, ⟨_, rfl⟩⟩

theorem witness_EveryJobEnds : Inv (usxWait 3) ∧ (usxWait 3).agenda = [] ∧ (usxWait 3).fsm = .run :=
  ⟨inv_wait, rfl, rfl⟩

theorem witness_CommandRunsItsWholeJob :
    Inv State.reset ∧ State.reset.fsm = .idle ∧ (decodeAndBuild State.reset.cfg 0x27100101).job.length = 27 :=
  ⟨inv_idle testConfigR [] (by decide), rfl, by decide⟩

/-- An IDLE state with the answers to the next reads, and a value in RD. -/
def idleWith (a : List Word) (rd : Word) : State := { pending testConfigR [] with answers := a, rd := rd }

theorem inv_idleWith (a : List Word) (rd : Word) : Inv (idleWith a rd) :=
  { inv_idle testConfigR [] (by decide) with }

/- ENABLE_PLL runs to its end from both states: accept, WR, two phases of RMW, completion. -/
theorem witness_SameReadsGiveTheSameRun :
    let s := idleWith [0x12345670, 0x0] 0x0
    let s' := idleWith [0x12345670, 0x0, 0x1] 0xFFFFFFFF
    Inv s ∧ Inv s' ∧ s.fsm = .idle ∧ s'.fsm = .idle ∧ s.cfg = s'.cfg ∧
    (∀ n < (decodeAndBuild s.cfg 0x4).job.length, oracle s n = oracle s' n) ∧
    (∃ t, completes s 0x4 t) ∧ ∃ t, completes s' 0x4 t :=
  ⟨inv_idleWith _ _, inv_idleWith _ _, rfl, rfl, rfl, by decide,
    ⟨_, 5, ⟨_, rfl, _, rfl, _, rfl, _, rfl, _, rfl, rfl⟩, rfl, rfl⟩,
    ⟨_, 5, ⟨_, rfl, _, rfl, _, rfl, _, rfl, _, rfl, rfl⟩, rfl, rfl⟩⟩

/- The two runs read different values. -/
theorem witness_EventPositionsDoNotDependOnReads :
    let s := idleWith [0x12345670] 0x0
    let s' := idleWith [0xFFFFFFFF] 0x0
    Inv s ∧ Inv s' ∧ s.fsm = .idle ∧ s'.fsm = .idle ∧ s.cfg = s'.cfg ∧ oracle s 0 ≠ oracle s' 0 ∧
    (∃ t, completes s 0x4 t) ∧ ∃ t, completes s' 0x4 t :=
  ⟨inv_idleWith _ _, inv_idleWith _ _, rfl, rfl, rfl, by decide,
    ⟨_, 5, ⟨_, rfl, _, rfl, _, rfl, _, rfl, _, rfl, rfl⟩, rfl, rfl⟩,
    ⟨_, 5, ⟨_, rfl, _, rfl, _, rfl, _, rfl, _, rfl, rfl⟩, rfl, rfl⟩⟩

/-- CFG-R with a tick as long as the longest delay, so that each delay is one tick. -/
def cfgSlowTick : Config := { testConfigR with tickNs := 1000000 }

/-- Whether `n` steps lead to the end of a run. -/
def endsAfter : Nat → State → Bool
  | 0, s => s.fsm == Fsm.idle && s.agenda.isEmpty
  | n + 1, s =>
    match step s with
    | .next t => endsAfter n t
    | .fault _ => false
    | .refused _ => false

theorem stepsTo_of_endsAfter {n : Nat} {s : State} (h : endsAfter n s = true) : ∃ t, stepsTo n s t ∧ runEnded t := by
  induction n generalizing s with
  | zero =>
    simp only [endsAfter, Bool.and_eq_true, beq_iff_eq, List.isEmpty_iff] at h
    exact ⟨s, rfl, h⟩
  | succ n ih =>
    unfold endsAfter at h
    split at h
    · obtain ⟨t, ht, he⟩ := ih h
      exact ⟨t, ⟨_, ‹_›, ht⟩, he⟩
    · cases h
    · cases h

/- Program P1: SETUP_FORCED of port 1 runs its PLL, reset and calibration parts, 27 steps, with a lane present. -/
theorem witness_SetupForcedIsItsThreePrimitives :
    let s := { pending cfgSlowTick [] with answers := List.replicate 6 0 }
    Inv s ∧ s.fsm = .idle ∧ (1 : PortId).toNat < s.cfg.portCount ∧ s.cfg.hasPll = true ∧
    (setupJob s.cfg .f5g 1).length = 27 ∧ ∃ t, completes s (Cmd32.word 0x2#4 1 1 0#16) t :=
  ⟨{ inv_idle cfgSlowTick [] (by decide) with }, rfl, by decide, rfl, by decide,
    let ⟨t, h⟩ := stepsTo_of_endsAfter (n := 53) (by decide +kernel); ⟨t, 53, h⟩⟩

end Sys2Proof.Tests
end

/-! ## Scope: the configurations the machine refuses (44_calibration.md R143, 60_exceptions.md R183) -/

namespace Sys2Proof.Machine

/-- The guard of `step`: without an accepted configuration no agent moves, whatever else the state holds. -/
theorem step_of_not_configOk {s : State} (hc : ¬ configOk s.cfg = true) : step s = .refused .illFormedConfig :=
  if_neg hc

/-- Settles O7: an accepted configuration passes every check, so the one that fails is against `configOk`. -/
theorem illFormedConfigurationHasNoStep : Obligations.IllFormedConfigurationHasNoStep := by
  intro s hfail
  refine step_of_not_configOk fun hok => ?_
  obtain ⟨hparams, h1, h2, h3, h4, h5, h6, h7, h8, h9, h10, h11, h12⟩ := configOk_all hok
  simp [hparams, h1, h2, h3, h4, h5, h6, h7, h8, h9, h10, h11, h12] at hfail

end Sys2Proof.Machine

/-! ## What a step leaves behind: the effects every whole-machine rule is proved over -/

namespace Sys2Proof.Machine

open Sys2Proof.Safety

/-- What one phase of instruction `i` leaves of `s`, whose step at `spc` is `b`: it ends the step, or leaves it waiting for
the write phase of an RMW or for the timer of a DLY (40_steps.md R88 to R97). It is coarser than `exec_step_next`, which also
says which events and which values: the whole-machine rules hold for any. -/
inductive PhaseEffect (i : Instr) (s : State) (b : BoundStep) : State → Prop
  | ends (es : List Event) (n : Nat) (hn : n ≤ s.tmr) : PhaseEffect i s b (phaseEnds s b es n)
  | reads (dc : DomainClass) (off mask val : Word) (hi : i = .rmw dc off mask val) (dom : Domain) (v : Word)
      (rest : List Word) (n : Nat) :
      PhaseEffect i s b
        { s with
          faults := phaseFaults s b, rd := v, trace := s.trace ++ [.rd dom off v], answers := rest, draws := n, ph := .rmwWb }
  | waits (d : Word) (hi : i = .dly d) (n : Nat) (hn : n ≤ s.tmr ∨ n = timerLoad s.cfg.tickNs d) :
      PhaseEffect i s b { s with faults := phaseFaults s b, tmr := n, ph := .wait }

/-- A phase in another phase than ISSUE records nothing. -/
theorem phaseFaults_of_ne_issue {s : State} (b : BoundStep) (hp : s.ph ≠ .issue) : phaseFaults s b = s.faults := if_neg hp

/-- A step instruction that gives a next state has run one phase of the step at `spc`. -/
theorem exec_phaseEffect {i : Instr} {s t : State} (hi : isCommand i = false) (h : exec i s = .next t) :
    ∃ b, s.fsm = .run ∧ s.job[s.spc]? = some b ∧ PhaseEffect i s b t := by
  obtain ⟨b, hf, hb, hcases⟩ := exec_step_next hi h
  refine ⟨b, hf, hb, ?_⟩
  obtain ⟨dc, off, val, dom, rfl, hp, hd, rfl⟩ | ⟨dc, off, mask, val, dom, rfl, hp, hd, rfl⟩ |
    ⟨dc, off, mask, val, dom, rfl, hp, hd, rfl⟩ | ⟨d, rfl, hp, h0, rfl⟩ | ⟨d, rfl, hp, h0, rfl⟩ | ⟨d, rfl, hp, h0, rfl⟩ |
    ⟨d, rfl, hp, h0, rfl⟩ := hcases
  · exact .ends _ _ le_rfl
  · exact .reads dc off mask val rfl dom _ _ _
  · exact .ends _ _ le_rfl
  · exact .ends _ _ (Nat.zero_le _)
  · exact .waits d rfl _ (.inr rfl)
  · exact .ends _ _ le_rfl
  · have hw := PhaseEffect.waits (b := b) d rfl (s.tmr - 1) (.inl (Nat.sub_le _ _))
    rwa [phaseFaults_of_ne_issue b (by simp [hp]), ← hp] at hw

/-- What one step leaves of `s`, the pending move gone from the agenda: nothing but a host read's value or HZ_BUSY; an
accepted command; a phase of the step at `spc`; the completion of the command; or a block reset (45_orchestration.md R174). -/
inductive StepEffect (s : State) : State → Prop
  | quiet (rest : List Move) (f : HazardSet) (hf : f = s.faults ∨ f = s.faults.insert .busy) (seen : List Word) :
      StepEffect s { s with agenda := rest, faults := f, hostSeen := seen }
  | accepts (rest : List Move) (w : Word) (hidle : s.fsm = .idle) :
      StepEffect s (({ s with agenda := rest }).accept w (decodeAndBuild s.cfg w))
  | phase (rest : List Move) {b : BoundStep} {i : Instr} {t : State} (hrun : s.fsm = .run) (hb : s.job[s.spc]? = some b)
      (hdec : decodeStep b.word = .ok i) (hphase : PhaseEffect i { s with agenda := rest } b t) : StepEffect s t
  | completes (rest : List Move) (hrun : s.fsm = .run) (hend : s.spc = s.job.length) :
      StepEffect s (({ s with agenda := rest }).complete s.res LaneFields.zero)
  | resets (rest : List Move) (hagenda : s.agenda = .blockReset :: rest) :
      StepEffect s ({ s with agenda := rest }).blockReset

/-- Every step has one of these effects. -/
theorem step_effect {s t : State} (h : step s = .next t) : StepEffect s t := by
  obtain ⟨-, m, rest, hagenda, hmove⟩ := step_next h
  obtain ⟨off, rfl, rfl⟩ | ⟨off, w, rfl, hoff, rfl⟩ | ⟨w, rfl, hidle, rfl⟩ | ⟨w, rfl, hrun, rfl⟩ | ⟨rfl, hidle, rfl⟩ |
    ⟨rfl, hrun, b, i, hb, hdec, hi, hexec⟩ | ⟨rfl, hrun, hend, rfl⟩ | ⟨rfl, rfl⟩ := moveOf_next hmove
  · exact .quiet rest _ (.inl rfl) _
  · exact .quiet rest _ (.inl rfl) _
  · exact .accepts rest w hidle
  · exact .quiet rest _ (.inr rfl) _
  · exact .quiet rest _ (.inl rfl) _
  · obtain ⟨b', -, hb', hphase⟩ := exec_phaseEffect hi hexec
    obtain rfl : b = b' := Option.some.inj (hb.symm.trans hb')
    exact .phase rest hrun hb hdec hphase
  · exact .completes rest hrun hend
  · obtain hagenda | ⟨-, hm, -⟩ := hagenda
    · exact .resets rest hagenda
    · cases hm

end Sys2Proof.Machine

/-! ## The invariant (10_state.md R41) -/

namespace Sys2Proof.Safety

open Sys2Proof.Machine

/-- Nothing in the invariant reads the agenda, the hazards or what the host has seen. -/
theorem Inv.withPending {s : State} (hinv : Inv s) (rest : List Move) (f : HazardSet) (seen : List Word) :
    Inv { s with agenda := rest, faults := f, hostSeen := seen } := { hinv with }

/-- In IDLE the invariant asks for the reset values of the sequencer, a clear BUSY and LANE_PRESENT within LANE_VALID. -/
theorem inv_of_idle {s : State} (hconfig : configOk s.cfg = true) (hfsm : s.fsm = .idle) (hjob : s.job = [])
    (hspc : s.spc = 0) (hph : s.ph = .issue) (hbusy : s.status.busy = false)
    (hlanes : s.status.lanePresent = true → s.status.laneValid = true)
    (htmr : s.tmr ≤ timerLoad s.cfg.tickNs 0xFFFFFFFF#32) (hredrive : s.redrive.length = s.cfg.laneCount)
    (hres : s.res = .ok) : Inv s where
  config := hconfig
  idle_iff_no_job := by simp [hfsm, hjob]
  busy_iff_run := by simp [hfsm, hbusy]
  not_done_in_run := by simp [hfsm]
  spc_le := by simp [hspc]
  phase_in_job := by simp [hph]
  rmwWb_at_rmw := by simp [hph]
  wait_at_dly := by simp [hph]
  steps_run := by simp [hjob]
  tmr_fits := htmr
  redrive_length := hredrive
  res_ok := hres
  present_valid := hlanes

/-- Settles O52: power-up is an IDLE state with every other field at its reset value. -/
theorem invariantHoldsAtPowerUp : Obligations.InvariantHoldsAtPowerUp := by
  intro c hc
  exact inv_of_idle hc rfl rfl rfl rfl rfl nofun (Nat.zero_le _) List.length_replicate rfl

/-! ### Acceptance and completion -/

/-- SEQ can execute every step of the job a command word builds (20_memory.md R47). -/
theorem decodeAndBuild_job_runnable {c : Config} (hc : configOk c = true) (w : Word) :
    ∀ b ∈ (decodeAndBuild c w).job, runnable c b = true := by
  obtain ⟨r, -, hw⟩ | ⟨j, hw, hj⟩ | ⟨p, hw⟩ := build_cases c w
  · simp [hw, Build.failed]
  · simpa [hw, Build.run] using hj hc
  · simp [hw, buildQueryLane]

/-- A lane is reported present only when the resolver gives it (45_orchestration.md R162). -/
theorem queryFields_present_valid {c : Config} {p : PortId} (h : (queryFields c p).present = true) :
    (queryFields c p).valid = true := by
  obtain ⟨l, hl⟩ := Option.isSome_iff_exists.1 h
  simp [queryFields, (laneOf_eq_some.1 hl).1]

/-- The lane fields a command word builds have LANE_PRESENT only with LANE_VALID (10_state.md R20). -/
theorem decodeAndBuild_present_valid {c : Config} {w : Word} (h : (decodeAndBuild c w).lanes.present = true) :
    (decodeAndBuild c w).lanes.valid = true := by
  obtain ⟨r, -, hw⟩ | ⟨j, hw, -⟩ | ⟨p, hw⟩ := build_cases c w
  · simp [hw, Build.failed, LaneFields.zero] at h
  · simp [hw, Build.run, LaneFields.zero] at h
  · rw [hw] at h ⊢
    exact queryFields_present_valid h

/-- Completion gives an IDLE state. -/
theorem Inv.complete {s : State} (hinv : Inv s) (r : Result) {lf : LaneFields}
    (hlanes : lf.present = true → lf.valid = true) : Inv (s.complete r lf) :=
  inv_of_idle hinv.config rfl rfl rfl rfl rfl hlanes hinv.tmr_fits hinv.redrive_length hinv.res_ok

/-- The start of a job of runnable steps. -/
theorem Inv.jobStarted {s : State} (hinv : Inv s) (w : Word) {j : List BoundStep} (hne : j ≠ [])
    (hj : ∀ b ∈ j, runnable s.cfg b = true) : Inv (jobStarted s w j) where
  config := hinv.config
  idle_iff_no_job := by simp [Safety.jobStarted, hne]
  busy_iff_run := by simp [Safety.jobStarted]
  not_done_in_run := fun _ => rfl
  spc_le := Nat.zero_le _
  phase_in_job := by simp [Safety.jobStarted]
  rmwWb_at_rmw := nofun
  wait_at_dly := nofun
  steps_run := hj
  tmr_fits := hinv.tmr_fits
  redrive_length := hinv.redrive_length
  res_ok := rfl
  present_valid := hinv.present_valid

/-- Acceptance completes at once, or starts the job it built. -/
theorem Inv.accept {s : State} (hinv : Inv s) (w : Word) : Inv (s.accept w (decodeAndBuild s.cfg w)) := by
  rw [State.accept_eq]
  split
  · exact inv_of_idle hinv.config rfl rfl rfl rfl rfl decodeAndBuild_present_valid hinv.tmr_fits hinv.redrive_length
      hinv.res_ok
  · rename_i hstart
    exact hinv.jobStarted w (fun hnil => hstart (.inr hnil)) (decodeAndBuild_job_runnable hinv.config w)

/-! ### Phases -/

/-- The load of a DLY is largest for the longest delay (10_state.md R29). -/
theorem timerLoad_le_max (n : Nat) (d : Word) : timerLoad n d ≤ timerLoad n 0xFFFFFFFF#32 := by
  refine Nat.div_le_div_right (Nat.add_le_add_right ?_ _)
  have hd := d.isLt
  rw [show (0xFFFFFFFF#32).toNat = 2 ^ 32 - 1 from rfl]
  omega

/-- The end of a step: `spc` passes it, and the ghost updates keep `redrive` at its length. -/
theorem Inv.phaseEnds {s : State} (hinv : Inv s) {b : BoundStep} (hb : s.job[s.spc]? = some b) (es : List Event) {n : Nat}
    (hn : n ≤ s.tmr) : Inv (phaseEnds s b es n) where
  config := hinv.config
  idle_iff_no_job := hinv.idle_iff_no_job
  busy_iff_run := hinv.busy_iff_run
  not_done_in_run := hinv.not_done_in_run
  spc_le := (List.getElem?_eq_some_iff.1 hb).1
  phase_in_job := fun hp => absurd rfl hp
  rmwWb_at_rmw := nofun
  wait_at_dly := nofun
  steps_run := hinv.steps_run
  tmr_fits := hn.trans hinv.tmr_fits
  redrive_length := by
    rw [← show s.redrive.length = (Machine.phaseEnds s b es n).cfg.laneCount from hinv.redrive_length]
    simp only [Machine.phaseEnds]
    split <;> simp
  res_ok := hinv.res_ok
  present_valid := hinv.present_valid

/-- Every phase of the step at `spc`: RMW_WB is entered at an RMW and WAIT at a DLY, with a load that fits. -/
theorem Inv.phase {s t : State} (hinv : Inv s) {b : BoundStep} {i : Instr} (hb : s.job[s.spc]? = some b)
    (hdec : decodeStep b.word = .ok i) (hphase : PhaseEffect i s b t) : Inv t := by
  have hlt : s.spc < s.job.length := (List.getElem?_eq_some_iff.1 hb).1
  cases hphase with
  | ends es n hn => exact hinv.phaseEnds hb es hn
  | reads dc off mask val hi dom v rest n =>
    subst hi
    exact { hinv with
      phase_in_job := fun _ => hlt
      rmwWb_at_rmw := fun _ => ⟨b, dc, off, mask, val, hb, hdec⟩
      wait_at_dly := nofun }
  | waits d hi n hn =>
    subst hi
    exact { hinv with
      phase_in_job := fun _ => hlt
      rmwWb_at_rmw := nofun
      wait_at_dly := fun _ => ⟨b, d, hb, hdec⟩
      tmr_fits := by
        obtain hle | rfl := hn
        · exact hle.trans hinv.tmr_fits
        · exact timerLoad_le_max _ _ }

/-! ### Block reset and the whole step -/

/-- Block reset gives an IDLE state. -/
theorem Inv.blockReset {s : State} (hinv : Inv s) : Inv s.blockReset := by
  obtain ⟨pd, rv, hlen, -, heq⟩ := s.blockReset_eq
  rw [heq]
  exact inv_of_idle hinv.config rfl rfl rfl rfl rfl nofun (Nat.zero_le _) (hlen.trans hinv.redrive_length) rfl

/-- Settles O53: each effect of a step keeps the invariant. -/
theorem stepKeepsTheInvariant : Obligations.StepKeepsTheInvariant := by
  intro s t hinv hstep
  have hpending (rest : List Move) : Inv { s with agenda := rest } := hinv.withPending rest s.faults s.hostSeen
  cases step_effect hstep with
  | quiet rest f hf seen => exact hinv.withPending rest f seen
  | accepts rest w hidle => exact (hpending rest).accept w
  | phase rest hrun hb hdec hphase => exact (hpending rest).phase hb hdec hphase
  | completes rest hrun hend => exact (hpending rest).complete _ nofun
  | resets rest hagenda => exact (hpending rest).blockReset

end Sys2Proof.Safety

/-! ## Whole-machine rules -/

namespace Sys2Proof.Machine

open Sys2Proof.Safety

/-- Acceptance leaves IDLE with the command completed, or RUN with the job that the word builds at its first step. -/
theorem State.accept_job (s : State) (w : Word) (b : Build) :
    (s.accept w b).cfg = s.cfg ∧ (s.accept w b).cmd = w ∧ (s.accept w b).spc = 0 ∧
      ((s.accept w b).fsm = .run → (s.accept w b).job = b.job) := by
  rw [State.accept_eq]
  split
  · exact ⟨rfl, rfl, rfl, nofun⟩
  · exact ⟨rfl, rfl, rfl, fun _ => rfl⟩

/-- Acceptance changes no ghost state but the trace, which it extends. -/
theorem State.accept_ghost (s : State) (w : Word) (b : Build) :
    (s.accept w b).pllDone = s.pllDone ∧ (s.accept w b).redrive = s.redrive ∧ (s.accept w b).faults = s.faults ∧
      ∃ es, (s.accept w b).trace = s.trace ++ es := by
  rw [State.accept_eq]
  split
  · exact ⟨rfl, rfl, rfl, _, rfl⟩
  · exact ⟨rfl, rfl, rfl, _, rfl⟩

/-! ### Permanence (10_state.md R31, R34, R35) -/

/-- A hazard that is recorded stays recorded when another is added. -/
theorem HazardSet.mem_insert_of_mem {f : HazardSet} {h : Hazard} (g : Hazard) (hm : f.mem h = true) :
    (f.insert g).mem h = true := by
  simp [HazardSet.mem_insert, hm]

/-- The start of a step removes no hazard. -/
theorem phaseFaults_mem {s : State} {b : BoundStep} {h : Hazard} (hm : s.faults.mem h = true) :
    (phaseFaults s b).mem h = true := by
  unfold phaseFaults
  split
  · rw [State.startStep_eq]
    dsimp only
    split
    · exact HazardSet.mem_insert_of_mem _ hm
    · exact hm
  · exact hm

/-- A phase leaves the configuration, CMD, the job and `fsm`, removes no hazard and extends the trace. -/
theorem PhaseEffect.frame {i : Instr} {s t : State} {b : BoundStep} (h : PhaseEffect i s b t) :
    t.cfg = s.cfg ∧ t.cmd = s.cmd ∧ t.job = s.job ∧ t.fsm = s.fsm ∧
      (∀ g, s.faults.mem g = true → t.faults.mem g = true) ∧ ∃ es, t.trace = s.trace ++ es := by
  cases h with
  | ends es n hn => exact ⟨rfl, rfl, rfl, rfl, fun g => phaseFaults_mem, es, rfl⟩
  | reads dc off mask val hi dom v rest n => exact ⟨rfl, rfl, rfl, rfl, fun g => phaseFaults_mem, _, rfl⟩
  | waits d hi n hn => exact ⟨rfl, rfl, rfl, rfl, fun g => phaseFaults_mem, [], (List.append_nil _).symm⟩

/-- Settles O49: each effect of a step keeps the configuration and the recorded hazards, and extends the trace. -/
theorem configurationHazardsAndTraceArePermanent : Obligations.ConfigurationHazardsAndTraceArePermanent := by
  intro s t hstep
  cases step_effect hstep with
  | quiet rest f hf seen =>
    refine ⟨rfl, fun h hm => ?_, [], (List.append_nil _).symm⟩
    obtain rfl | rfl := hf
    · exact hm
    · exact HazardSet.mem_insert_of_mem _ hm
  | accepts rest w hidle =>
    obtain ⟨-, -, hfaults, htrace⟩ := State.accept_ghost { s with agenda := rest } w (decodeAndBuild s.cfg w)
    obtain ⟨hcfg, -⟩ := State.accept_job { s with agenda := rest } w (decodeAndBuild s.cfg w)
    exact ⟨hcfg, fun h hm => by rwa [hfaults], htrace⟩
  | phase rest hrun hb hdec hphase =>
    obtain ⟨hcfg, -, -, -, hfaults, htrace⟩ := hphase.frame
    exact ⟨hcfg, hfaults, htrace⟩
  | completes rest hrun hend => exact ⟨rfl, fun h hm => hm, _, rfl⟩
  | resets rest hagenda =>
    obtain ⟨pd, rv, -, -, heq⟩ := ({ s with agenda := rest } : State).blockReset_eq
    rw [heq]
    exact ⟨rfl, fun h hm => hm, _, rfl⟩

/-! ### `spc` and the job (10_state.md R26, R27) -/

/-- A phase leaves `spc`, or ends its step and adds 1. -/
theorem PhaseEffect.spc {i : Instr} {s t : State} {b : BoundStep} (h : PhaseEffect i s b t) :
    t.spc = s.spc ∨ t.spc = s.spc + 1 := by
  cases h with
  | ends es n hn => exact .inr rfl
  | reads dc off mask val hi dom v rest n => exact .inl rfl
  | waits d hi n hn => exact .inl rfl

/-- Block reset leaves the sequencer IDLE at position 0. -/
theorem State.blockReset_idle (s : State) : s.blockReset.fsm = .idle ∧ s.blockReset.spc = 0 := ⟨rfl, rfl⟩

/-- Settles O50: a phase moves `spc` within the job; acceptance, completion and block reset set it to 0. -/
theorem spcOnlyAdvancesByOneOrRestarts : Obligations.SpcOnlyAdvancesByOneOrRestarts := by
  intro s t hstep
  cases step_effect hstep with
  | quiet rest f hf seen => exact .inl ⟨rfl, rfl⟩
  | accepts rest w hidle =>
    obtain ⟨-, -, hspc, -⟩ := State.accept_job { s with agenda := rest } w (decodeAndBuild s.cfg w)
    exact .inr (.inr ⟨hspc, .inl hidle⟩)
  | phase rest hrun hb hdec hphase =>
    obtain ⟨-, -, hjob, hfsm, -⟩ := hphase.frame
    obtain hspc | hspc := hphase.spc
    · exact .inl ⟨hspc, hjob⟩
    · exact .inr (.inl ⟨hspc, hjob, hrun, hfsm.trans hrun⟩)
  | completes rest hrun hend => exact .inr (.inr ⟨rfl, .inr rfl⟩)
  | resets rest hagenda =>
    obtain ⟨hfsm, hspc⟩ := ({ s with agenda := rest } : State).blockReset_idle
    exact .inr (.inr ⟨hspc, .inr hfsm⟩)

/-- Settles O55: acceptance starts the job that the word it latches builds, and no step of a running job changes CMD, the
configuration or the job. -/
theorem runningJobIsTheOneCmdBuilds : Obligations.RunningJobIsTheOneCmdBuilds := by
  intro s t hs hstep ht
  cases step_effect hstep with
  | quiet rest f hf seen => exact hs ht
  | accepts rest w hidle =>
    obtain ⟨hcfg, hcmd, -, hjob⟩ := State.accept_job { s with agenda := rest } w (decodeAndBuild s.cfg w)
    rw [hjob ht, hcfg, hcmd]
  | phase rest hrun hb hdec hphase =>
    obtain ⟨hcfg, hcmd, hjob, -⟩ := hphase.frame
    rw [hjob, hcfg, hcmd]
    exact hs hrun
  | completes rest hrun hend => cases ht
  | resets rest hagenda => cases ht

/-! ### The ghost state of PLL and lanes (10_state.md R32, R33) -/

/-- The part a tag names has no step from position `n` on. -/
theorem hasFrom_eq_false {job : List BoundStep} {n : Nat} {g : Tag} :
    hasFrom job n g = false ↔ ∀ x ∈ job.drop n, x.tag ≠ g := by
  simp [hasFrom]

/-- What a phase does to `pll_done` and `redrive`: nothing, unless it completes the last step of its part. -/
theorem PhaseEffect.ghost {i : Instr} {s t : State} {b : BoundStep} (h : PhaseEffect i s b t) :
    (t.pllDone = s.pllDone ∧ t.redrive = s.redrive) ∨
      (t.spc = s.spc + 1 ∧ (∀ x ∈ s.job.drop (s.spc + 1), x.tag ≠ b.tag) ∧
        t.pllDone = pllDoneAfter s.pllDone b.tag ∧ t.redrive = redriveAfter s.pllDone s.redrive b) := by
  cases h with
  | ends es n hn =>
    cases hlast : hasFrom s.job (s.spc + 1) b.tag with
    | true => exact .inl (by simp [phaseEnds, hlast])
    | false => exact .inr ⟨rfl, hasFrom_eq_false.1 hlast, by simp [phaseEnds, hlast], by simp [phaseEnds, hlast]⟩
  | reads dc off mask val hi dom v rest n => exact .inl ⟨rfl, rfl⟩
  | waits d hi n hn => exact .inl ⟨rfl, rfl⟩

/-- Settles O37: only the completion of the last step of a part touches `pll_done` and `redrive`. -/
theorem unfinishedPartLeavesPllDoneAndRedrive : Obligations.UnfinishedPartLeavesPllDoneAndRedrive := by
  intro s t b i hrun hb hi hexec hunfinished
  obtain ⟨b', -, hb', hphase⟩ := exec_phaseEffect hi hexec
  obtain rfl : b = b' := Option.some.inj (hb.symm.trans hb')
  obtain hkept | ⟨hspc, hlast, -⟩ := hphase.ghost
  · exact hkept
  · obtain hstay | ⟨x, hx, htag⟩ := hunfinished
    · omega
    · exact absurd htag (hlast x hx)

/-- An entry that `redriveSet` changes is that of the lane it sets. -/
theorem redriveSet_getD_ne {rv : List Redrive} {o : Option Lane} {r : Redrive} {l : Lane}
    (h : (redriveSet rv o r).getD l.toNat .dirty ≠ rv.getD l.toNat .dirty) :
    o = some l ∧ (redriveSet rv o r).getD l.toNat .dirty = r := by
  cases o with
  | none => exact absurd rfl h
  | some m =>
    simp only [redriveSet] at h ⊢
    by_cases hml : m = l
    · subst hml
      by_cases hlt : m.toNat < rv.length
      · simp [List.getD_eq_getElem?_getD, hlt]
      · exact absurd (by rw [List.set_eq_of_length_le (Nat.le_of_not_lt hlt)]) h
    · have hne : m.toNat ≠ l.toNat := fun heq => hml (BitVec.eq_of_toNat_eq heq)
      exact absurd (by simp only [List.getD_eq_getElem?_getD, List.getElem?_set_ne hne]) h

/-- A reset part changes its own lane only, never to CLEAN, and to RST_SEEN only with `pll_done` (43_reset.md R126). -/
theorem redriveAfterReset_improves {pd : Bool} {rv : List Redrive} {o : Option Lane} {l : Lane}
    (h : (redriveSet rv o (redriveAfterReset pd)).getD l.toNat .dirty ≠ rv.getD l.toNat .dirty) :
    o = some l ∧ (redriveSet rv o (redriveAfterReset pd)).getD l.toNat .dirty ≠ .clean ∧
      ((redriveSet rv o (redriveAfterReset pd)).getD l.toNat .dirty = .rstSeen → pd = true) := by
  obtain ⟨hlane, hval⟩ := redriveSet_getD_ne h
  rw [hval]
  cases pd <;> simp [redriveAfterReset, hlane]

/-- A calibration part changes its own lane only, never to RST_SEEN, and to CLEAN only with `pll_done` from RST_SEEN
(44_calibration.md R146). -/
theorem redriveAfterCal_improves {pd : Bool} {rv : List Redrive} {o : Option Lane} {l : Lane} {old : Redrive}
    (hold : old = (o.map fun m => rv.getD m.toNat .dirty).getD .dirty)
    (h : (redriveSet rv o (redriveAfterCal pd old)).getD l.toNat .dirty ≠ rv.getD l.toNat .dirty) :
    o = some l ∧ (redriveSet rv o (redriveAfterCal pd old)).getD l.toNat .dirty ≠ .rstSeen ∧
      ((redriveSet rv o (redriveAfterCal pd old)).getD l.toNat .dirty = .clean →
        pd = true ∧ rv.getD l.toNat .dirty = .rstSeen) := by
  obtain ⟨rfl, hval⟩ := redriveSet_getD_ne h
  rw [hval] at h ⊢
  rw [← show old = rv.getD l.toNat .dirty from hold] at h ⊢
  refine ⟨rfl, ?_⟩
  cases pd <;> cases old <;> simp [redriveAfterCal] at h ⊢

/-- A completed part changes `redrive` at its own lane only, makes it CLEAN only as a calibration part and RST_SEEN only as
a reset part, both only with `pll_done`. -/
theorem redriveAfter_improves {pd : Bool} {rv : List Redrive} {b : BoundStep} {l : Lane}
    (h : (redriveAfter pd rv b).getD l.toNat .dirty ≠ rv.getD l.toNat .dirty) :
    b.lane = some l ∧
      ((redriveAfter pd rv b).getD l.toNat .dirty = .clean →
        pd = true ∧ rv.getD l.toNat .dirty = .rstSeen ∧ ∃ k, b.tag = .cal k) ∧
      ((redriveAfter pd rv b).getD l.toNat .dirty = .rstSeen → pd = true ∧ (b.tag = .usxRst ∨ b.tag = .sgmRst)) := by
  unfold redriveAfter at h ⊢
  cases htag : b.tag with
  | pll => simp [htag] at h
  | usxRst =>
    simp only [htag] at h ⊢
    obtain ⟨hlane, hnotClean, hseen⟩ := redriveAfterReset_improves h
    exact ⟨hlane, fun hc => absurd hc hnotClean, fun hs => ⟨hseen hs, .inl trivial⟩⟩
  | sgmRst =>
    simp only [htag] at h ⊢
    obtain ⟨hlane, hnotClean, hseen⟩ := redriveAfterReset_improves h
    exact ⟨hlane, fun hc => absurd hc hnotClean, fun hs => ⟨hseen hs, .inr trivial⟩⟩
  | cal k =>
    simp only [htag] at h ⊢
    obtain ⟨hlane, hnotSeen, hclean⟩ := redriveAfterCal_improves rfl h
    refine ⟨hlane, fun hc => ?_, fun hs => absurd hs hnotSeen⟩
    obtain ⟨hdone, hold⟩ := hclean hc
    exact ⟨hdone, hold, k, rfl⟩

/-- Only the PLL part changes `pll_done`, and it sets it (42_pll.md R112). -/
theorem pllDoneAfter_ne {pd : Bool} {g : Tag} (h : pllDoneAfter pd g ≠ pd) : pllDoneAfter pd g = true ∧ g = .pll := by
  cases g with
  | pll => exact ⟨rfl, rfl⟩
  | _ => exact absurd rfl h

/-! ### The ghost state under block reset (70_reset_and_hazards.md R199) -/

/-- `t` has the ghost state of `s` but for lanes that are DIRTY and a `pll_done` that is clear. -/
def GhostOnlyFalls (s t : State) : Prop :=
  (t.pllDone = s.pllDone ∨ t.pllDone = false) ∧ ∀ l, t.redriveOf l = s.redriveOf l ∨ t.redriveOf l = .dirty

theorem GhostOnlyFalls.refl (s : State) : GhostOnlyFalls s s := ⟨.inl rfl, fun _ => .inl rfl⟩

theorem GhostOnlyFalls.trans {s t u : State} (hst : GhostOnlyFalls s t) (htu : GhostOnlyFalls t u) :
    GhostOnlyFalls s u := by
  obtain ⟨hpll, hlanes⟩ := hst
  obtain ⟨hpll', hlanes'⟩ := htu
  constructor
  · obtain heq | heq := hpll'
    · rwa [heq]
    · exact .inr heq
  · intro l
    obtain heq | heq := hlanes' l
    · rw [heq]
      exact hlanes l
    · exact .inr heq

theorem State.pllInterrupted_falls (s : State) : GhostOnlyFalls s s.pllInterrupted := by
  refine ⟨.inr rfl, fun l => .inr ?_⟩
  simp only [State.redriveOf, State.pllInterrupted_redrive, List.getD_eq_getElem?_getD, List.getElem?_map]
  cases s.redrive[l.toNat]? <;> rfl

theorem State.stepInterrupted_falls (s : State) (b : BoundStep) : GhostOnlyFalls s (s.stepInterrupted b) := by
  rw [State.stepInterrupted_eq]
  refine ⟨.inl rfl, fun l => ?_⟩
  unfold State.redriveOf
  dsimp only
  split
  · by_cases heq : (redriveSet s.redrive b.lane .dirty).getD l.toNat .dirty = s.redrive.getD l.toNat .dirty
    · exact .inl heq
    · exact .inr (redriveSet_getD_ne heq).2
  · exact .inl rfl

theorem State.foldl_stepInterrupted_falls (steps : List BoundStep) (s : State) :
    GhostOnlyFalls s (steps.foldl State.stepInterrupted s) := by
  induction steps generalizing s with
  | nil => exact .refl s
  | cons b steps ih => exact (s.stepInterrupted_falls b).trans (ih _)

theorem State.interrupted_falls (s : State) : GhostOnlyFalls s s.interrupted := by
  unfold State.interrupted
  dsimp only
  split
  · exact s.pllInterrupted_falls.trans (State.foldl_stepInterrupted_falls _ _)
  · exact State.foldl_stepInterrupted_falls _ _

/-- Block reset improves no ghost state: what a job has reached, it keeps or loses. -/
theorem State.blockReset_falls (s : State) : GhostOnlyFalls s s.blockReset := by
  cases hf : s.fsm with
  | idle =>
    obtain ⟨pd, rv, -, hkept, heq⟩ := s.blockReset_eq
    obtain ⟨rfl, rfl⟩ := hkept hf
    rw [heq]
    exact .refl s
  | run =>
    obtain ⟨hpll, hlanes⟩ := s.interrupted_falls
    simp only [GhostOnlyFalls, State.redriveOf, State.blockReset, hf, State.emit_pllDone, State.emit_redrive,
      State.freeRd_pllDone, State.freeRd_redrive]
    exact ⟨hpll, hlanes⟩

/-- Settles O51: `redrive` and `pll_done` change only at the end of a part, which raises them in order, and at a block
reset, which never does. -/
theorem ghostStateImprovesOnlyInOrder : Obligations.GhostStateImprovesOnlyInOrder := by
  intro s t hstep
  cases step_effect hstep with
  | quiet rest f hf seen => exact ⟨fun l hne => absurd rfl hne, fun hne => absurd rfl hne⟩
  | accepts rest w hidle =>
    obtain ⟨hpll, hredrive, -⟩ := State.accept_ghost { s with agenda := rest } w (decodeAndBuild s.cfg w)
    exact ⟨fun l hne => absurd (by rw [State.redriveOf, hredrive]; rfl) hne, fun hne => absurd hpll hne⟩
  | @phase rest b i t hrun hb hdec hphase =>
    obtain ⟨hpll, hredrive⟩ | ⟨hspc, hlast, hpll, hredrive⟩ := hphase.ghost
    · exact ⟨fun l hne => absurd (by rw [State.redriveOf, hredrive]; rfl) hne, fun hne => absurd hpll hne⟩
    · refine ⟨fun l hne => ?_, fun hne => .inl ?_⟩
      · unfold State.redriveOf at hne ⊢
        rw [hredrive] at hne ⊢
        obtain ⟨hlane, hclean, hseen⟩ := redriveAfter_improves hne
        constructor
        · intro hc
          obtain ⟨hdone, hold, k, htag⟩ := hclean hc
          exact ⟨hdone, hold, hspc, b, k, hb, htag, hlane, hlast⟩
        · intro hs
          obtain ⟨hdone, htag⟩ := hseen hs
          exact ⟨hdone, hspc, b, hb, htag, hlane, hlast⟩
      · rw [hpll] at hne ⊢
        obtain ⟨hset, htag⟩ := pllDoneAfter_ne hne
        exact ⟨hset, hrun, hspc, b, hb, htag, htag ▸ hlast⟩
  | completes rest hrun hend => exact ⟨fun l hne => absurd rfl hne, fun hne => absurd rfl hne⟩
  | resets rest hagenda =>
    obtain ⟨hpll, hlanes⟩ := ({ s with agenda := rest } : State).blockReset_falls
    refine ⟨fun l hne => ?_, fun hne => .inr ⟨?_, ?_, rest, hagenda⟩⟩
    · rw [(hlanes l).resolve_left hne]
      exact ⟨nofun, nofun⟩
    · exact hpll.resolve_left hne
    · cases hf : s.fsm with
      | run => rfl
      | idle =>
        obtain ⟨pd, rv, -, hkept, heq⟩ := ({ s with agenda := rest } : State).blockReset_eq
        rw [heq] at hne
        exact absurd (hkept hf).1 hne

end Sys2Proof.Machine

/-! ## Power-up, STATUS and the host window (10_state.md R18, R20, R21, R38) -/

namespace Sys2Proof.Machine

/-- STATUS reads 0 when every field is 0 (10_state.md R38). -/
theorem statusWord_zero : statusWord Status.zero = 0#32 := by decide

/-- Settles O6: the fields of `State.powerUp` are those of the power-up column. -/
theorem powerUpValues : Obligations.PowerUpValues := by
  intro c
  exact ⟨rfl, rfl, statusWord_zero, rfl, rfl, rfl, rfl, rfl, rfl, rfl, rfl, HazardSet.mem_empty, rfl⟩

/-! ### The fields of the STATUS word -/

/-- A bit of a word is read off its value. -/
theorem getLsbD_of_toNat {w : Word} {i : Nat} {b : Bool} (h : w.toNat / 2 ^ i % 2 = b.toNat) : w.getLsbD i = b := by
  rw [← BitVec.testBit_toNat, Nat.testBit_eq_decide_div_mod_eq, h]
  cases b <;> rfl

/-- Where each field of STATUS lies, and that the reserved fields read 0 (10_state.md R20). -/
theorem statusWord_fields (st : Status) :
    ((statusWord st).getLsbD 0 = st.busy ∧ (statusWord st).getLsbD 1 = st.done ∧
      (statusWord st).getLsbD 4 = st.laneValid ∧ (statusWord st).getLsbD 5 = st.lanePresent) ∧
    ((statusWord st).extractLsb' 2 2 = st.result.code ∧ (statusWord st).extractLsb' 6 2 = 0#2 ∧
      (statusWord st).extractLsb' 8 8 = st.lane ∧ (statusWord st).extractLsb' 16 16 = 0#16) := by
  have hlane := st.lane.isLt
  have hresult := st.result.code.isLt
  have hbusy := Bool.toNat_lt st.busy
  have hdone := Bool.toNat_lt st.done
  have hvalid := Bool.toNat_lt st.laneValid
  have hpresent := Bool.toNat_lt st.lanePresent
  constructor
  · refine ⟨?_, ?_, ?_, ?_⟩
    all_goals
      apply getLsbD_of_toNat
      rw [statusWord_toNat]
      omega
  · refine ⟨?_, ?_, ?_, ?_⟩
    all_goals
      apply BitVec.eq_of_toNat_eq
      simp only [BitVec.extractLsb'_toNat, statusWord_toNat, Nat.shiftRight_eq_div_pow, BitVec.toNat_ofNat]
      omega

/-- No result has the reserved code (10_state.md R21). -/
theorem Result.code_ne_reserved (r : Result) : r.code ≠ 0b11#2 := by cases r <;> decide

/-- Settles O13: each field lies where R20 puts it, and no RESULT has the code 0b11. -/
theorem statusWordLayout : Obligations.StatusWordLayout := by
  intro st
  obtain ⟨⟨hbusy, hdone, hvalid, hpresent⟩, hresult, hlow, hlane, hhigh⟩ := statusWord_fields st
  refine ⟨hbusy, hdone, ?_, ?_, hvalid, hpresent, hlow, hlane, hhigh⟩
  · rw [hresult]
    cases st.result <;> rfl
  · rw [hresult]
    exact st.result.code_ne_reserved

/-! ### The host window -/

/-- The window answers an aligned 32-bit word and nothing else (20_memory.md R58). -/
theorem windowOk_iff {off bits : Nat} : windowOk off bits = true ↔ bits = 32 ∧ off % 4 = 0 := by
  simp [windowOk]

theorem step_read_window {s : State} {rest : List Move} {off : Nat} (hc : configOk s.cfg = true)
    (ha : s.agenda = .host (.read off 32) :: rest) (hoff : off % 4 = 0) :
    step s = .next (({ s with agenda := rest }).hostRead off) := by
  rw [step_of_agenda hc (.inl ha)]
  exact if_pos (windowOk_iff.2 ⟨rfl, hoff⟩)

theorem step_write_beside_cmd {s : State} {rest : List Move} {off : Nat} {w : Word} (hc : configOk s.cfg = true)
    (ha : s.agenda = .host (.write off 32 w) :: rest) (hoff : off % 4 = 0) (hne : off ≠ 0x0) :
    step s = .next { s with agenda := rest } := by
  rw [step_of_agenda hc (.inl ha)]
  exact (if_pos (windowOk_iff.2 ⟨rfl, hoff⟩)).trans (if_neg hne)

theorem step_refuses_access {s : State} {rest : List Move} {off bits : Nat} {w : Word} (hc : configOk s.cfg = true)
    (ha : s.agenda = .host (.read off bits) :: rest ∨ s.agenda = .host (.write off bits w) :: rest)
    (hbad : bits ≠ 32 ∨ off % 4 ≠ 0) : step s = .refused .hostAccessNotAlignedWord := by
  have hwindow : ¬windowOk off bits = true := by
    rw [windowOk_iff]
    omega
  obtain ha | ha := ha
  · rw [step_of_agenda hc (.inl ha)]
    exact if_neg hwindow
  · rw [step_of_agenda hc (.inl ha)]
    exact if_neg hwindow

theorem State.windowRead_cmd (s : State) : s.windowRead 0x0 = s.cmd := rfl

theorem State.windowRead_status (s : State) : s.windowRead 0x4 = statusWord s.status := rfl

theorem State.windowRead_other (s : State) {off : Nat} (h0 : off ≠ 0x0) (h4 : off ≠ 0x4) : s.windowRead off = 0#32 := by
  simp [State.windowRead, h0, h4]

/-- Settles O12: reads return what the window holds, writes beside CMD are dropped, other accesses refused. -/
theorem hostWindow : Obligations.HostWindow := by
  intro s rest off bits w hc
  refine ⟨fun ha => ?_, fun ha => ?_, fun ha hoff h0 h4 => ?_, fun ha hoff h0 => ?_, fun ha hbad => ?_, fun ha hbad => ?_⟩
  · rw [step_read_window hc ha rfl, State.hostRead, State.windowRead_cmd]
  · rw [step_read_window hc ha rfl, State.hostRead, State.windowRead_status]
  · rw [step_read_window hc ha hoff, State.hostRead, State.windowRead_other _ h0 h4]
  · exact step_write_beside_cmd hc ha hoff h0
  · exact step_refuses_access (w := w) hc (.inl ha) hbad
  · exact step_refuses_access hc (.inr ha) hbad

end Sys2Proof.Machine

/-! ## The two encodings (30_encoding.md R64 to R82) -/

namespace Sys2Proof

open Sys2Proof.Safety

/-- Settles O1: the decoder run on the closed words of spec/95. -/
theorem writtenWordsDecode : Obligations.WrittenWordsDecode := by
  unfold Obligations.WrittenWordsDecode
  decide

/-! ### SUB, where a command splits it -/

/-- The two fields of a concatenation (`simp` does not see them in SUB, whose width is written 4 and not 3 + 1). -/
theorem fields_of_append {m n : Nat} (hi : BitVec m) (lo : BitVec n) :
    (hi ++ lo).extractLsb' 0 n = lo ∧ (hi ++ lo).extractLsb' n m = hi :=
  ⟨BitVec.extractLsb'_append_eq_right, BitVec.extractLsb'_append_eq_left⟩

/-- RESET_LANE: the ignored bits of SUB, then MODE (30_encoding.md R68). -/
theorem sub_of_modeFields : ∀ sub : BitVec 4,
    sub.extractLsb' 1 3 ++ (ResetMode.ofBit (sub.extractLsb' 0 1)).toBit = sub := by decide

/-- CALIBRATE: the ignored bit of SUB, then PROG (30_encoding.md R69). -/
theorem sub_of_progFields : ∀ sub : BitVec 4, sub.extractLsb' 3 1 ++ sub.extractLsb' 0 3 = sub := by decide

/-! ### Command words -/

/-- The opcodes without a command (30_encoding.md R72). -/
theorem reserved_of_ne_commands : ∀ op : BitVec 4,
    op ≠ 1#4 → op ≠ 2#4 → op ≠ 3#4 → op ≠ 4#4 → op ≠ 5#4 → op ≠ 6#4 → op.toNat = 0 ∨ 7 ≤ op.toNat := by
  decide

/-- OP decides whether a command word is a command (30_encoding.md R66, R72). -/
theorem decodeCmd_by_op (w : Word) :
    (1 ≤ (Cmd32.op w).toNat ∧ (Cmd32.op w).toNat ≤ 6 ∧ ∃ i, decodeCmd w = .ok i) ∨
      (((Cmd32.op w).toNat = 0 ∨ 7 ≤ (Cmd32.op w).toNat) ∧ decodeCmd w = .error (.reservedOp (Cmd32.op w))) := by
  unfold decodeCmd
  split
  case h_7 h1 h2 h3 h4 h5 h6 => exact .inr ⟨reserved_of_ne_commands _ h1 h2 h3 h4 h5 h6, rfl⟩
  all_goals
    rename_i hop
    rw [hop]
    exact .inl ⟨by decide, by decide, _, rfl⟩

/-- A decoded command keeps every bit of its word (log 13). -/
theorem encode_of_decodeCmd {w : Word} {i : Instr} (h : decodeCmd w = .ok i) : encode i = [w] := by
  have hw := Cmd32.word_fields w
  unfold decodeCmd at h
  split at h
  case h_7 => cases h
  all_goals
    rename_i hop
    cases h
    simp only [encode, sub_of_modeFields, sub_of_progFields, ← hop, hw]

/-- A command has no ill-formed value (30_encoding.md R70). -/
theorem wf_of_isCommand {i : Instr} (h : isCommand i = true) : i.wf = true := by
  cases i with
  | wr | rmw | dly => cases h
  | _ => rfl

/-- Settles O4: OP decides which of the two it is, and a command's encoding is the word again. -/
theorem everyCommandWordIsACommandOrReserved : Obligations.EveryCommandWordIsACommandOrReserved := by
  intro w
  obtain ⟨hlow, hhigh, i, hi⟩ | hreserved := decodeCmd_by_op w
  · exact .inl ⟨hlow, hhigh, i, hi, Machine.exec_command hi, encode_of_decodeCmd hi⟩
  · exact .inr hreserved

/-! ### Step words -/

theorem aligned_iff {off : Word} : Word.aligned off = true ↔ off.toNat % 4 = 0 := by simp [Word.aligned]

/-- A word with the reserved bits, KIND and MASK of a WR is a WR's (30_encoding.md R76, R77). -/
theorem StepWord.wr_of_fields {w : StepWord} (hr : Step128.rsvd w = 0#28) (hk : Step128.kind w = 0b00#2)
    (h3 : w.w3 = 0#32) : StepWord.wr (DomainClass.ofCode (Step128.dc w)) w.w1 w.w2 = w := by
  rw [StepWord.wr, DomainClass.toCode_ofCode, ← hk, Step128.head_of_fields w hr, ← h3]

/-- A word with the reserved bits and KIND of an RMW is an RMW's (30_encoding.md R76, R77). -/
theorem StepWord.rmw_of_fields {w : StepWord} (hr : Step128.rsvd w = 0#28) (hk : Step128.kind w = 0b01#2) :
    StepWord.rmw (DomainClass.ofCode (Step128.dc w)) w.w1 w.w3 w.w2 = w := by
  rw [StepWord.rmw, DomainClass.toCode_ofCode, ← hk, Step128.head_of_fields w hr]

/-- A word with the reserved bits, KIND, DC, VAL and MASK of a DLY is a DLY's (30_encoding.md R76, R77). -/
theorem StepWord.dly_of_fields {w : StepWord} (hr : Step128.rsvd w = 0#28) (hk : Step128.kind w = 0b10#2)
    (hd : Step128.dc w = 0b00#2) (h2 : w.w2 = 0#32) (h3 : w.w3 = 0#32) : StepWord.dly w.w1 = w := by
  have h0 := Step128.head_of_fields w hr
  rw [hk, hd] at h0
  obtain ⟨w0, w1, w2, w3⟩ := w
  cases h0
  cases h2
  cases h3
  rfl

/-- The step decoder accepts the words of the three kinds, aligned where they access, and nothing else
(30_encoding.md R80). -/
theorem decodeStep_cases {w : StepWord} {i : Instr} (h : decodeStep w = .ok i) :
    (∃ dc off val, i = .wr dc off val ∧ w = StepWord.wr dc off val ∧ Word.aligned off = true) ∨
    (∃ dc off mask val, i = .rmw dc off mask val ∧ w = StepWord.rmw dc off mask val ∧ Word.aligned off = true) ∨
    (∃ d, i = .dly d ∧ w = StepWord.dly d) := by
  unfold decodeStep at h
  split at h
  · cases h
  · rename_i hr
    rw [not_not] at hr
    split at h
    · rename_i hk
      split_ifs at h with h3 ha
      cases h
      exact .inl ⟨_, _, _, rfl, (StepWord.wr_of_fields hr hk (not_not.1 h3)).symm, ha⟩
    · rename_i hk
      split_ifs at h with ha
      cases h
      exact .inr (.inl ⟨_, _, _, _, rfl, (StepWord.rmw_of_fields hr hk).symm, ha⟩)
    · rename_i hk
      split_ifs at h with hunused
      cases h
      push Not at hunused
      obtain ⟨hd, h2, h3⟩ := hunused
      exact .inr (.inr ⟨_, rfl, (StepWord.dly_of_fields hr hk hd h2 h3).symm⟩)
    · cases h

/-- A decoded step keeps every bit of its word, and is well-formed (30_encoding.md R80, R82). -/
theorem encode_of_decodeStep {w : StepWord} {i : Instr} (h : decodeStep w = .ok i) :
    encode i = w.words ∧ i.wf = true := by
  obtain ⟨dc, off, val, rfl, rfl, ha⟩ | ⟨dc, off, mask, val, rfl, rfl, ha⟩ | ⟨d, rfl, rfl⟩ := decodeStep_cases h
  · exact ⟨rfl, ha⟩
  · exact ⟨rfl, ha⟩
  · exact ⟨rfl, rfl⟩

/-- A step word is its four words. -/
theorem StepWord.words_injective {v w : StepWord} (h : v.words = w.words) : v = w := by
  cases v
  cases w
  simpa [StepWord.words] using h

/-- No two step words decode to one instruction (30_encoding.md R82). -/
theorem decodeStep_injective {v w : StepWord} {i : Instr} (hv : decodeStep v = .ok i) (hw : decodeStep w = .ok i) :
    v = w :=
  StepWord.words_injective ((encode_of_decodeStep hv).1.symm.trans (encode_of_decodeStep hw).1)

/-- The fields of a well-formed step word (30_encoding.md R80): the reserved bits zero, and by KIND what else must be. -/
def StepWord.fieldsOk (w : StepWord) : Prop :=
  Step128.rsvd w = 0#28 ∧
    ((Step128.kind w = 0b00#2 ∧ w.w3 = 0#32 ∧ w.w1.toNat % 4 = 0) ∨
     (Step128.kind w = 0b01#2 ∧ w.w1.toNat % 4 = 0) ∨
     (Step128.kind w = 0b10#2 ∧ Step128.dc w = 0b00#2 ∧ w.w2 = 0#32 ∧ w.w3 = 0#32))

/-- The step decoder accepts exactly the well-formed words (30_encoding.md R80). -/
theorem StepWord.fieldsOk_iff_decodes {w : StepWord} : w.fieldsOk ↔ ∃ i, decodeStep w = .ok i := by
  constructor
  · rintro ⟨hr, ⟨hk, h3, ha⟩ | ⟨hk, ha⟩ | ⟨hk, hd, h2, h3⟩⟩
    · rw [← StepWord.wr_of_fields hr hk h3]
      exact ⟨_, decodeStep_wr (aligned_iff.2 ha)⟩
    · rw [← StepWord.rmw_of_fields hr hk]
      exact ⟨_, decodeStep_rmw (aligned_iff.2 ha)⟩
    · rw [← StepWord.dly_of_fields hr hk hd h2 h3]
      exact ⟨_, decodeStep_dly _⟩
  · rintro ⟨i, hi⟩
    obtain ⟨dc, off, val, -, rfl, ha⟩ | ⟨dc, off, mask, val, -, rfl, ha⟩ | ⟨d, -, rfl⟩ := decodeStep_cases hi
    · obtain ⟨hk, -, hr⟩ := Step128.head_fields 0b00#2 dc.toCode
      exact ⟨hr, .inl ⟨hk, rfl, aligned_iff.1 ha⟩⟩
    · obtain ⟨hk, -, hr⟩ := Step128.head_fields 0b01#2 dc.toCode
      exact ⟨hr, .inr (.inl ⟨hk, aligned_iff.1 ha⟩)⟩
    · obtain ⟨hk, hd, hr⟩ := Step128.head_fields 0b10#2 0b00#2
      exact ⟨hr, .inr (.inr ⟨hk, hd, rfl, rfl⟩)⟩

/-- KIND names the instruction and the words give its operands (30_encoding.md R77, R79). -/
theorem decodeStep_kind {w : StepWord} {i : Instr} (h : decodeStep w = .ok i) :
    (Step128.kind w = 0b00#2 ∧ ∃ dc, i = .wr dc w.w1 w.w2) ∨
    (Step128.kind w = 0b01#2 ∧ ∃ dc, i = .rmw dc w.w1 w.w3 w.w2) ∨
    (Step128.kind w = 0b10#2 ∧ i = .dly w.w1) := by
  obtain ⟨dc, off, val, rfl, rfl, -⟩ | ⟨dc, off, mask, val, rfl, rfl, -⟩ | ⟨d, rfl, rfl⟩ := decodeStep_cases h
  · exact .inl ⟨(Step128.head_fields _ _).1, dc, rfl⟩
  · exact .inr (.inl ⟨(Step128.head_fields _ _).1, dc, rfl⟩)
  · exact .inr (.inr ⟨(Step128.head_fields _ _).1, rfl⟩)

/-- DC holds the code of an access step's class (30_encoding.md R78). -/
theorem decodeStep_dc {w : StepWord} {dc : DomainClass} {off mask val : Word}
    (h : decodeStep w = .ok (.wr dc off val) ∨ decodeStep w = .ok (.rmw dc off mask val)) :
    Step128.dc w = dc.toCode := by
  obtain h | h := h
  · obtain ⟨_, _, _, hi, rfl, -⟩ | ⟨_, _, _, _, hi, -⟩ | ⟨_, hi, -⟩ := decodeStep_cases h <;> cases hi
    exact (Step128.head_fields _ _).2.1
  · obtain ⟨_, _, _, hi, -⟩ | ⟨_, _, _, _, hi, rfl, -⟩ | ⟨_, hi, -⟩ := decodeStep_cases h <;> cases hi
    exact (Step128.head_fields _ _).2.1

/-- Each code of DC names its class (30_encoding.md R78). -/
theorem DomainClass.toCode_cases {c : BitVec 2} {dc : DomainClass} (h : c = dc.toCode) :
    (c = 0b00#2 ∧ dc = .pcs) ∨ (c = 0b01#2 ∧ dc = .pextp) ∨ (c = 0b10#2 ∧ dc = .pll) ∨ (c = 0b11#2 ∧ dc = .rst) := by
  subst h
  cases dc <;> decide

/-- Settles O5: the acceptance set, KIND, DC and injectivity, each by its own lemma. -/
theorem stepDecoderAcceptsExactlyTheWellFormedWords : Obligations.StepDecoderAcceptsExactlyTheWellFormedWords :=
  ⟨fun _ => ⟨StepWord.fieldsOk_iff_decodes, fun _ => decodeStep_kind,
      fun _ _ _ _ h => DomainClass.toCode_cases (decodeStep_dc h)⟩,
    fun _ _ _ => decodeStep_injective⟩

/-! ### Lists of words -/

/-- The words of a command decode to it (30_encoding.md R65 to R69). -/
theorem decodeWords_encode_command {i : Instr} (h : isCommand i = true) : decodeWords (encode i) = .ok i := by
  cases i with
  | wr | rmw | dly => cases h
  | resetLane mode subHi port speed =>
    obtain ⟨hmode, hsub⟩ := fields_of_append subHi mode.toBit
    simp [encode, decodeWords, decodeCmd, hmode, hsub]
  | calibrate prog subHi port speed =>
    obtain ⟨hprog, hsub⟩ := fields_of_append subHi prog
    simp [encode, decodeWords, decodeCmd, hprog, hsub]
  | _ => simp [encode, decodeWords, decodeCmd]

/-- Settles O2: a command by the fields of its word, a step by its kind. -/
theorem decodeOfEncodeIsTheInstruction : Obligations.DecodeOfEncodeIsTheInstruction := by
  intro i hwf
  cases i with
  | wr dc off val => exact decodeStep_wr hwf
  | rmw dc off mask val => exact decodeStep_rmw hwf
  | dly d => exact decodeStep_dly d
  | _ => exact decodeWords_encode_command rfl

/-- Settles O3: one word is a command's, four are a step's, and any other number decodes to nothing. -/
theorem encodeOfDecodeIsTheWords : Obligations.EncodeOfDecodeIsTheWords := by
  intro ws i h
  unfold decodeWords at h
  split at h
  · exact ⟨encode_of_decodeCmd h, wf_of_isCommand (Machine.exec_command h)⟩
  · exact encode_of_decodeStep h
  · cases h

end Sys2Proof

/-! ## A reserved opcode (30_encoding.md R72, 45_orchestration.md R155) -/

namespace Sys2Proof.Machine

open Sys2Proof.Safety

/-- A reserved opcode builds the failure INVALID_ARGUMENT. -/
theorem decodeAndBuild_reserved (c : Config) {w : Word} (h : (Cmd32.op w).toNat = 0 ∨ 7 ≤ (Cmd32.op w).toNat) :
    decodeAndBuild c w = Build.failed .invalidArgument := by
  obtain ⟨hlow, hhigh, -⟩ | ⟨-, hw⟩ := decodeCmd_by_op w
  · omega
  · rw [decodeAndBuild, hw, buildReserved]

/-- HOST's write of any word to CMD accepts the word or ignores it (10_state.md R19, 45_orchestration.md R153, R154). -/
theorem step_write_cmd {s : State} {rest : List Move} {w : Word} (hc : configOk s.cfg = true)
    (ha : s.agenda = .host (.write 0x0 32 w) :: rest) :
    step s = .next (({ s with agenda := rest }).writeCmd w (decodeAndBuild s.cfg w)) := by
  rw [step_of_agenda hc (.inl ha), State.moveOf, State.hostMove, if_pos (windowOk_iff.2 ⟨rfl, rfl⟩), windowWrite_cmd]

/-- The STATUS word of a command that failed with INVALID_ARGUMENT (45_orchestration.md R155). -/
theorem failedAtOnce_statusWord (s : State) (w : Word) :
    statusWord (failedAtOnce s w .invalidArgument).status = 0x00000006#32 := by
  rw [show (failedAtOnce s w .invalidArgument).status = completedStatus .invalidArgument 0#8 false false from rfl]
  decide

/-- Settles O10: the word is accepted, and what it builds is a failure. -/
theorem reservedOpcodeCompletesWithInvalidArgument : Obligations.ReservedOpcodeCompletesWithInvalidArgument := by
  intro s rest w hc ha hidle hop
  refine ⟨?_, failedAtOnce_statusWord _ w⟩
  rw [step_write_cmd hc ha, decodeAndBuild_reserved s.cfg hop, State.writeCmd_idle (s := { s with agenda := rest }) hidle,
    State.accept_failed]

end Sys2Proof.Machine

/-! ## The step instructions (40_steps.md) -/

namespace Sys2Proof.Machine

open Sys2Proof.Safety

/-! ### The step that SEQ runs -/

/-- A move of SEQ in IDLE (60_exceptions.md R184; log 7). -/
theorem State.seqMove_idle {s : State} (hidle : s.fsm = .idle) : s.seqMove = .next s := by
  rw [State.seqMove, hidle]

/-- A move of SEQ in RUN at a step that decodes (40_steps.md R88). -/
theorem State.seqMove_step {s : State} {b : BoundStep} {i : Instr} (hrun : s.fsm = .run) (hb : s.job[s.spc]? = some b)
    (hdec : decodeStep b.word = .ok i) : s.seqMove = exec i s := by
  simp only [State.seqMove, hrun, State.seqRun, hb, hdec]

/-- Settles O8: the next move is SEQ's, and at a step that decodes SEQ's move is `exec` of it. -/
theorem stepRunsTheStepAtSpc : Obligations.StepRunsTheStepAtSpc := by
  intro s rest b i hc ha hrun hb hdec
  have hmove : step s = ({ s with agenda := rest }).seqMove := by
    obtain ha | ⟨ha, rfl⟩ := ha
    · exact step_of_agenda hc (.inl ha)
    · exact step_of_agenda hc (.inr ⟨ha, rfl, rfl⟩)
  rw [hmove]
  exact State.seqMove_step (s := { s with agenda := rest }) hrun hb hdec

/-! ### What each phase of a step instruction answers

The converse of `exec_step_next`: at the step at `spc`, with a domain that exists, each phase gives its next state. -/

section Phases

variable {s : State} {b : BoundStep} {dc : DomainClass} {off mask val d : Word} {dom : Domain}

/-- WR (40_steps.md R89). -/
theorem exec_wr_issue (hrun : s.fsm = .run) (hb : s.job[s.spc]? = some b) (hph : s.ph = .issue)
    (hdom : boundDomain s.cfg dc b.lane = some dom) :
    exec (.wr dc off val) s = .next (phaseEnds s b [.wr dom off val] s.tmr) := by
  rw [exec, execWr, State.withStep_of s _ hrun hb]
  simp only [hph]
  rw [State.withDomain_of s _ hdom]
  simp [State.completeStep_eq, State.domWrite, State.emit, phaseEnds, phaseFaults, hph, State.startStep_eq]

/-- The read phase of RMW (40_steps.md R91). -/
theorem exec_rmw_issue (hrun : s.fsm = .run) (hb : s.job[s.spc]? = some b) (hph : s.ph = .issue)
    (hdom : boundDomain s.cfg dc b.lane = some dom) :
    exec (.rmw dc off mask val) s =
      .next
        { s with
          faults := phaseFaults s b
          rd := s.nextAnswer
          trace := s.trace ++ [.rd dom off s.nextAnswer]
          answers := s.answers.tail
          draws := if s.answers = [] then s.draws + 1 else s.draws
          ph := .rmwWb } := by
  rw [exec, execRmw, State.withStep_of s _ hrun hb]
  simp only [hph]
  rw [State.withDomain_of s _ hdom]
  simp [phaseFaults, hph, State.startStep_eq, State.domRead_eq, State.nextAnswer]

/-- The write phase of RMW (40_steps.md R92). -/
theorem exec_rmw_rmwWb (hrun : s.fsm = .run) (hb : s.job[s.spc]? = some b) (hph : s.ph = .rmwWb)
    (hdom : boundDomain s.cfg dc b.lane = some dom) :
    exec (.rmw dc off mask val) s = .next (s.stepDone b [.wr dom off (mergeMasked s.rd mask val)]) := by
  rw [exec, execRmw, State.withStep_of s _ hrun hb]
  simp only [hph]
  rw [State.withDomain_of s _ hdom]
  simp [State.completeStep_eq, State.domWrite, State.emit, State.stepDone]

/-- DLY of no ticks (40_steps.md R97). -/
theorem exec_dly_at_once (hrun : s.fsm = .run) (hb : s.job[s.spc]? = some b) (hph : s.ph = .issue)
    (hload : timerLoad s.cfg.tickNs d = 0) : exec (.dly d) s = .next (phaseEnds s b [.dly d] 0) := by
  rw [exec, execDly, State.withStep_of s _ hrun hb]
  simp [hph, hload, State.dlyDone_eq, State.stepDone, phaseEnds, phaseFaults, State.startStep_eq]

/-- The load of a DLY that waits (40_steps.md R95). -/
theorem exec_dly_issue (hrun : s.fsm = .run) (hb : s.job[s.spc]? = some b) (hph : s.ph = .issue)
    (hload : timerLoad s.cfg.tickNs d ≠ 0) :
    exec (.dly d) s = .next { s with faults := phaseFaults s b, tmr := timerLoad s.cfg.tickNs d, ph := .wait } := by
  rw [exec, execDly, State.withStep_of s _ hrun hb]
  simp [hph, hload, phaseFaults, State.startStep_eq]

/-- A tick of a DLY (40_steps.md R96). -/
theorem exec_dly_tick (hrun : s.fsm = .run) (hb : s.job[s.spc]? = some b) (hph : s.ph = .wait) (htmr : s.tmr ≠ 0) :
    exec (.dly d) s = .next { s with tmr := s.tmr - 1 } := by
  rw [exec, execDly, State.withStep_of s _ hrun hb]
  simp [hph, htmr]

/-- The last tick of a DLY (40_steps.md R96). -/
theorem exec_dly_done (hrun : s.fsm = .run) (hb : s.job[s.spc]? = some b) (hph : s.ph = .wait) (htmr : s.tmr = 0) :
    exec (.dly d) s = .next (s.stepDone b [.dly d]) := by
  rw [exec, execDly, State.withStep_of s _ hrun hb]
  simp [hph, htmr, State.dlyDone_eq]

end Phases

/-- Settles O27: the write of WR, its ghost updates as `phaseEnds` gives them. -/
theorem wrIssuesOneWrite : Obligations.WrIssuesOneWrite := by
  intro s b dc off val dom hrun hb hph hbind hdom
  exact ⟨_, _, _, exec_wr_issue hrun hb hph (boundDomain_eq_some.2 ⟨hbind, hdom⟩)⟩

/-- The next answer is the first of the input list (20_memory.md R49; log 5). -/
theorem State.nextAnswer_cons {s : State} {a : Word} {rest : List Word} (h : s.answers = a :: rest) :
    s.nextAnswer = a := by
  rw [State.nextAnswer, h]

/-- Settles O28: RD and the event hold the next answer, which an input list gives without a draw. -/
theorem rmwReadPhase : Obligations.RmwReadPhase := by
  intro s b dc off mask val dom hrun hb hph hbind hdom
  refine ⟨_, _, _, exec_rmw_issue hrun hb hph (boundDomain_eq_some.2 ⟨hbind, hdom⟩), ?_⟩
  intro a rest ha
  exact ⟨State.nextAnswer_cons ha, if_neg (by simp [ha])⟩

/-- Settles O29: the merge is written, and the step is done, its ghost updates as `stepDone` gives them. -/
theorem rmwWritePhase : Obligations.RmwWritePhase := by
  intro s b dc off mask val dom hrun hb hph hbind hdom
  exact ⟨_, _, exec_rmw_rmwWb hrun hb hph (boundDomain_eq_some.2 ⟨hbind, hdom⟩)⟩

/-! ### The merge of RMW (40_steps.md R92, R93) -/

/-- Bits inside the mask are those of `val`, bits outside those of the value read. -/
theorem mergeMasked_getLsbD (rd mask val : Word) {i : Nat} (hi : i < 32) :
    (mergeMasked rd mask val).getLsbD i = if mask.getLsbD i then val.getLsbD i else rd.getLsbD i := by
  rw [mergeMasked, BitVec.getLsbD_or, BitVec.getLsbD_and, BitVec.getLsbD_and, BitVec.getLsbD_not]
  cases mask.getLsbD i <;> simp [hi]

/-- A word with the bits of a merge is the merge. -/
theorem mergeMasked_eq_of_bits {rd mask val w : Word}
    (h : ∀ i < 32, (if mask.getLsbD i then val.getLsbD i else rd.getLsbD i) = w.getLsbD i) : mergeMasked rd mask val = w :=
  BitVec.eq_of_getLsbD_eq fun i hi => (mergeMasked_getLsbD rd mask val hi).trans (h i hi)

/-- Bits of `val` outside the mask are ignored (40_steps.md R93). -/
theorem mergeMasked_and_mask (rd mask val : Word) : mergeMasked rd mask val = mergeMasked rd mask (val &&& mask) := by
  refine mergeMasked_eq_of_bits fun i hi => ?_
  rw [mergeMasked_getLsbD _ _ _ hi, BitVec.getLsbD_and]
  cases mask.getLsbD i <;> simp

/-- What SETB writes (30_encoding.md R85). -/
theorem mergeMasked_self (rd mask : Word) : mergeMasked rd mask mask = rd ||| mask := by
  refine mergeMasked_eq_of_bits fun i _ => ?_
  rw [BitVec.getLsbD_or]
  cases mask.getLsbD i <;> simp

/-- Settles O30: the corners follow from the law of the bits, and the pseudo-steps are RMW words. -/
theorem rmwMergeAndPseudoSteps : Obligations.RmwMergeAndPseudoSteps := by
  refine ⟨fun rd mask val => ⟨fun i hi => mergeMasked_getLsbD rd mask val hi, ?_, ?_, mergeMasked_and_mask rd mask val,
    mergeMasked_self rd mask, ?_⟩, fun dc off mask val hoff => ?_⟩
  · exact mergeMasked_eq_of_bits fun i _ => by simp
  · rw [show 0xFFFFFFFF#32 = BitVec.allOnes 32 from rfl]
    exact mergeMasked_eq_of_bits fun i hi => if_pos (BitVec.getLsbD_allOnes.trans (decide_eq_true hi))
  · simp [mergeMasked]
  · have ha := aligned_iff.2 hoff
    exact ⟨decodeStep_rmw ha, decodeStep_rmw ha, decodeStep_rmw ha⟩

/-! ### The timer of DLY (40_steps.md R95 to R97, R217) -/

/-- The load is the least number of ticks that last at least `d` (40_steps.md R96, R217). -/
theorem timerLoad_bounds {n : Nat} (hn : 1 ≤ n) (d : Word) :
    d.toNat ≤ timerLoad n d * n ∧ timerLoad n d * n < d.toNat + n := by
  have hdiv := Nat.div_add_mod' (d.toNat + (n - 1)) n
  have hmod := Nat.mod_lt (d.toNat + (n - 1)) hn
  rw [timerLoad]
  omega

/-- Only DLY 0 loads no tick. -/
theorem timerLoad_eq_zero {n : Nat} (hn : 1 ≤ n) {d : Word} : timerLoad n d = 0 ↔ d = 0#32 := by
  obtain ⟨hle, hlt⟩ := timerLoad_bounds hn d
  constructor
  · intro h
    rw [h, Nat.zero_mul] at hle
    exact BitVec.eq_of_toNat_eq (Nat.le_zero.1 hle)
  · rintro rfl
    exact Nat.div_eq_of_lt (by simp; omega)

/-- Settles O31: each of the four cases is a phase of DLY, and the load is 0 only for DLY 0. -/
theorem dlyWaitsItsTicks : Obligations.DlyWaitsItsTicks := by
  intro s b d hrun hb htick
  refine ⟨?_, ?_, ?_, ?_⟩
  · intro hph hd
    exact ⟨_, _, _, exec_dly_at_once hrun hb hph ((timerLoad_eq_zero htick).2 hd)⟩
  · intro hph hd
    obtain ⟨hle, hlt⟩ := timerLoad_bounds htick d
    exact ⟨_, _, hle, hlt, exec_dly_issue hrun hb hph (mt (timerLoad_eq_zero htick).1 hd)⟩
  · intro hph htmr
    exact exec_dly_tick hrun hb hph (Nat.pos_iff_ne_zero.1 htmr)
  · intro hph htmr
    exact ⟨_, _, exec_dly_done hrun hb hph htmr⟩

/-! ### Where a step instruction stops (log 11, log 12) -/

/-- Outside RUN, or beyond the job, no step is scheduled. -/
theorem State.withStep_unscheduled {s : State} (h : s.fsm = .idle ∨ s.job.length ≤ s.spc)
    (k : BoundStep → Host.Outcome State Fault Refusal) : s.withStep k = .refused .noStepScheduled := by
  obtain h | h := h
  · simp [State.withStep, h]
  · simp [State.withStep, List.getElem?_eq_none h]

/-- A class that binds to no existing domain (20_memory.md R47). -/
theorem State.withDomain_absent {s : State} {dc : DomainClass} {l : Option Lane} (h : boundDomain s.cfg dc l = none)
    (k : Domain → Host.Outcome State Fault Refusal) : s.withDomain dc l k = .fault .absentDomain := by
  rw [State.withDomain, h]

/-- Settles O32: no step scheduled, then each phase a kind never has, then the absent domain. -/
theorem stepInstructionsStopByName : Obligations.StepInstructionsStopByName := by
  intro s dc off mask val d
  refine ⟨fun h => ⟨State.withStep_unscheduled h _, State.withStep_unscheduled h _, State.withStep_unscheduled h _⟩, ?_⟩
  intro b hrun hb
  have hwr : exec (.wr dc off val) s = _ := State.withStep_of s _ hrun hb
  have hrmw : exec (.rmw dc off mask val) s = _ := State.withStep_of s _ hrun hb
  have hdly : exec (.dly d) s = _ := State.withStep_of s _ hrun hb
  refine ⟨fun hph => ?_, fun hph => ?_, fun hph => ?_, fun habsent => ⟨fun hph => ?_, fun hph => ?_⟩⟩
  · rw [hwr]
    cases hs : s.ph with
    | issue => exact absurd hs hph
    | rmwWb | wait => rfl
  · simp only [hrmw, hph]
  · simp only [hdly, hph]
  · simp only [hwr, hph, State.withDomain_absent habsent]
  · rw [hrmw]
    cases hs : s.ph with
    | issue | rmwWb => exact State.withDomain_absent habsent _
    | wait => exact absurd hs hph

/-! ### What a phase keeps -/

/-- A phase leaves what the command set or needs: the configuration, CMD, `res`, `fsm` and the pending moves. -/
theorem PhaseEffect.keeps_command {i : Instr} {s t : State} {b : BoundStep} (h : PhaseEffect i s b t) :
    t.cfg = s.cfg ∧ t.cmd = s.cmd ∧ t.res = s.res ∧ t.fsm = s.fsm ∧ t.agenda = s.agenda := by
  cases h with
  | ends | reads | waits => exact ⟨rfl, rfl, rfl, rfl, rfl⟩

end Sys2Proof.Machine

/-! ## Runs of one command (40_steps.md R88, R99, 45_orchestration.md R153, R163) -/

namespace Sys2Proof.Safety

open Sys2Proof.Machine

/-! ### Steps with nothing pending -/

/-- With nothing pending, a step that gives a next state is SEQ's move. -/
theorem seqMove_of_step {s t : State} (hpending : s.agenda = []) (h : step s = .next t) : s.seqMove = .next t := by
  rwa [step, if_pos (step_next h).1, State.nextMove, hpending] at h

/-- An ended run stays as it is (60_exceptions.md R184; log 7). -/
theorem step_of_runEnded {s t : State} (hend : runEnded s) (h : step s = .next t) : t = s := by
  have hmove := seqMove_of_step hend.2 h
  rw [State.seqMove_idle hend.1] at hmove
  cases hmove
  rfl

/-- In RUN with nothing pending, a step runs one phase of the step at `spc`, or completes the command past its last step
(40_steps.md R88, 45_orchestration.md R163). -/
theorem step_of_run {s t : State} (hrun : s.fsm = .run) (hpending : s.agenda = []) (h : step s = .next t) :
    (∃ b i, s.job[s.spc]? = some b ∧ decodeStep b.word = .ok i ∧ exec i s = .next t) ∨
      (s.spc = s.job.length ∧ t = s.complete s.res LaneFields.zero) := by
  have hmove := seqMove_of_step hpending h
  simp only [State.seqMove, hrun, State.seqRun] at hmove
  split at hmove
  · split at hmove
    · exact .inl ⟨_, _, ‹_›, ‹_›, hmove⟩
    · cases hmove
  · split at hmove
    · cases hmove
      exact .inr ⟨‹_›, rfl⟩
    · cases hmove

/-! ### From one state the end of a run is one state -/

/-- An ended run goes nowhere, in any number of steps. -/
theorem stepsTo_of_runEnded {n : Nat} {s t : State} (hend : runEnded s) (h : stepsTo n s t) : t = s := by
  induction n with
  | zero => exact h.symm
  | succ n ih =>
    obtain ⟨u, hstep, hrest⟩ := h
    rw [step_of_runEnded hend hstep] at hrest
    exact ih hrest

/-- `step` is a function, so the longer of two runs passes through the end of the shorter, and stays there. -/
theorem runEnded_unique {n m : Nat} {s t u : State} (ht : stepsTo n s t) (hu : stepsTo m s u) (htend : runEnded t)
    (huend : runEnded u) : t = u := by
  induction n generalizing m s with
  | zero =>
    cases ht
    exact (stepsTo_of_runEnded htend hu).symm
  | succ n ih =>
    cases m with
    | zero =>
      cases hu
      exact stepsTo_of_runEnded huend ht
    | succ m =>
      obtain ⟨v, hv, ht⟩ := ht
      obtain ⟨w, hw, hu⟩ := hu
      obtain rfl : v = w := by
        rw [hv] at hw
        cases hw
        rfl
      exact ih ht hu

/-! ### The events a running job still owes -/

/-- A read takes the first of the values that DOMAINS will give (20_memory.md R49; log 4, log 5). -/
theorem oracle_zero (s : State) : oracle s 0 = s.nextAnswer := by
  cases h : s.answers <;> simp [oracle, State.nextAnswer, h]

/-- A read leaves the values after the first. -/
theorem oracle_of_read {s t : State} (hanswers : t.answers = s.answers.tail)
    (hdraws : t.draws = if s.answers = [] then s.draws + 1 else s.draws) (n : Nat) : oracle t n = oracle s (n + 1) := by
  cases h : s.answers with
  | nil => simp [oracle, hanswers, hdraws, h, Nat.add_assoc, Nat.add_comm 1]
  | cons v rest => simp [oracle, hanswers, hdraws, h]

/-- The values to come depend on the input list and the counter only (log 4, log 5). -/
theorem oracle_congr {s t : State} (hanswers : t.answers = s.answers) (hdraws : t.draws = s.draws) :
    oracle t = oracle s := by
  funext n
  rw [oracle, oracle, hanswers, hdraws]

/-- The events that the steps from `spc` on are still to append: in RMW_WB the read of the first of them stands in the trace
already, and its value in RD. -/
def owedEvents (s : State) : List Event :=
  match s.ph, s.job.drop s.spc with
  | .rmwWb, b :: rest => (stepEvents s.rd b).tail ++ jobEvents (oracle s) 0 rest
  | _, steps => jobEvents (oracle s) 0 steps

/-- In ISSUE and in WAIT, all the events of the steps from `spc` on are owed. -/
theorem owedEvents_of_ne_rmwWb {s : State} (hph : s.ph ≠ .rmwWb) :
    owedEvents s = jobEvents (oracle s) 0 (s.job.drop s.spc) := by
  unfold owedEvents
  split
  · exact absurd ‹_› hph
  · rfl

/-- The steps from a position on: the one that stands there, and those after it. -/
theorem drop_of_getElem? {job : List BoundStep} {n : Nat} {b : BoundStep} (hb : job[n]? = some b) :
    job.drop n = b :: job.drop (n + 1) := by
  obtain ⟨hlt, rfl⟩ := List.getElem?_eq_some_iff.1 hb
  exact List.drop_eq_getElem_cons hlt

/-- Before its read, the step at `spc` owes all its events. -/
theorem owedEvents_at_step {s : State} {b : BoundStep} (hph : s.ph ≠ .rmwWb) (hb : s.job[s.spc]? = some b) :
    owedEvents s = stepEvents s.nextAnswer b ++ jobEvents (oracle s) (readsOf b) (s.job.drop (s.spc + 1)) := by
  rw [owedEvents_of_ne_rmwWb hph, drop_of_getElem? hb, jobEvents, oracle_zero, Nat.zero_add]

/-- In RMW_WB the step at `spc` owes its events but the first. -/
theorem owedEvents_at_rmwWb {s : State} {b : BoundStep} (hph : s.ph = .rmwWb) (hb : s.job[s.spc]? = some b) :
    owedEvents s = (stepEvents s.rd b).tail ++ jobEvents (oracle s) 0 (s.job.drop (s.spc + 1)) := by
  rw [owedEvents, hph, drop_of_getElem? hb]

/-- A job that starts owes its events. -/
theorem owedEvents_jobStarted (s : State) (rest : List Move) (w : Word) (j : List BoundStep) :
    owedEvents (jobStarted { s with agenda := rest } w j) = jobEvents (oracle s) 0 j := by
  rw [owedEvents_of_ne_rmwWb (by nofun), oracle_congr (s := s) rfl rfl]
  rfl

/-- Past its last step a job owes nothing. -/
theorem owedEvents_past_job {s : State} (hend : s.spc = s.job.length) : owedEvents s = [] := by
  rw [owedEvents, hend, List.drop_length]
  cases s.ph <;> rfl

/-- A step that has ended owes nothing. -/
theorem owedEvents_phaseEnds (s : State) (b : BoundStep) (es : List Event) (n : Nat) :
    owedEvents (phaseEnds s b es n) = jobEvents (oracle s) 0 (s.job.drop (s.spc + 1)) := by
  rw [owedEvents_of_ne_rmwWb (by nofun), oracle_congr (s := s) rfl rfl]
  rfl

/-- Once its read has completed, a step owes its events but the first, and the steps after it the values after the first. -/
theorem owedEvents_read {s : State} {b : BoundStep} (hb : s.job[s.spc]? = some b) (f : HazardSet) (tr : List Event) :
    owedEvents
        { s with
          faults := f
          rd := s.nextAnswer
          trace := tr
          answers := s.answers.tail
          draws := if s.answers = [] then s.draws + 1 else s.draws
          ph := .rmwWb } =
      (stepEvents s.nextAnswer b).tail ++ jobEvents (oracle s) 1 (s.job.drop (s.spc + 1)) := by
  rw [owedEvents_at_rmwWb (by rfl) (b := b) (by exact hb)]
  refine congrArg (_ ++ ·) (jobEvents_shift _ _ 0 1 _ fun n => ?_)
  rw [Nat.zero_add, Nat.add_comm 1 n, oracle_of_read rfl rfl]

/-- A step that goes on waiting owes what it owed. -/
theorem owedEvents_waits {s t : State} (hph : s.ph ≠ .rmwWb) (hph' : t.ph ≠ .rmwWb)
    (hjob : t.job = s.job ∧ t.spc = s.spc) (hdomains : t.answers = s.answers ∧ t.draws = s.draws) :
    owedEvents t = owedEvents s := by
  rw [owedEvents_of_ne_rmwWb hph, owedEvents_of_ne_rmwWb hph', hjob.1, hjob.2, oracle_congr hdomains.1 hdomains.2]

section Kinds

variable {b : BoundStep} {dc : DomainClass} {off mask val d : Word} {dom : Domain}

/-- The events and reads of a WR (40_steps.md R89, R90). -/
theorem events_of_wr (hdec : decodeStep b.word = .ok (.wr dc off val)) (hbind : bindClass dc b.lane = some dom) (v : Word) :
    stepEvents v b = [.wr dom off val] ∧ readsOf b = 0 := by
  simp [stepEvents, readsOf, hdec, hbind]

/-- The events and reads of an RMW (40_steps.md R91, R92). -/
theorem events_of_rmw (hdec : decodeStep b.word = .ok (.rmw dc off mask val)) (hbind : bindClass dc b.lane = some dom)
    (v : Word) : stepEvents v b = [.rd dom off v, .wr dom off (mergeMasked v mask val)] ∧ readsOf b = 1 := by
  simp [stepEvents, readsOf, hdec, hbind]

/-- The events and reads of a DLY (40_steps.md R95). -/
theorem events_of_dly (hdec : decodeStep b.word = .ok (.dly d)) (v : Word) :
    stepEvents v b = [.dly d] ∧ readsOf b = 0 := by
  simp [stepEvents, readsOf, hdec]

end Kinds

/-- A phase of a step moves events from those owed to the trace: together they stay the same (40_steps.md R88, R99). -/
theorem exec_keeps_owedEvents {i : Instr} {s t : State} {b : BoundStep} (hb : s.job[s.spc]? = some b)
    (hdec : decodeStep b.word = .ok i) (h : exec i s = .next t) :
    t.trace ++ owedEvents t = s.trace ++ owedEvents s := by
  obtain ⟨b', -, hb', hcases⟩ := exec_step_next (isCommand_of_decodeStep hdec) h
  obtain rfl : b = b' := Option.some.inj (hb.symm.trans hb')
  obtain ⟨dc, off, val, dom, rfl, hph, hdom, rfl⟩ | ⟨dc, off, mask, val, dom, rfl, hph, hdom, rfl⟩ |
    ⟨dc, off, mask, val, dom, rfl, hph, hdom, rfl⟩ | ⟨d, rfl, hph, -, rfl⟩ | ⟨d, rfl, hph, -, rfl⟩ | ⟨d, rfl, hph, -, rfl⟩ |
    ⟨d, rfl, hph, -, rfl⟩ := hcases
  · obtain ⟨hev, hreads⟩ := events_of_wr hdec (boundDomain_eq_some.1 hdom).1 s.nextAnswer
    rw [owedEvents_phaseEnds, owedEvents_at_step (by simp [hph]) hb, hev, hreads]
    simp [phaseEnds]
  · obtain ⟨hev, hreads⟩ := events_of_rmw hdec (boundDomain_eq_some.1 hdom).1 s.nextAnswer
    rw [owedEvents_read hb, owedEvents_at_step (by simp [hph]) hb, hev, hreads]
    simp
  · obtain ⟨hev, -⟩ := events_of_rmw hdec (boundDomain_eq_some.1 hdom).1 s.rd
    rw [owedEvents_phaseEnds, owedEvents_at_rmwWb hph hb, hev]
    simp [phaseEnds]
  · obtain ⟨hev, hreads⟩ := events_of_dly hdec s.nextAnswer
    rw [owedEvents_phaseEnds, owedEvents_at_step (by simp [hph]) hb, hev, hreads]
    simp [phaseEnds]
  · exact congrArg (s.trace ++ ·) (owedEvents_waits (by simp [hph]) nofun ⟨rfl, rfl⟩ ⟨rfl, rfl⟩)
  · obtain ⟨hev, hreads⟩ := events_of_dly hdec s.nextAnswer
    rw [owedEvents_phaseEnds, owedEvents_at_step (by simp [hph]) hb, hev, hreads]
    simp [phaseEnds]
  · exact congrArg (s.trace ++ ·) (owedEvents_waits (by simp [hph]) (by simp [hph]) ⟨rfl, rfl⟩ ⟨rfl, rfl⟩)

/-! ### The account of a whole command -/

/-- A running job with nothing pending ends with the events it owes, then `Done` (45_orchestration.md R163). -/
theorem run_account {n : Nat} {s t : State} (hrun : s.fsm = .run) (hpending : s.agenda = []) (h : stepsTo n s t)
    (hend : runEnded t) :
    t.cfg = s.cfg ∧ t.cmd = s.cmd ∧ t.status = Status.complete s.res LaneFields.zero ∧
      t.trace = s.trace ++ owedEvents s ++ [.done (statusWord (Status.complete s.res LaneFields.zero))] := by
  induction n generalizing s with
  | zero =>
    cases h
    cases hrun.symm.trans hend.1
  | succ n ih =>
    obtain ⟨u, hstep, hrest⟩ := h
    obtain ⟨b, i, hb, hdec, hexec⟩ | ⟨hlast, rfl⟩ := step_of_run hrun hpending hstep
    · obtain ⟨b', -, -, hphase⟩ := exec_phaseEffect (isCommand_of_decodeStep hdec) hexec
      obtain ⟨hcfg, hcmd, hres, hfsm, hagenda⟩ := hphase.keeps_command
      have hacc := ih (hfsm.trans hrun) (hagenda.trans hpending) hrest
      rwa [hcfg, hcmd, hres, exec_keeps_owedEvents hb hdec hexec] at hacc
    · obtain rfl := stepsTo_of_runEnded (s := s.complete s.res LaneFields.zero) ⟨rfl, hpending⟩ hrest
      simp [owedEvents_past_job hlast]

/-- STATUS once the command `w` has completed (45_orchestration.md R163). -/
def commandStatus (c : Config) (w : Word) : Status :=
  completedStatus (decodeAndBuild c w).result (decodeAndBuild c w).lanes.lane (decodeAndBuild c w).lanes.present
    (decodeAndBuild c w).lanes.valid

/-- The events the command `w` appends when its reads return `r 0`, `r 1`, … (45_orchestration.md R153, R163). -/
def commandEvents (r : Nat → Word) (c : Config) (w : Word) : List Event :=
  .cmd w :: (jobEvents r 0 (decodeAndBuild c w).job ++ [.done (statusWord (commandStatus c w))])

/-- A word that fails builds no job. -/
theorem decodeAndBuild_job_nil {c : Config} {w : Word} (h : (decodeAndBuild c w).result ≠ .ok) :
    (decodeAndBuild c w).job = [] := by
  obtain ⟨r, -, hw⟩ | ⟨j, hw, -⟩ | ⟨p, hw⟩ := build_cases c w
  · rw [hw, Build.failed]
  · rw [hw] at h
    exact absurd rfl h
  · rw [hw, buildQueryLane]

/-- A word that builds a job completes with OK and zero lane fields (10_state.md R24, R30). -/
theorem commandStatus_of_job {c : Config} {w : Word} (h : (decodeAndBuild c w).job ≠ []) :
    commandStatus c w = Status.complete .ok LaneFields.zero := by
  obtain ⟨r, -, hw⟩ | ⟨j, hw, -⟩ | ⟨p, hw⟩ := build_cases c w
  · rw [hw] at h
    exact absurd rfl h
  · rw [commandStatus, hw]
    rfl
  · rw [hw] at h
    exact absurd rfl h

/-- A command written in IDLE that runs to its end leaves the configuration as it was, its word in CMD and its STATUS, and
appends its events, the values of its reads those that DOMAINS gives, in order (40_steps.md R99, 45_orchestration.md R153,
R163). -/
theorem completes_account {s t : State} {w : Word} (hidle : s.fsm = .idle) (h : completes s w t) :
    t.cfg = s.cfg ∧ t.cmd = w ∧ t.status = commandStatus s.cfg w ∧
      t.trace = s.trace ++ commandEvents (oracle s) s.cfg w := by
  obtain ⟨n, hrun, hend⟩ := h
  cases n with
  | zero =>
    cases hrun
    cases hend.2
  | succ n =>
    obtain ⟨u, hstep, hrest⟩ := hrun
    obtain rfl : u = ({ s with agenda := [] }).accept w (decodeAndBuild s.cfg w) := by
      rw [step_write_cmd (step_next hstep).1 rfl, State.writeCmd_idle (by exact hidle)] at hstep
      cases hstep
      rfl
    rw [State.accept_eq] at hrest
    split at hrest
    · rename_i hnone
      have hjob : (decodeAndBuild s.cfg w).job = [] := hnone.elim decodeAndBuild_job_nil id
      obtain rfl := stepsTo_of_runEnded ⟨rfl, rfl⟩ hrest
      exact ⟨rfl, rfl, rfl, by rw [commandEvents, hjob]; rfl⟩
    · rename_i hstarts
      obtain ⟨hcfg, hcmd, hstatus, htrace⟩ := run_account rfl rfl hrest hend
      rw [owedEvents_jobStarted] at htrace
      have hst := commandStatus_of_job (c := s.cfg) (w := w) fun hnil => hstarts (.inr hnil)
      refine ⟨hcfg, hcmd, hstatus.trans hst.symm, htrace.trans ?_⟩
      simp [commandEvents, hst, jobStarted]

/-- Settles O58: the account of a command reads of a state only its configuration and the values of its reads; and `step` is
a function. -/
theorem sameReadsGiveTheSameRun : Obligations.SameReadsGiveTheSameRun := by
  refine ⟨?_, ?_⟩
  · intro s s' t t' w _ _ hidle hidle' hcfg hreads ht ht'
    obtain ⟨-, hcmd, hstatus, htrace⟩ := completes_account hidle ht
    obtain ⟨-, hcmd', hstatus', htrace'⟩ := completes_account hidle' ht'
    rw [← hcfg] at hstatus' htrace'
    refine ⟨hcmd.trans hcmd'.symm, hstatus.trans hstatus'.symm, _, htrace, htrace'.trans ?_⟩
    rw [commandEvents, commandEvents, jobEvents_congr (oracle s) (oracle s') 0 _ (by simpa using hreads)]
  · rintro s t u w ⟨n, ht, htend⟩ ⟨m, hu, huend⟩
    exact runEnded_unique ht hu htend huend

/-- Settles O59: in the account of a command the values of the reads stand only where `eraseValue`, or `eraseRmw`, erases
them. -/
theorem eventPositionsDoNotDependOnReads : Obligations.EventPositionsDoNotDependOnReads := by
  intro s s' t t' w _ _ hidle hidle' hcfg ht ht'
  obtain ⟨-, -, -, htrace⟩ := completes_account hidle ht
  obtain ⟨-, -, -, htrace'⟩ := completes_account hidle' ht'
  rw [← hcfg] at htrace'
  refine ⟨_, _, htrace, htrace', ?_, ?_⟩
  · simp only [commandEvents, List.map_cons, List.map_append, eraseValue_jobEvents (oracle s) (oracle s') 0 0]
  · exact congrArg (Event.cmd w :: ·) (eraseRmw_jobEvents (oracle s) (oracle s') 0 0 _ rfl)

end Sys2Proof.Safety

/-! ## The lane resolver (41_lane_resolver.md) -/

namespace Sys2Proof.Safety

open Sys2Proof.Machine

/-! ### The two mappings (R101, R102) -/

/-- The identity mapping (R101). -/
@[simp] theorem resolve_identity (p : PortId) : resolve .identity p = some p := rfl

/-- The reduced mapping (R102): what is not listed here is Invalid. -/
theorem resolve_reduced_eq_some {p : PortId} {l : Lane} :
    resolve .reduced p = some l ↔ (p = 0#8 ∨ p = 1#8) ∧ l = 1#8 ∨ p = 2#8 ∧ l = 0#8 := by
  constructor
  · unfold resolve
    split_ifs with h0 h1 h2
    · rintro ⟨⟩
      exact .inl ⟨.inl h0, rfl⟩
    · rintro ⟨⟩
      exact .inl ⟨.inr h1, rfl⟩
    · rintro ⟨⟩
      exact .inr ⟨h2, rfl⟩
    · nofun
  · rintro (⟨rfl | rfl, rfl⟩ | ⟨rfl, rfl⟩) <;> rfl

theorem resolve_reduced_of_three_le {p : PortId} (h : 3 ≤ p.toNat) : resolve .reduced p = none := by
  rw [Option.eq_none_iff_forall_ne_some]
  intro l hl
  obtain ⟨rfl | rfl, -⟩ | ⟨rfl, -⟩ := resolve_reduced_eq_some.1 hl <;> simp at h

/-! ### The bound check (R103, R106) -/

section
variable {c : Config} {p : PortId}

theorem laneOk_iff : laneOk c p = true ↔ ∃ l, resolve c.mapMode p = some l ∧ l.toNat < c.laneCount := by
  simp only [laneOk, Option.isSome_iff_exists, laneOf_eq_some]

theorem laneOf_eq_resolve (h : laneOk c p = true) : laneOf c p = resolve c.mapMode p := by
  obtain ⟨l, hl, hlt⟩ := laneOk_iff.1 h
  rw [hl, laneOf_eq_some.2 ⟨hl, hlt⟩]

theorem laneOk_identity_iff (hm : c.mapMode = .identity) : laneOk c p = true ↔ p.toNat < c.laneCount := by
  simp [laneOk_iff, hm]

/-- Ports 0 and 1 need a second lane, port 2 only a first. -/
theorem laneOk_reduced_iff (hm : c.mapMode = .reduced) :
    laneOk c p = true ↔ (p = 0#8 ∨ p = 1#8) ∧ 1 < c.laneCount ∨ p = 2#8 ∧ 0 < c.laneCount := by
  simp only [laneOk_iff, hm, resolve_reduced_eq_some]
  constructor
  · rintro ⟨l, ⟨hp, rfl⟩ | ⟨hp, rfl⟩, hlt⟩
    · exact .inl ⟨hp, hlt⟩
    · exact .inr ⟨hp, hlt⟩
  · rintro (⟨hp, hlt⟩ | ⟨hp, hlt⟩)
    · exact ⟨1#8, .inl ⟨hp, rfl⟩, hlt⟩
    · exact ⟨0#8, .inr ⟨hp, rfl⟩, hlt⟩

theorem laneOk_reduced_one_iff (hm : c.mapMode = .reduced) (hn : c.laneCount = 1) :
    laneOk c p = true ↔ p = 2#8 := by
  simp [laneOk_reduced_iff hm, hn]

theorem laneOk_reduced_zero (hm : c.mapMode = .reduced) (hn : c.laneCount = 0) : laneOk c p = false := by
  simp [Bool.eq_false_iff, laneOk_reduced_iff hm, hn]

end

/-- Settles O25: the two tables of the resolver, then the bound check in general and under each mapping. -/
theorem resolverAndBoundCheck : Obligations.ResolverAndBoundCheck := by
  refine ⟨fun p => ⟨resolve_identity p, fun h => ?_, fun h => ?_, fun h => ?_, resolve_reduced_of_three_le⟩,
    fun c p => ⟨laneOk_iff, laneOf_eq_resolve, fun hm => ⟨laneOk_identity_iff hm, fun h => ?_⟩,
      fun hm hn => ⟨laneOk_reduced_one_iff hm hn, fun hp => ?_⟩, laneOk_reduced_zero⟩⟩
  · exact resolve_reduced_eq_some.2 (.inl ⟨.inl (BitVec.eq_of_toNat_eq h), rfl⟩)
  · exact resolve_reduced_eq_some.2 (.inl ⟨.inr (BitVec.eq_of_toNat_eq h), rfl⟩)
  · exact resolve_reduced_eq_some.2 (.inr ⟨BitVec.eq_of_toNat_eq h, rfl⟩)
  · rw [laneOf_eq_resolve h, hm, resolve_identity]
  · rw [laneOf_eq_resolve ((laneOk_reduced_one_iff hm hn).2 hp), hm]
    exact resolve_reduced_eq_some.2 (.inr ⟨hp, rfl⟩)

end Sys2Proof.Safety

/-! ## The PLL part (42_pll.md) -/

namespace Sys2Proof.Machine

open Sys2Proof.Safety

/-! ### The completion of a part -/

/-- What a phase that completes the last step of its part does to `pll_done` and `redrive`: the update of the part's tag
(42_pll.md R112, 43_reset.md R126, 44_calibration.md R146). -/
theorem PhaseEffect.ghost_of_last {i : Instr} {s t : State} {b : BoundStep} (h : PhaseEffect i s b t)
    (hspc : t.spc = s.spc + 1) (hlast : ∀ x ∈ s.job.drop (s.spc + 1), x.tag ≠ b.tag) :
    t.pllDone = pllDoneAfter s.pllDone b.tag ∧ t.redrive = redriveAfter s.pllDone s.redrive b := by
  cases h with
  | ends es n hn => simp [phaseEnds, hasFrom_eq_false.2 hlast]
  | reads dc off mask val hi dom v rest n => exact absurd hspc.symm (Nat.succ_ne_self s.spc)
  | waits d hi n hn => exact absurd hspc.symm (Nat.succ_ne_self s.spc)

/-- Settles O34: the update of the tag PLL sets `pll_done` and names no lane. -/
theorem pllPartCompletionSetsPllDone : Obligations.PllPartCompletionSetsPllDone := by
  intro s t b i hrun hb hi hexec hspc htag hlast
  obtain ⟨b', -, hb', hphase⟩ := exec_phaseEffect hi hexec
  obtain rfl : b = b' := Option.some.inj (hb.symm.trans hb')
  obtain ⟨hpllDone, hredrive⟩ := hphase.ghost_of_last hspc (by rwa [htag])
  rw [htag, pllDoneAfter] at hpllDone
  rw [redriveAfter, htag] at hredrive
  exact ⟨hpllDone, hredrive⟩

end Sys2Proof.Machine

namespace Sys2Proof.Safety

open Sys2Proof.Machine

/-! ### The events of a job, step by step -/

section
variable {dc : DomainClass} {off mask val : Word} {l : Option Lane} {g : Tag} {dom : Domain}

/-- A WR first (40_steps.md R89). -/
theorem jobEvents_wr_cons (ha : Word.aligned off = true) (hdom : bindClass dc l = some dom) (r : Nat → Word) (n : Nat)
    (rest : List BoundStep) :
    jobEvents r n ({ word := StepWord.wr dc off val, lane := l, tag := g } :: rest) =
      .wr dom off val :: jobEvents r n rest := by
  simp [jobEvents, stepEvents_wr ha, readsOf_wr ha, hdom]

/-- An RMW first: its read is the n-th (40_steps.md R91, R92). -/
theorem jobEvents_rmw_cons (ha : Word.aligned off = true) (hdom : bindClass dc l = some dom) (r : Nat → Word) (n : Nat)
    (rest : List BoundStep) :
    jobEvents r n ({ word := StepWord.rmw dc off mask val, lane := l, tag := g } :: rest) =
      .rd dom off (r n) :: .wr dom off (mergeMasked (r n) mask val) :: jobEvents r (n + 1) rest := by
  simp [jobEvents, stepEvents_rmw ha, readsOf_rmw ha, hdom]

end

/-! ### The sequence (42_pll.md R109, R110) -/

/-- Check W2 puts PLL_SEQ in the ROM; SETB is an RMW of its own bits (30_encoding.md R85). -/
theorem pllJob_eq {c : Config} (hc : configOk c = true) (hpll : c.hasPll = true) :
    pllJob c =
      [ { word := StepWord.wr .pll c.k.pll.anaOff c.k.pll.anaVal, lane := none, tag := .pll },
        { word := StepWord.rmw .pll c.k.pll.digOff c.k.pll.enMask c.k.pll.enMask, lane := none, tag := .pll } ] := by
  rw [pllJob, if_pos hpll, configOk_rom hc]
  rfl

/-- Settles O40: the two steps append their events at the PLL domain, and SETB writes `r | PLL_EN_MASK`. -/
theorem pllSequenceTrace : Obligations.PllSequenceTrace := by
  intro c r hc hpll
  obtain ⟨hana, hdig⟩ := aligned_pll hc
  refine ⟨pllJob_eq hc hpll, ?_⟩
  rw [pllJob_eq hc hpll, jobEvents_wr_cons hana rfl, jobEvents_rmw_cons hdig rfl, mergeMasked_self, jobEvents]

end Sys2Proof.Safety

/-! ## The resets (43_reset.md) -/

namespace Sys2Proof.Machine

open Sys2Proof.Safety

/-! ### The completion of a reset part (R126) -/

/-- A completed reset part, of either variant, sets the entry of its lane and leaves `pll_done`. -/
theorem redriveAfter_of_reset {b : BoundStep} (htag : b.tag = .usxRst ∨ b.tag = .sgmRst) (pd : Bool) (rv : List Redrive) :
    pllDoneAfter pd b.tag = pd ∧ redriveAfter pd rv b = redriveSet rv b.lane (redriveAfterReset pd) := by
  obtain htag | htag := htag
  · simp [pllDoneAfter, redriveAfter, htag]
  · simp [pllDoneAfter, redriveAfter, htag]

/-- The entry of a lane that exists, once it is set. -/
theorem redriveSet_getD_self {rv : List Redrive} {l : Lane} (hlt : l.toNat < rv.length) (r : Redrive) :
    (redriveSet rv (some l) r).getD l.toNat .dirty = r := by
  simp [redriveSet, List.getD_eq_getElem?_getD, hlt]

/-- The entries of the other lanes, when one is set. -/
theorem redriveSet_getD_of_ne {l m : Lane} (hne : m ≠ l) (rv : List Redrive) (r : Redrive) :
    (redriveSet rv (some l) r).getD m.toNat .dirty = rv.getD m.toNat .dirty := by
  by_contra hchanged
  obtain ⟨hlane, -⟩ := redriveSet_getD_ne hchanged
  exact hne (Option.some.inj hlane).symm

/-- RESET_LANE in IDLE is the acceptance of its own word (45_orchestration.md R153, R159). -/
theorem exec_resetLane_idle {s : State} (hidle : s.fsm = .idle) (mode : ResetMode) (subHi : BitVec 3) (p : PortId)
    (speed : Speed) :
    exec (.resetLane mode subHi p speed) s =
      .next (s.accept (Cmd32.word 0x3#4 (subHi ++ mode.toBit) p speed) (buildResetLane s.cfg p mode)) :=
  congrArg Host.Outcome.next (State.writeCmd_idle hidle _ _)

/-- Settles O35: the last phase of a reset part sets the entry of its lane; acceptance touches no ghost state but the
trace. -/
theorem resetPartCompletionSetsRedrive : Obligations.ResetPartCompletionSetsRedrive := by
  constructor
  · intro s t b i l hrun hb hi hexec hspc htag hlane hlt hlast
    obtain ⟨b', -, hb', hphase⟩ := exec_phaseEffect hi hexec
    obtain rfl : b = b' := Option.some.inj (hb.symm.trans hb')
    obtain ⟨hpllDone, hredrive⟩ := hphase.ghost_of_last hspc hlast
    obtain ⟨hpll, hset⟩ := redriveAfter_of_reset htag s.pllDone s.redrive
    rw [hset, hlane] at hredrive
    refine ⟨?_, hpllDone.trans hpll, fun m hne => ?_⟩
    · rw [State.redriveOf, hredrive, redriveSet_getD_self hlt, redriveAfterReset]
    · rw [State.redriveOf, hredrive, redriveSet_getD_of_ne hne, State.redriveOf]
  · intro s t mode x p y hidle hexec
    rw [exec_resetLane_idle hidle] at hexec
    cases hexec
    obtain ⟨hpllDone, hredrive, -⟩ :=
      State.accept_ghost s (Cmd32.word 0x3#4 (x ++ mode.toBit) p y) (buildResetLane s.cfg p mode)
    exact ⟨hredrive, hpllDone⟩

/-! ### The reset jobs (R114) -/

section
variable {c : Config} {p : PortId} {l : Lane} {t : Tag}

/-- A port without a sequence has no reset. -/
theorem resetJob_none : resetJob c p none t = [] := by
  refine List.eq_nil_iff_forall_not_mem.2 fun b hb => ?_
  obtain ⟨_, _, _, -, -, hseq, -⟩ := mem_resetJob hb
  cases hseq

/-- Behind an open gate the sequence is bound to the port's lane. -/
theorem resetJob_some (hrst : c.hasRst = true) (hlane : laneOf c p = some l) (steps : List StepWord) :
    resetJob c p (some steps) t = bindAll (some l) t steps := by
  simp [resetJob, hlane, hrst]

/-- Every step of a reset has its tag and its port's lane. -/
theorem tag_lane_of_mem_resetJob {seq : Option (List StepWord)} (hlane : laneOf c p = some l) {b : BoundStep}
    (hb : b ∈ resetJob c p seq t) : b.tag = t ∧ b.lane = some l := by
  obtain ⟨l', _, _, hl', -, -, -, rfl⟩ := mem_resetJob hb
  exact ⟨rfl, hl'.symm.trans hlane⟩

/-- A choice that ports 1 and 2 have, and no other port. -/
theorem ports_one_two_eq_some {α β : Type} {f : α → β} {x y : α} {b : β} :
    (if p = 1#8 then some (f x) else if p = 2#8 then some (f y) else none) = some b ↔
      ∃ u, (p = 1#8 ∧ u = x ∨ p = 2#8 ∧ u = y) ∧ f u = b := by
  constructor
  · split_ifs with h1 h2
    · rintro ⟨⟩
      exact ⟨x, .inl ⟨h1, rfl⟩, rfl⟩
    · rintro ⟨⟩
      exact ⟨y, .inr ⟨h2, rfl⟩, rfl⟩
    · nofun
  · rintro ⟨u, ⟨rfl, rfl⟩ | ⟨rfl, rfl⟩, rfl⟩
    · rfl
    · rfl

/-- Ports 1 and 2 have a USXGMII reset, the one check W2 puts in the ROM (R117). -/
theorem usxSeqOf_eq_some (hc : configOk c = true) {steps : List StepWord} :
    usxSeqOf c p = some steps ↔
      ∃ u, (p = 1#8 ∧ u = c.k.usx.port1 ∨ p = 2#8 ∧ u = c.k.usx.port2) ∧ usxRst c.k u = steps := by
  rw [usxSeqOf, configOk_rom hc]
  exact ports_one_two_eq_some (f := usxRst c.k)

/-- Ports 1 and 2 have an SGMII reset, the one check W2 puts in the ROM (R122). -/
theorem sgmSeqOf_eq_some (hc : configOk c = true) {steps : List StepWord} :
    sgmSeqOf c p = some steps ↔
      ∃ g, (p = 1#8 ∧ g = c.k.sgm.port1 ∨ p = 2#8 ∧ g = c.k.sgm.port2) ∧ sgmRst c.k g = steps := by
  rw [sgmSeqOf, configOk_rom hc]
  exact ports_one_two_eq_some (f := sgmRst c.k)

end

/-! ### Port 0 under the reduced mapping (R128) -/

/-- Port 0 shares lane 1 with port 1 (41_lane_resolver.md R101). -/
theorem laneOf_reduced_zero {c : Config} (hm : c.mapMode = .reduced) (hn : 2 ≤ c.laneCount) : laneOf c 0#8 = some 1#8 := by
  rw [laneOf_eq_some, hm]
  exact ⟨resolve_reduced_eq_some.2 (.inl ⟨.inl rfl, rfl⟩), hn⟩

/-- Settles O26: port 0 has a lane, but neither reset sequence. -/
theorem reducedPortZeroHasNoReset : Obligations.ReducedPortZeroHasNoReset := by
  intro c k hm hn
  have hlane := laneOf_reduced_zero hm hn
  have husx : usxJob c 0#8 = [] := resetJob_none
  refine ⟨hlane, husx, resetJob_none, ?_, fun b hb => ?_⟩
  · rw [setupJob, husx, List.append_nil]
  · obtain ⟨l, _, hl, -, -, -, rfl⟩ := mem_calJob hb
    exact hl.symm.trans hlane

/-! ### The offsets the resets access (R124) -/

section
variable {dc : DomainClass} {off mask val : Word}

theorem accessOff_wr (ha : Word.aligned off = true) : accessOff (StepWord.wr dc off val) = some off := by
  simp [accessOff, decodeStep_wr ha]

theorem accessOff_rmw (ha : Word.aligned off = true) : accessOff (StepWord.rmw dc off mask val) = some off := by
  simp [accessOff, decodeStep_rmw ha]

theorem accessOff_dly (d : Word) : accessOff (StepWord.dly d) = none := by
  simp [accessOff, decodeStep_dly]

end

section
variable {c : Config} (hc : configOk c = true)
include hc

/-- W9: the offsets of the two variants are disjoint. -/
theorem configOk_resetOffsets :
    (c.k.sgm.enOff ≠ c.k.usx.offA ∧ c.k.sgm.enOff ≠ c.k.usx.offB) ∧
      c.k.sgm.rstOff ≠ c.k.usx.offA ∧ c.k.sgm.rstOff ≠ c.k.usx.offB := by
  obtain ⟨-, -, -, -, -, -, -, -, -, hw, -⟩ := configOk_all hc
  simpa [checkW9] using hw

/-- The offsets of the USXGMII reset (R117). -/
theorem accessOff_of_mem_usxJob {p : PortId} {b : BoundStep} (hb : b ∈ usxJob c p) {a : Word}
    (ha : accessOff b.word = some a) : ∃ sel, a = usxOff c.k.usx sel := by
  have hstep (w : UsxWrite) (hw : accessOff (usxStep c.k.usx w) = some a) : ∃ sel, a = usxOff c.k.usx sel := by
    rw [usxStep, accessOff_wr (aligned_usx hc _)] at hw
    exact ⟨w.sel, (Option.some.inj hw).symm⟩
  obtain ⟨_, _, w, -, -, hseq, hw, rfl⟩ := mem_resetJob hb
  obtain ⟨u, -, rfl⟩ := (usxSeqOf_eq_some hc).1 hseq
  simp only [usxRst, List.mem_cons, List.not_mem_nil, or_false] at hw
  obtain rfl | rfl | rfl | rfl | rfl := hw
  · exact hstep _ ha
  · exact hstep _ ha
  · exact hstep _ ha
  · exact hstep _ ha
  · simp [accessOff_dly] at ha

/-- The offsets of the SGMII reset (R122). -/
theorem accessOff_of_mem_sgmJob {p : PortId} {b : BoundStep} (hb : b ∈ sgmJob c p) {a : Word}
    (ha : accessOff b.word = some a) : a = c.k.sgm.enOff ∨ a = c.k.sgm.rstOff := by
  obtain ⟨hen, hrst⟩ := aligned_sgm hc
  obtain ⟨_, _, w, -, -, hseq, hw, rfl⟩ := mem_resetJob hb
  obtain ⟨g, -, rfl⟩ := (sgmSeqOf_eq_some hc).1 hseq
  simp only [sgmRst, StepWord.setb, StepWord.clrb, List.mem_cons, List.not_mem_nil, or_false] at hw
  obtain rfl | rfl | rfl | rfl | rfl | rfl := hw
  · exact .inl (by simpa [accessOff_rmw hen] using ha.symm)
  · exact .inr (by simpa [accessOff_rmw hrst] using ha.symm)
  · simp [accessOff_dly] at ha
  · exact .inr (by simpa [accessOff_rmw hrst] using ha.symm)
  · exact .inl (by simpa [accessOff_rmw hen] using ha.symm)
  · simp [accessOff_dly] at ha

end

/-- Settles O43: each variant accesses its own named offsets, which check W9 keeps apart. -/
theorem resetVariantsAccessDisjointOffsets : Obligations.ResetVariantsAccessDisjointOffsets := by
  rintro c p x y a b hc hx hy ha hb rfl
  obtain ⟨⟨henA, henB⟩, hrstA, hrstB⟩ := configOk_resetOffsets hc
  obtain ⟨sel, husx⟩ := accessOff_of_mem_usxJob hc hx ha
  obtain rfl | rfl := accessOff_of_mem_sgmJob hc hy hb
  · cases sel with
    | a => exact henA husx
    | b => exact henB husx
  · cases sel with
    | a => exact hrstA husx
    | b => exact hrstB husx

end Sys2Proof.Machine

namespace Sys2Proof.Safety

open Sys2Proof.Machine

/-! ### The traces of the resets (R117, R122) -/

/-- A DLY first (40_steps.md R95). -/
theorem jobEvents_dly_cons {l : Option Lane} {g : Tag} (d : Word) (r : Nat → Word) (n : Nat) (rest : List BoundStep) :
    jobEvents r n ({ word := StepWord.dly d, lane := l, tag := g } :: rest) = .dly d :: jobEvents r n rest := by
  simp [jobEvents, stepEvents_dly, readsOf_dly]

/-- `off(p,i)` (R117). -/
theorem usxOff_eq (u : UsxConsts) (sel : UsxSel) : usxOff u sel = if sel = .a then u.offA else u.offB := by
  cases sel
  · rfl
  · rfl

/-- Settles O41: four writes at the offsets of the selectors, then the settle time. -/
theorem usxResetTrace : Obligations.UsxResetTrace := by
  intro c p l u r hc hrst hlane hport
  refine ⟨?_, fun b hb => tag_lane_of_mem_resetJob hlane hb⟩
  have ha (w : UsxWrite) := aligned_usx hc w.sel
  rw [usxJob, (usxSeqOf_eq_some hc).2 ⟨u, hport, rfl⟩, resetJob_some hrst hlane]
  simp only [bindAll, usxRst, usxStep, List.map_cons, List.map_nil, ← usxOff_eq]
  rw [jobEvents_wr_cons (ha _) rfl, jobEvents_wr_cons (ha _) rfl, jobEvents_wr_cons (ha _) rfl,
    jobEvents_wr_cons (ha _) rfl, jobEvents_dly_cons, jobEvents]

/-- A value inside its mask is written whole (40_steps.md R92). -/
theorem mergeMasked_of_within {mask val : Word} (h : within val mask = true) (rd : Word) :
    mergeMasked rd mask val = (rd &&& ~~~mask) ||| val := by
  rw [mergeMasked, and_mask_of_within h]

/-- What CLRB writes (30_encoding.md R85). -/
theorem mergeMasked_zero (rd mask : Word) : mergeMasked rd mask 0#32 = rd &&& ~~~mask := by
  simp [mergeMasked]

/-- W6 keeps the value of an RMW of the ROM inside its mask (40_steps.md R93). -/
theorem within_of_rmw_mem {c : Config} (hc : configOk c = true) {dc : DomainClass} {off mask val : Word}
    (ha : Word.aligned off = true) (hmem : StepWord.rmw dc off mask val ∈ romWords c.rom) : within val mask = true := by
  simpa [rmwValOk, decodeStep_rmw ha] using configOk_rmwVal hc hmem

/-- The steps of both SGMII resets are words of the ROM. -/
theorem sgmRst_subset_romWords {c : Config} (hc : configOk c = true) {g : SgmPort}
    (hg : g = c.k.sgm.port1 ∨ g = c.k.sgm.port2) : sgmRst c.k g ⊆ romWords c.rom := by
  intro w hw
  rw [configOk_rom hc]
  obtain rfl | rfl := hg
  · simp [romWords, romOf, hw]
  · simp [romWords, romOf, hw]

/-- Settles O42: SETB, the assert and de-assert with the key, CLRB, and the two waits. -/
theorem sgmResetTrace : Obligations.SgmResetTrace := by
  intro c p l g r hc hrst hlane hport
  refine ⟨?_, fun b hb => tag_lane_of_mem_resetJob hlane hb⟩
  obtain ⟨hen, hoff⟩ := aligned_sgm hc
  have hrom := sgmRst_subset_romWords hc (hport.imp And.right And.right)
  have hassert : within (c.k.sgm.keyVal ||| g.rstBits) (c.k.sgm.keyMask ||| g.rstBits) = true :=
    within_of_rmw_mem (dc := .rst) hc hoff (hrom (by simp [sgmRst]))
  have hdeassert : within c.k.sgm.keyVal (c.k.sgm.keyMask ||| g.rstBits) = true :=
    within_of_rmw_mem (dc := .rst) hc hoff (hrom (by simp [sgmRst]))
  rw [sgmJob, (sgmSeqOf_eq_some hc).2 ⟨g, hport, rfl⟩, resetJob_some hrst hlane]
  simp only [bindAll, sgmRst, StepWord.setb, StepWord.clrb, List.map_cons, List.map_nil]
  rw [jobEvents_rmw_cons hen rfl, jobEvents_rmw_cons hoff rfl, jobEvents_dly_cons, jobEvents_rmw_cons hoff rfl,
    jobEvents_rmw_cons hen rfl, jobEvents_dly_cons, jobEvents, mergeMasked_self, mergeMasked_of_within hassert,
    mergeMasked_of_within hdeassert, mergeMasked_zero, BitVec.or_assoc]

end Sys2Proof.Safety

/-! ## Calibration (44_calibration.md) -/

namespace Sys2Proof.Machine

open Sys2Proof.Safety

/-! ### The start of a part without the PLL (R145) -/

theorem Tag.isCal_iff {g : Tag} : g.isCal = true ↔ ∃ k, g = .cal k := by
  cases g <;> simp [Tag.isCal]

/-- The part a tag names has no step before position `n`. -/
theorem hasBefore_eq_false {job : List BoundStep} {n : Nat} {g : Tag} :
    hasBefore job n g = false ↔ ∀ x ∈ job.take n, x.tag ≠ g := by
  simp [hasBefore]

/-- A phase records what `phaseFaults` says, whichever it is. -/
theorem PhaseEffect.faults {i : Instr} {s t : State} {b : BoundStep} (h : PhaseEffect i s b t) :
    t.faults = phaseFaults s b := by
  cases h with
  | ends | reads | waits => rfl

/-- The phases that record HZ_CAL_NO_PLL: the start of the first step of a calibration part while `pll_done` is false. -/
def StartsCalWithoutPll (s : State) (b : BoundStep) : Prop :=
  s.ph = .issue ∧ (∃ k, b.tag = .cal k) ∧ s.pllDone = false ∧ ∀ x ∈ s.job.take s.spc, x.tag ≠ b.tag

theorem phaseFaults_of_startsCalWithoutPll {s : State} {b : BoundStep} (h : StartsCalWithoutPll s b) :
    phaseFaults s b = s.faults.insert .calNoPll := by
  obtain ⟨hph, hcal, hpll, hfirst⟩ := h
  simp [phaseFaults, hph, State.startStep_eq, Tag.isCal_iff.2 hcal, hpll, hasBefore_eq_false.2 hfirst]

theorem phaseFaults_of_not_startsCalWithoutPll {s : State} {b : BoundStep} (h : ¬StartsCalWithoutPll s b) :
    phaseFaults s b = s.faults := by
  unfold phaseFaults
  split
  · rename_i hph
    rw [State.startStep_eq]
    refine if_neg fun hcond => h ?_
    simp only [Bool.and_eq_true, Bool.not_eq_true'] at hcond
    obtain ⟨⟨hcal, hpll⟩, hfirst⟩ := hcond
    exact ⟨hph, Tag.isCal_iff.1 hcal, hpll, hasBefore_eq_false.1 hfirst⟩
  · rfl

/-- Settles O33: a phase records what `phaseFaults` says, and the second clause is the negation of the first's condition. -/
theorem onlyCalibrationWithoutPllRaises : Obligations.OnlyCalibrationWithoutPllRaises := by
  intro s t b i hrun hb hi hexec
  obtain ⟨b', -, hb', hphase⟩ := exec_phaseEffect hi hexec
  obtain rfl : b = b' := Option.some.inj (hb.symm.trans hb')
  rw [hphase.faults]
  constructor
  · intro hph hcal hpll hfirst
    exact phaseFaults_of_startsCalWithoutPll ⟨hph, hcal, hpll, hfirst⟩
  · intro hother
    refine phaseFaults_of_not_startsCalWithoutPll ?_
    rintro ⟨hph, ⟨k, hcal⟩, hpll, hfirst⟩
    obtain hne | hne | hdone | ⟨x, hx, htag⟩ := hother
    · exact hne hph
    · exact hne k hcal
    · exact absurd (hpll.symm.trans hdone) (by decide)
    · exact hfirst x hx htag

/-! ### The completion of a calibration part (R146) -/

/-- A completed calibration part sets the entry of its lane and leaves `pll_done`. -/
theorem redriveAfter_of_cal {b : BoundStep} {k : Program} {l : Lane} (htag : b.tag = .cal k) (hlane : b.lane = some l)
    (pd : Bool) (rv : List Redrive) :
    pllDoneAfter pd b.tag = pd ∧
      redriveAfter pd rv b = redriveSet rv (some l) (redriveAfterCal pd (rv.getD l.toNat .dirty)) := by
  simp [pllDoneAfter, redriveAfter, htag, hlane]

/-- A lane is CLEAN after a calibration that ran with the PLL, on a lane whose reset had been seen. -/
theorem redriveAfterCal_eq (pd : Bool) (old : Redrive) :
    redriveAfterCal pd old = if pd = true ∧ (old = .rstSeen ∨ old = .clean) then .clean else .dirty := by
  cases old <;> simp [redriveAfterCal]

/-- Settles O36: the last phase of a calibration part sets the entry of its lane. -/
theorem calibrationPartCompletionSetsRedrive : Obligations.CalibrationPartCompletionSetsRedrive := by
  intro s t b i k l hrun hb hi hexec hspc htag hlane hlt hlast
  obtain ⟨b', -, hb', hphase⟩ := exec_phaseEffect hi hexec
  obtain rfl : b = b' := Option.some.inj (hb.symm.trans hb')
  obtain ⟨hpllDone, hredrive⟩ := hphase.ghost_of_last hspc hlast
  obtain ⟨hpll, hset⟩ := redriveAfter_of_cal htag hlane s.pllDone s.redrive
  rw [hset] at hredrive
  refine ⟨?_, hpllDone.trans hpll, fun m hne => ?_⟩
  · rw [State.redriveOf, hredrive, redriveSet_getD_self hlt, redriveAfterCal_eq, State.redriveOf]
  · rw [State.redriveOf, hredrive, redriveSet_getD_of_ne hne, State.redriveOf]

/-! ### The sequences of an accepted ROM (R130) -/

/-- Check W2 puts every program in the ROM. -/
theorem configOk_prog {c : Config} (hc : configOk c = true) (k : Program) : c.rom.prog.get k = progSeq c.k k := by
  rw [configOk_rom hc]
  cases k <;> rfl

/-- W8: the bodies of G1 and G2 differ at most in the values they write (R139). -/
theorem configOk_sameBodies {c : Config} (hc : configOk c = true) : sameButValues c.k.body.g1 c.k.body.g2 = true := by
  obtain ⟨-, -, -, -, -, -, -, -, hw, -⟩ := configOk_all hc
  simp only [checkW8, allOf, List.all_cons, Bool.and_eq_true] at hw
  obtain ⟨-, -, hsame, -⟩ := hw
  exact hsame

theorem length_eq_of_sameButValues {a b : List StepWord} (h : sameButValues a b = true) : a.length = b.length := by
  simpa using congrArg List.length (beq_iff_eq.1 h)

theorem forcePrefix_length (f : ForceConsts) : (forcePrefix f).length = 7 := rfl

theorem handshake_length (transNs : Word) (h : HsConsts) : (handshake transNs h).length = 12 := rfl

/-- The steps of a program are those of `PREFIX(k)`, `BODY(k)` and the twelve of `HS(k)`. -/
theorem prog_length {c : Config} (hc : configOk c = true) (k : Program) :
    (c.rom.prog.get k).length = (calPrefix c.k k).length + (c.k.body.get k).length + 12 := by
  rw [configOk_prog hc, progSeq, List.length_append, List.length_append, handshake_length]

/-- Settles O47: the lists of the constants have fixed lengths, and G1 and G2 have bodies of one length. -/
theorem stepCounts : Obligations.StepCounts := by
  intro c hc
  have hf5g : c.rom.prog.f5g.length = 7 + c.k.body.f5g.length + 12 := prog_length hc .f5g
  have hf10g : c.rom.prog.f10g.length = 7 + c.k.body.f10g.length + 12 := prog_length hc .f10g
  have hg1 : c.rom.prog.g1.length = 0 + c.k.body.g1.length + 12 := prog_length hc .g1
  have hg2 : c.rom.prog.g2.length = 0 + c.k.body.g2.length + 12 := prog_length hc .g2
  have hbodies := length_eq_of_sameButValues (configOk_sameBodies hc)
  have hrom := configOk_rom hc
  refine ⟨congrArg (·.pll.length) hrom, congrArg (·.usx1.length) hrom, congrArg (·.usx2.length) hrom,
    congrArg (·.sgm1.length) hrom, congrArg (·.sgm2.length) hrom, forcePrefix_length _,
    forcePrefix_length _, fun k => handshake_length _ _, ?_, ?_, prog_length hc .an10g, ?_, ?_, ?_⟩
  all_goals omega

/-! ### Steps that write PEXTP or wait (R134, R136, R141) -/

theorem bodyStepOk_wr {off val : Word} (ha : Word.aligned off = true) :
    bodyStepOk (StepWord.wr .pextp off val) = true := by
  simp [bodyStepOk, decodeStep_wr ha]

theorem bodyStepOk_dly (d : Word) : bodyStepOk (StepWord.dly d) = true := by
  simp [bodyStepOk, decodeStep_dly]

/-- What a step that a body may hold decodes to. -/
theorem decodeStep_of_bodyStepOk {w : StepWord} (h : bodyStepOk w = true) :
    (∃ off val, decodeStep w = .ok (.wr .pextp off val)) ∨ ∃ d, decodeStep w = .ok (.dly d) := by
  unfold bodyStepOk at h
  split at h
  · exact .inl ⟨_, _, ‹_›⟩
  · exact .inr ⟨_, ‹_›⟩
  · cases h

/-- W11: a body holds no other steps (R136). -/
theorem bodyStepOk_of_mem_body {c : Config} (hc : configOk c = true) {k : Program} {w : StepWord}
    (hw : w ∈ c.k.body.get k) : bodyStepOk w = true := by
  obtain ⟨-, -, -, -, -, -, -, -, -, -, -, h11, -⟩ := configOk_all hc
  simp only [checkW11, List.all_eq_true] at h11
  refine h11 (c.k.body.get k) ?_ w hw
  cases k <;> simp [PerProgram.get, PerProgram.toList]

/-- Nor does a handshake (R134). -/
theorem bodyStepOk_of_mem_handshake {c : Config} (hc : configOk c = true) {k : Program} {w : StepWord}
    (hw : w ∈ handshake c.k.transNs (c.k.hs.get k)) : bodyStepOk w = true := by
  obtain ⟨hpd, he1, he2, hfin⟩ := aligned_hs hc k
  have hall : (handshake c.k.transNs (c.k.hs.get k)).all bodyStepOk = true := by
    simp [handshake, bodyStepOk_wr hpd, bodyStepOk_wr he1, bodyStepOk_wr he2, bodyStepOk_wr hfin, bodyStepOk_dly]
  exact List.all_eq_true.1 hall w hw

/-- A program whose `PREFIX(k)` is empty is its body and its handshake (R130). -/
theorem bodyStepOk_of_mem_prog {c : Config} (hc : configOk c = true) {k : Program} (hnone : calPrefix c.k k = [])
    {w : StepWord} (hw : w ∈ c.rom.prog.get k) : bodyStepOk w = true := by
  rw [configOk_prog hc, progSeq, hnone, List.nil_append, List.mem_append] at hw
  obtain hw | hw := hw
  · exact bodyStepOk_of_mem_body hc hw
  · exact bodyStepOk_of_mem_handshake hc hw

end Sys2Proof.Machine

namespace Sys2Proof.Safety

open Sys2Proof.Machine

/-! ### The trace of FORCE_PREFIX (R132) -/

/-- Settles O44: five RMW at PCS, each of a value inside its mask but for the CLRB, and the two waits. -/
theorem forcePrefixTrace : Obligations.ForcePrefixTrace := by
  intro c f l g r n hc hf
  obtain ⟨hspd, han, hckg, hfrc⟩ := aligned_force hc hf
  obtain ⟨hspdIn, hgateIn, hungateIn, hfrcIn⟩ := configOk_force hc hf
  simp only [bindAll, forcePrefix, StepWord.fld, StepWord.clrb, List.map_cons, List.map_nil]
  rw [jobEvents_rmw_cons hspd rfl, jobEvents_rmw_cons han rfl, jobEvents_rmw_cons hckg rfl, jobEvents_dly_cons,
    jobEvents_rmw_cons hfrc rfl, jobEvents_rmw_cons hckg rfl, jobEvents_dly_cons, jobEvents,
    mergeMasked_of_within hspdIn, mergeMasked_zero, mergeMasked_of_within hgateIn, mergeMasked_of_within hfrcIn,
    mergeMasked_of_within hungateIn]

/-! ### The events of the steps of a job -/

/-- An event of a job is one of a step of it. -/
theorem mem_jobEvents {r : Nat → Word} {n : Nat} {j : List BoundStep} {e : Event} (h : e ∈ jobEvents r n j) :
    ∃ b ∈ j, ∃ v, e ∈ stepEvents v b := by
  induction j generalizing n with
  | nil => cases h
  | cons b j ih =>
    rw [jobEvents, List.mem_append] at h
    obtain h | h := h
    · exact ⟨b, List.mem_cons_self, r n, h⟩
    · obtain ⟨b', hb', hev⟩ := ih h
      exact ⟨b', List.mem_cons_of_mem b hb', hev⟩

/-- A step that a body may hold waits, or writes PEXTP of its lane. -/
theorem stepEvents_of_bodyStepOk {b : BoundStep} {l : Lane} {v : Word} {e : Event} (he : e ∈ stepEvents v b)
    (hok : bodyStepOk b.word = true) (hlane : b.lane = some l) :
    (∃ d, e = .dly d) ∨ ∃ off x, e = .wr (.pextp l) off x := by
  have hbind : bindClass .pextp b.lane = some (.pextp l) := by rw [hlane]; rfl
  obtain ⟨off, val, hdec⟩ | ⟨d, hdec⟩ := decodeStep_of_bodyStepOk hok
  · rw [(events_of_wr hdec hbind v).1, List.mem_singleton] at he
    exact .inr ⟨off, val, he⟩
  · rw [(events_of_dly hdec v).1, List.mem_singleton] at he
    exact .inl ⟨d, he⟩

/-- Settles O45: check W2; the steps of the handshake one by one; and that a program whose `PREFIX(k)` is empty holds only
steps that a body may hold. -/
theorem programsEndWithTheHandshake : Obligations.ProgramsEndWithTheHandshake := by
  intro c k l g r n hc
  refine ⟨?_, ?_, fun hk e he => ?_⟩
  · rw [configOk_prog hc]
    cases k <;> rfl
  · obtain ⟨hpd, he1, he2, hfin⟩ := aligned_hs hc k
    simp only [bindAll, handshake, List.map_cons, List.map_nil]
    rw [jobEvents_wr_cons hpd rfl, jobEvents_dly_cons, jobEvents_wr_cons he1 rfl, jobEvents_dly_cons,
      jobEvents_wr_cons he1 rfl, jobEvents_dly_cons, jobEvents_wr_cons he2 rfl, jobEvents_dly_cons,
      jobEvents_wr_cons he2 rfl, jobEvents_dly_cons, jobEvents_wr_cons hfin rfl, jobEvents_dly_cons, jobEvents]
  · have hnone : calPrefix c.k k = [] := by
      obtain rfl | rfl := hk <;> rfl
    obtain ⟨b, hb, v, hev⟩ := mem_jobEvents he
    obtain ⟨w, hw, rfl⟩ := List.mem_map.1 hb
    exact stepEvents_of_bodyStepOk hev (bodyStepOk_of_mem_prog hc hnone hw) rfl

/-! ### The lane a calibration stays on (R144) -/

/-- The class the checks read off a word is that of the instruction it decodes to. -/
theorem accessClass_of_decodeStep {w : StepWord} {i : Instr} (h : decodeStep w = .ok i) :
    accessClass w = instrClass i := by
  cases i <;> simp [accessClass, h, instrClass]

/-- Only a step that decodes has events. -/
theorem decodes_of_mem_stepEvents {b : BoundStep} {v : Word} {e : Event} (he : e ∈ stepEvents v b) :
    ∃ i, decodeStep b.word = .ok i := by
  cases hdec : decodeStep b.word with
  | ok i => exact ⟨i, rfl⟩
  | error err => simp [stepEvents, hdec] at he

/-- An event of a step is a delay of a DLY, or an access to the domain the step's class binds to. -/
theorem mem_stepEvents {b : BoundStep} {i : Instr} (hdec : decodeStep b.word = .ok i) {v : Word} {e : Event}
    (he : e ∈ stepEvents v b) :
    (instrClass i = none ∧ ∃ d, e = .dly d) ∨
      ∃ dc dom, instrClass i = some dc ∧ bindClass dc b.lane = some dom ∧
        ∃ off x, e = .rd dom off x ∨ e = .wr dom off x := by
  cases i with
  | wr dc off val =>
    simp only [stepEvents, hdec, List.mem_map, Option.mem_toList] at he
    obtain ⟨dom, hdom, rfl⟩ := he
    exact .inr ⟨dc, dom, rfl, hdom, off, val, .inr rfl⟩
  | rmw dc off mask val =>
    simp only [stepEvents, hdec, List.mem_flatMap, Option.mem_toList, List.mem_cons, List.not_mem_nil, or_false] at he
    obtain ⟨dom, hdom, rfl | rfl⟩ := he
    · exact .inr ⟨dc, dom, rfl, hdom, off, v, .inl rfl⟩
    · exact .inr ⟨dc, dom, rfl, hdom, off, _, .inr rfl⟩
  | dly d =>
    rw [(events_of_dly hdec v).1, List.mem_singleton] at he
    exact .inl ⟨rfl, d, he⟩
  | _ => cases isCommand_of_decodeStep hdec

/-- What a phase of a step appends to the trace is among the events of that step. -/
theorem exec_appends_stepEvents {s t : State} {b : BoundStep} {i : Instr} (hb : s.job[s.spc]? = some b)
    (hdec : decodeStep b.word = .ok i) (h : exec i s = .next t) :
    ∃ es, t.trace = s.trace ++ es ∧ ∀ e ∈ es, ∃ v, e ∈ stepEvents v b := by
  obtain ⟨b', -, hb', hcases⟩ := exec_step_next (isCommand_of_decodeStep hdec) h
  obtain rfl : b = b' := Option.some.inj (hb.symm.trans hb')
  obtain ⟨dc, off, val, dom, rfl, -, hdom, rfl⟩ | ⟨dc, off, mask, val, dom, rfl, -, hdom, rfl⟩ |
    ⟨dc, off, mask, val, dom, rfl, -, hdom, rfl⟩ | ⟨d, rfl, -, -, rfl⟩ | ⟨d, rfl, -, -, rfl⟩ | ⟨d, rfl, -, -, rfl⟩ |
    ⟨d, rfl, -, -, rfl⟩ := hcases
  · obtain ⟨hev, -⟩ := events_of_wr hdec (boundDomain_eq_some.1 hdom).1 0
    exact ⟨_, rfl, fun e he => ⟨0, by rwa [hev]⟩⟩
  · obtain ⟨hev, -⟩ := events_of_rmw hdec (boundDomain_eq_some.1 hdom).1 s.nextAnswer
    exact ⟨_, rfl, fun e he => ⟨s.nextAnswer, by rw [hev]; exact List.mem_cons.2 (.inl (List.mem_singleton.1 he))⟩⟩
  · obtain ⟨hev, -⟩ := events_of_rmw hdec (boundDomain_eq_some.1 hdom).1 s.rd
    exact ⟨_, rfl, fun e he => ⟨s.rd, by rw [hev]; exact List.mem_cons_of_mem _ he⟩⟩
  · obtain ⟨hev, -⟩ := events_of_dly hdec 0
    exact ⟨_, rfl, fun e he => ⟨0, by rwa [hev]⟩⟩
  · exact ⟨[], (List.append_nil _).symm, nofun⟩
  · obtain ⟨hev, -⟩ := events_of_dly hdec 0
    exact ⟨_, rfl, fun e he => ⟨0, by rwa [hev]⟩⟩
  · exact ⟨[], (List.append_nil _).symm, nofun⟩

/-- An event that a calibration step of class `cl` on lane `l` may append (R144). -/
def CalEvent (l : Lane) (cl : Option DomainClass) (e : Event) : Prop :=
  (cl = none ∧ ∃ d, e = .dly d) ∨
  (cl = some .pcs ∧ ∃ off v, e = .rd (.pcs l) off v ∨ e = .wr (.pcs l) off v) ∨
  (cl = some .pextp ∧ ∃ off v, e = .rd (.pextp l) off v ∨ e = .wr (.pextp l) off v)

/-- W4 gives the steps of a calibration the classes PCS and PEXTP only, which bind to the port's lane. -/
theorem calEvent_of_mem_calJob {c : Config} (hc : configOk c = true) {k : Program} {p : PortId} {b : BoundStep}
    (hb : b ∈ calJob c k p) {l : Lane} (hlane : laneOf c p = some l) {i : Instr} (hdec : decodeStep b.word = .ok i)
    {v : Word} {e : Event} (he : e ∈ stepEvents v b) : CalEvent l (instrClass i) e := by
  obtain ⟨l', w, hlane', -, -, hw, rfl⟩ := mem_calJob hb
  obtain rfl : l = l' := Option.some.inj (hlane.symm.trans hlane')
  obtain hdly | ⟨dc, dom, hcl, hdom, hacc⟩ := mem_stepEvents hdec he
  · exact .inl hdly
  · obtain ⟨-, -, -, -, -, hclasses⟩ := configOk_classes hc
    have hmem := class_of_classesIn (hclasses k) hw ((accessClass_of_decodeStep hdec).trans hcl)
    simp only [List.mem_cons, List.not_mem_nil, or_false] at hmem
    obtain rfl | rfl := hmem
    · cases hdom
      exact .inr (.inl ⟨hcl, hacc⟩)
    · cases hdom
      exact .inr (.inr ⟨hcl, hacc⟩)

/-- A step of a calibration has its tag and its port's lane. -/
theorem tag_lane_of_mem_calJob {c : Config} {k : Program} {p : PortId} {b : BoundStep} (hb : b ∈ calJob c k p) :
    b.tag = .cal k ∧ b.lane = laneOf c p ∧ b.lane ≠ none := by
  obtain ⟨l, w, hlane, -, -, -, rfl⟩ := mem_calJob hb
  exact ⟨rfl, hlane.symm, nofun⟩

/-- A calibration with a step has a lane. -/
theorem exists_laneOf_of_mem_calJob {c : Config} {k : Program} {p : PortId} {b : BoundStep} (hb : b ∈ calJob c k p) :
    ∃ l, laneOf c p = some l := by
  obtain ⟨l, _, hlane, -⟩ := mem_calJob hb
  exact ⟨l, hlane⟩

/-- Settles O46: the events of a job, and what `exec` appends, are events of its steps, and those of a calibration step stay
on the lane. -/
theorem calibrationStaysOnItsLane : Obligations.CalibrationStaysOnItsLane := by
  intro c k p r n hc
  refine ⟨fun b hb => tag_lane_of_mem_calJob hb, fun e he => ?_, fun s t b i _ _ hb hmem hdec hexec => ?_⟩
  · obtain ⟨b, hmem, v, hev⟩ := mem_jobEvents he
    obtain ⟨l, hlane⟩ := exists_laneOf_of_mem_calJob hmem
    obtain ⟨i, hdec⟩ := decodes_of_mem_stepEvents hev
    obtain ⟨-, hdly⟩ | ⟨-, off, x, hrd | hwr⟩ | ⟨-, off, x, hrd | hwr⟩ := calEvent_of_mem_calJob hc hmem hlane hdec hev
    · exact .inl hdly
    · exact .inr ⟨l, off, x, hlane, .inl hrd⟩
    · exact .inr ⟨l, off, x, hlane, .inr (.inl hwr)⟩
    · exact .inr ⟨l, off, x, hlane, .inr (.inr (.inl hrd))⟩
    · exact .inr ⟨l, off, x, hlane, .inr (.inr (.inr hwr))⟩
  · obtain ⟨l, hlane⟩ := exists_laneOf_of_mem_calJob hmem
    obtain ⟨es, htrace, hes⟩ := exec_appends_stepEvents hb hdec hexec
    refine ⟨l, es, hlane, htrace, fun e he => ?_⟩
    obtain ⟨v, hev⟩ := hes e he
    exact calEvent_of_mem_calJob hc hmem hlane hdec hev

end Sys2Proof.Safety

/-! ## The commands in IDLE (45_orchestration.md R153, R156 to R163, R167) -/

namespace Sys2Proof

open Sys2Proof.Safety

/-! ### Words and codes -/

/-- A command is one word (30_encoding.md R64). -/
theorem exists_encode_eq {i : Instr} (hi : isCommand i = true) : ∃ w, encode i = [w] := by
  cases i with
  | wr | rmw | dly => cases hi
  | _ => exact ⟨_, rfl⟩

/-- The word of a command decodes to it. -/
theorem decodeCmd_of_encode {i : Instr} {w : Word} (hi : isCommand i = true) (hw : encode i = [w]) :
    decodeCmd w = .ok i := by
  have hdec := decodeWords_encode_command hi
  rwa [hw] at hdec

/-- The codes without a program (30_encoding.md R73). -/
theorem Program.ofCode_eq_none : ∀ code : BitVec 3, 5 ≤ code.toNat → Program.ofCode code = none := by decide

/-- The programs by their codes (30_encoding.md R69). -/
theorem Program.ofCode_eq_some {code : BitVec 3} {k : Program}
    (h : code.toNat = 0 ∧ k = .an10g ∨ code.toNat = 1 ∧ k = .f5g ∨ code.toNat = 2 ∧ k = .f10g ∨
      code.toNat = 3 ∧ k = .g1 ∨ code.toNat = 4 ∧ k = .g2) : Program.ofCode code = some k := by
  have hcode : code.toNat = k.toCode.toNat := by
    obtain ⟨hn, rfl⟩ | ⟨hn, rfl⟩ | ⟨hn, rfl⟩ | ⟨hn, rfl⟩ | ⟨hn, rfl⟩ := h
    all_goals exact hn
  rw [BitVec.eq_of_toNat_eq hcode, Program.ofCode_toCode]

end Sys2Proof

namespace Sys2Proof.Safety

open Sys2Proof.Machine

/-- In IDLE the invariant has the sequencer at its reset values (10_state.md R41). -/
theorem Inv.at_rest {s : State} (hinv : Inv s) (hidle : s.fsm = .idle) :
    s.job = [] ∧ s.spc = 0 ∧ s.ph = .issue := by
  have hjob := hinv.idle_iff_no_job.1 hidle
  have hspc := hinv.spc_le
  have hph := hinv.phase_in_job
  rw [hjob, List.length_nil] at hspc hph
  refine ⟨hjob, Nat.le_zero.1 hspc, ?_⟩
  by_contra hne
  exact Nat.not_lt_zero _ (hph hne)

end Sys2Proof.Safety

namespace Sys2Proof.Machine

open Sys2Proof.Safety

/-! ### Writes of CMD -/

/-- Settles O9: the word is written with what its command builds, as `exec` of the command writes it. -/
theorem stepRunsTheCommandWritten : Obligations.StepRunsTheCommandWritten := by
  intro s rest w i hc ha hdec
  rw [step_write_cmd hc ha, exec_of_decodeCmd hdec, decodeAndBuild, hdec]

/-- Settles O11: in RUN the write records HZ_BUSY, whatever its word builds. -/
theorem commandWhileRunningIsIgnored : Obligations.CommandWhileRunningIsIgnored := by
  intro s rest w hc ha hrun
  rw [step_write_cmd hc ha, State.writeCmd_run (by exact hrun)]
  rfl

/-- In IDLE a command is the acceptance of its word, with what the command builds (45_orchestration.md R153). -/
theorem exec_command_idle {s : State} {i : Instr} {w : Word} (hidle : s.fsm = .idle) (hi : isCommand i = true)
    (hw : encode i = [w]) : exec i s = .next (s.accept w (buildOf s.cfg i)) := by
  rw [exec_of_decodeCmd (decodeCmd_of_encode hi hw), State.writeCmd_idle hidle]

/-- A command that builds a job starts it, or completes at once when it is empty. -/
theorem exec_of_build_run {s : State} {i : Instr} {w : Word} {j : List BoundStep} (hidle : s.fsm = .idle)
    (hi : isCommand i = true) (hw : encode i = [w]) (hbuild : buildOf s.cfg i = Build.run j) :
    exec i s = .next (startedOrDone s w j) := by
  rw [exec_command_idle hidle hi hw, hbuild, State.accept_run]

/-- A command that builds a failure fails at once. -/
theorem exec_of_build_failed {s : State} {i : Instr} {w : Word} {r : Result} (hidle : s.fsm = .idle)
    (hi : isCommand i = true) (hw : encode i = [w]) (hbuild : buildOf s.cfg i = Build.failed r) :
    exec i s = .next (failedAtOnce s w r) := by
  rw [exec_command_idle hidle hi hw, hbuild, State.accept_failed]

/-- The job in the next state is the one that was to run, also where it is empty. -/
theorem startedOrDone_job (s : State) (w : Word) (j : List BoundStep) : (startedOrDone s w j).job = j := by
  unfold startedOrDone
  split
  · exact Eq.symm ‹_›
  · rfl

/-! ### SETUP_AUTONEG -/

/-- What SETUP_AUTONEG rejects (45_orchestration.md R156, R157). -/
theorem buildSetupAutoneg_eq (c : Config) (p : PortId) (speed : Speed) :
    buildSetupAutoneg c p speed =
      if c.portCount ≤ p.toNat ∨ ¬(speed.toNat = 5000 ∨ speed.toNat = 10000) then Build.failed .invalidArgument
      else Build.run (setupJob c .an10g p) := by
  simp [buildSetupAutoneg, portBad, BitVec.toNat_eq]

/-- Settles O14: the validation decides which of the two builds the command accepts. -/
theorem setupAutonegAccepted : Obligations.SetupAutonegAccepted := by
  intro s sub p speed hidle
  have hbuild := buildSetupAutoneg_eq s.cfg p speed
  split at hbuild
  · rw [if_pos ‹_›]
    exact exec_of_build_failed hidle rfl rfl hbuild
  · rw [if_neg ‹_›]
    exact exec_of_build_run hidle rfl rfl hbuild

/-- The two valid speeds, by value. -/
theorem validSpeed_iff {speed : Speed} :
    speed.toNat = 5000 ∨ speed.toNat = 10000 ↔ speed = 5000#16 ∨ speed = 10000#16 := by
  simp [BitVec.toNat_eq]

/-- After SETUP_AUTONEG with a valid speed the job depends on the configuration and the port only (R157). -/
theorem setupAutoneg_job {s t : State} {sub : BitVec 4} {p : PortId} {speed : Speed} (hidle : s.fsm = .idle)
    (hspeed : speed = 5000#16 ∨ speed = 10000#16) (h : exec (.setupAutoneg sub p speed) s = .next t) :
    t.job = if s.cfg.portCount ≤ p.toNat then [] else setupJob s.cfg .an10g p := by
  rw [setupAutonegAccepted s sub p speed hidle] at h
  cases h
  simp only [validSpeed_iff.2 hspeed, not_true, or_false]
  split
  · rfl
  · exact startedOrDone_job _ _ _

/-- Settles O15: another speed is rejected, and of a valid one nothing is left in the job. -/
theorem setupAutonegIgnoresWhichValidSpeed : Obligations.SetupAutonegIgnoresWhichValidSpeed := by
  refine ⟨fun s sub p speed hidle h5 h10 => ?_, fun s sub p speed hidle hport hspeed => ?_,
    fun s s' t t' sub sub' p speed speed' hidle hidle' hcfg hspeed hspeed' ht ht' => ?_⟩
  · rw [setupAutonegAccepted s sub p speed hidle, if_pos (.inr fun hvalid => (validSpeed_iff.1 hvalid).elim h5 h10)]
  · refine ⟨_, setupAutonegAccepted s sub p speed hidle, ?_⟩
    rw [setupAutoneg_job hidle hspeed (setupAutonegAccepted s sub p speed hidle), if_neg (Nat.not_le_of_lt hport)]
    rfl
  · rw [setupAutoneg_job hidle hspeed ht, setupAutoneg_job hidle' hspeed' ht', hcfg]

/-! ### The other commands -/

/-- Settles O16: a port beyond PORT_COUNT is rejected, and IFK selects the program. -/
theorem setupForcedAccepted : Obligations.SetupForcedAccepted := by
  intro s ifk p speed hidle
  by_cases hport : s.cfg.portCount ≤ p.toNat
  · rw [if_pos hport]
    exact exec_of_build_failed hidle rfl rfl (if_pos (decide_eq_true hport))
  · rw [if_neg hport]
    exact exec_of_build_run hidle rfl rfl (if_neg (by simpa [portBad] using hport))

/-- Settles O17: each mode builds its reset. -/
theorem resetLaneAccepted : Obligations.ResetLaneAccepted := by
  intro s subHi p speed hidle
  exact ⟨exec_of_build_run (i := .resetLane .usx subHi p speed) hidle rfl rfl rfl,
    exec_of_build_run (i := .resetLane .sgmii subHi p speed) hidle rfl rfl rfl⟩

/-- Settles O18: the PLL handle decides. -/
theorem enablePllAccepted : Obligations.EnablePllAccepted := by
  intro s sub p speed hidle
  by_cases hpll : s.cfg.hasPll = true
  · rw [if_pos hpll]
    exact exec_of_build_run hidle rfl rfl (if_pos hpll)
  · rw [if_neg hpll]
    exact exec_of_build_failed hidle rfl rfl (if_neg hpll)

/-- Settles O19: a code without a program is rejected, the others calibrate. -/
theorem calibrateAccepted : Obligations.CalibrateAccepted := by
  intro s prog subHi p speed hidle
  refine ⟨fun hprog => ?_, fun k hk => ?_⟩
  · refine exec_of_build_failed hidle rfl rfl ?_
    rw [buildOf, buildCalibrate, Program.ofCode_eq_none prog hprog]
  · refine exec_of_build_run hidle rfl rfl ?_
    rw [buildOf, buildCalibrate, Program.ofCode_eq_some hk]

/-- The lane fields of a port that resolves (45_orchestration.md R162). -/
theorem queryFields_of_resolve {c : Config} {p : PortId} {l : Lane} (h : resolve c.mapMode p = some l) :
    queryFields c p = { lane := l, present := decide (l.toNat < c.laneCount), valid := true } := by
  have hpresent : laneOk c p = decide (l.toNat < c.laneCount) := by
    rw [Bool.eq_iff_iff, laneOk_iff, decide_eq_true_iff]
    simp [h]
  simp [queryFields, h, hpresent]

/-- The lane fields of a port that does not (45_orchestration.md R162). -/
theorem queryFields_of_invalid {c : Config} {p : PortId} (h : resolve c.mapMode p = none) :
    queryFields c p = LaneFields.zero := by
  have hpresent : laneOk c p = false := by
    rw [Bool.eq_false_iff, Ne, laneOk_iff]
    simp [h]
  simp [queryFields, h, hpresent, LaneFields.zero]

/-- Settles O20: QUERY_LANE builds no job, and the lane fields of the resolver. -/
theorem queryLaneAccepted : Obligations.QueryLaneAccepted := by
  intro s sub p speed hidle
  have hexec := exec_command_idle (i := .queryLane sub p speed) hidle rfl rfl
  rw [buildOf, State.accept_query] at hexec
  cases hres : resolve s.cfg.mapMode p with
  | some l =>
    rw [queryFields_of_resolve hres] at hexec
    exact hexec
  | none =>
    rw [queryFields_of_invalid hres] at hexec
    exact hexec

/-! ### The job builders and their gates (R164) -/

section
variable {c : Config} {p : PortId} {l : Lane}

/-- Without a lane, a reset handle or a sequence of its own a port has no reset (43_reset.md R114). -/
theorem resetJob_gated {seq : Option (List StepWord)} {t : Tag}
    (h : (¬∃ l, resolve c.mapMode p = some l ∧ l.toNat < c.laneCount) ∨ c.hasRst = false ∨ seq = none) :
    resetJob c p seq t = [] := by
  refine List.eq_nil_iff_forall_not_mem.2 fun b hb => ?_
  obtain ⟨l, steps, _, hlane, hrst, hseq, -⟩ := mem_resetJob hb
  obtain hnone | hnone | hnone := h
  · exact hnone ⟨l, laneOf_eq_some.1 hlane⟩
  · exact absurd (hrst.symm.trans hnone) (by decide)
  · cases hseq.symm.trans hnone

/-- The handle of a lane that is present is the entry of its list (00_scope.md R9). -/
theorem handles_of_present (hlt : l.toNat < c.laneCount) :
    (hasPcs c l = true ↔ c.hasPcs[l.toNat]? = some true) ∧ (hasPextp c l = true ↔ c.hasPextp[l.toNat]? = some true) := by
  simp [hasPcs, hasPextp, lanePresent, hlt, Option.getD_eq_iff]

/-- Behind an open gate the program is bound to the port's lane (44_calibration.md R129). -/
theorem calJob_some (hlane : laneOf c p = some l) (hpcs : hasPcs c l = true) (hpextp : hasPextp c l = true)
    (k : Program) : calJob c k p = bindAll (some l) (.cal k) (c.rom.prog.get k) := by
  simp [calJob, hlane, hpcs, hpextp]

end

/-- Settles O24: each builder behind its open gate, and what a step of it needs where the gate is shut. -/
theorem jobBuildersFollowTheirGates : Obligations.JobBuildersFollowTheirGates := by
  intro c p
  refine ⟨fun hpll => if_pos hpll, fun hpll => if_neg (by simp [hpll]), fun l hres hlt hrst => ?_, fun hshut => ?_,
    fun k l hres hlt hpcs hpextp => ?_, fun hshut k => ?_⟩
  · have hlane := laneOf_eq_some.2 ⟨hres, hlt⟩
    refine ⟨?_, ?_⟩
    · rintro rfl
      exact ⟨resetJob_some hrst hlane _, resetJob_some hrst hlane _⟩
    · rintro rfl
      exact ⟨resetJob_some hrst hlane _, resetJob_some hrst hlane _⟩
  · have hnoSeq (hports : p ≠ 1#8 ∧ p ≠ 2#8) : usxSeqOf c p = none ∧ sgmSeqOf c p = none := by
      simp [usxSeqOf, sgmSeqOf, hports]
    exact ⟨resetJob_gated (hshut.imp_right (.imp_right fun hports => (hnoSeq hports).1)),
      resetJob_gated (hshut.imp_right (.imp_right fun hports => (hnoSeq hports).2))⟩
  · obtain ⟨hpcs', hpextp'⟩ := handles_of_present hlt
    exact calJob_some (laneOf_eq_some.2 ⟨hres, hlt⟩) (hpcs'.2 hpcs) (hpextp'.2 hpextp) k
  · refine List.eq_nil_iff_forall_not_mem.2 fun b hb => hshut ?_
    obtain ⟨l, _, hlane, hpcs, hpextp, -⟩ := mem_calJob hb
    obtain ⟨hres, hlt⟩ := laneOf_eq_some.1 hlane
    obtain ⟨hpcs', hpextp'⟩ := handles_of_present hlt
    exact ⟨l, hres, hlt, hpcs'.1 hpcs, hpextp'.1 hpextp⟩

/-! ### Failure and completion -/

/-- Only a failure has another result than OK. -/
theorem decodeAndBuild_failed {c : Config} {w : Word} (h : (decodeAndBuild c w).result ≠ .ok) :
    decodeAndBuild c w = Build.failed (decodeAndBuild c w).result := by
  obtain ⟨r, -, hw⟩ | ⟨j, hw, -⟩ | ⟨p, hw⟩ := build_cases c w
  · rw [hw]
    rfl
  · rw [hw] at h
    exact absurd rfl h
  · rw [hw] at h
    exact absurd rfl h

/-- Settles O21: the failure is accepted and completes at once, and what that writes to the sequencer stands there. -/
theorem failedCommandHasNoSideEffect : Obligations.FailedCommandHasNoSideEffect := by
  intro s rest w hinv hidle ha hfail
  obtain ⟨hjob, hspc, hph⟩ := hinv.at_rest hidle
  rw [step_write_cmd hinv.config ha, State.writeCmd_idle (by exact hidle), decodeAndBuild_failed hfail,
    State.accept_failed, failedAtOnce, completedAtOnce, ← hidle, ← hjob, ← hspc, ← hph]
  rfl

/-- SEQ past the last step of a job completes the command (45_orchestration.md R163, R174). -/
theorem State.seqMove_past_job {s : State} (hrun : s.fsm = .run) (hlast : s.spc = s.job.length) :
    s.seqMove = .next (s.complete s.res LaneFields.zero) := by
  simp [State.seqMove, hrun, State.seqRun, hlast]

/-- SEQ's move, when it is the next one or nothing is pending (log 6). -/
theorem step_of_seq {s : State} {rest : List Move} (hc : configOk s.cfg = true)
    (ha : s.agenda = .seq :: rest ∨ (s.agenda = [] ∧ rest = [])) : step s = ({ s with agenda := rest }).seqMove := by
  obtain ha | ⟨ha, rfl⟩ := ha
  · exact step_of_agenda hc (.inl ha)
  · exact step_of_agenda hc (.inr ⟨ha, rfl, rfl⟩)

/-- Settles O22: past the job SEQ completes the command, and in IDLE it waits. -/
theorem sequencerCompletesTheCommandOrWaits : Obligations.SequencerCompletesTheCommandOrWaits := by
  intro s rest hc ha
  rw [step_of_seq hc ha]
  exact ⟨fun hrun hlast => State.seqMove_past_job hrun hlast, fun hidle => State.seqMove_idle hidle⟩

/-! ### STATUS while a job runs (R173) -/

/-- STATUS at the start of a job: BUSY set, DONE clear, and the other bits as they were (10_state.md R22, R23). -/
theorem statusWord_of_start (st : Status) :
    (statusWord { st with busy := true, done := false }).extractLsb' 0 2 = 0b01#2 ∧
      (statusWord { st with busy := true, done := false }).extractLsb' 2 30 = (statusWord st).extractLsb' 2 30 := by
  have hbusy := Bool.toNat_lt st.busy
  have hdone := Bool.toNat_lt st.done
  constructor
  all_goals
    apply BitVec.eq_of_toNat_eq
    simp only [BitVec.extractLsb'_toNat, statusWord_toNat, Nat.shiftRight_eq_div_pow, Bool.toNat_true, Bool.toNat_false]
  · rw [show (0b01#2).toNat = 1 from rfl]
    omega
  · omega

/-- Acceptance that leads to RUN has started a job. -/
theorem State.accept_of_run {s : State} {w : Word} {b : Build} (h : (s.accept w b).fsm = .run) :
    s.accept w b = jobStarted s w b.job := by
  rw [State.accept_eq] at h ⊢
  split at h
  · cases h
  · exact if_neg ‹_›

/-- A phase leaves STATUS. -/
theorem PhaseEffect.status {i : Instr} {s t : State} {b : BoundStep} (h : PhaseEffect i s b t) : t.status = s.status := by
  cases h with
  | ends | reads | waits => rfl

/-- Settles O23: only a command moves IDLE to RUN, by the start of a job; a step runs in RUN, and no phase of it writes
STATUS. -/
theorem statusWhileAJobRuns : Obligations.StatusWhileAJobRuns := by
  refine ⟨fun s t i hidle hexec hrun => ?_, fun s t i hi hexec => ?_⟩
  · cases hi : isCommand i with
    | true =>
      obtain ⟨w, hw⟩ := exists_encode_eq hi
      rw [exec_command_idle hidle hi hw] at hexec
      cases hexec
      rw [State.accept_of_run hrun]
      exact statusWord_of_start s.status
    | false =>
      obtain ⟨b, hrun', -⟩ := exec_phaseEffect hi hexec
      cases hidle.symm.trans hrun'
  · obtain ⟨b, hrun, -, hphase⟩ := exec_phaseEffect hi hexec
    obtain ⟨-, -, -, hfsm, -⟩ := hphase.keeps_command
    exact ⟨hphase.status, hfsm.trans hrun⟩

end Sys2Proof.Machine

/-! ## Every command ends (45_orchestration.md R163, R169, 70_reset_and_hazards.md R211) -/

namespace Sys2Proof.Safety

open Sys2Proof.Machine

/-! ### SEQ always has a move -/

section
variable {s t : State} {b : BoundStep} {i : Instr}

/-- A runnable step reaches a domain that exists (20_memory.md R47). -/
theorem exists_boundDomain {c : Config} {dc : DomainClass} (hrunnable : runnable c b = true)
    (hdec : decodeStep b.word = .ok i) (hclass : instrClass i = some dc) : ∃ dom, boundDomain c dc b.lane = some dom := by
  simpa [runnable, hdec, hclass, Option.isSome_iff_exists] using hrunnable

/-- Only an RMW stands in RMW_WB (10_state.md R41). -/
theorem Inv.rmw_of_rmwWb (hinv : Inv s) (hb : s.job[s.spc]? = some b) (hdec : decodeStep b.word = .ok i)
    (hph : s.ph = .rmwWb) : ∃ dc off mask val, i = .rmw dc off mask val := by
  obtain ⟨b', dc, off, mask, val, hb', hdec'⟩ := hinv.rmwWb_at_rmw hph
  obtain rfl : b = b' := Option.some.inj (hb.symm.trans hb')
  exact ⟨dc, off, mask, val, Except.ok.inj (hdec.symm.trans hdec')⟩

/-- Only a DLY stands in WAIT (10_state.md R41). -/
theorem Inv.dly_of_wait (hinv : Inv s) (hb : s.job[s.spc]? = some b) (hdec : decodeStep b.word = .ok i)
    (hph : s.ph = .wait) : ∃ d, i = .dly d := by
  obtain ⟨b', d, hb', hdec'⟩ := hinv.wait_at_dly hph
  obtain rfl : b = b' := Option.some.inj (hb.symm.trans hb')
  exact ⟨d, Except.ok.inj (hdec.symm.trans hdec')⟩

/-- In every phase its kind has, the step at `spc` gives a next state. -/
theorem Inv.exists_exec (hinv : Inv s) (hrun : s.fsm = .run) (hb : s.job[s.spc]? = some b)
    (hdec : decodeStep b.word = .ok i) : ∃ t, exec i s = .next t := by
  have hrunnable := hinv.steps_run b (List.mem_of_getElem? hb)
  have hrmwWb := hinv.rmw_of_rmwWb hb hdec
  have hwait := hinv.dly_of_wait hb hdec
  cases i with
  | wr dc off val =>
    obtain ⟨dom, hdom⟩ := exists_boundDomain hrunnable hdec rfl
    cases hph : s.ph with
    | issue => exact ⟨_, exec_wr_issue hrun hb hph hdom⟩
    | rmwWb => simp [hph] at hrmwWb
    | wait => simp [hph] at hwait
  | rmw dc off mask val =>
    obtain ⟨dom, hdom⟩ := exists_boundDomain hrunnable hdec rfl
    cases hph : s.ph with
    | issue => exact ⟨_, exec_rmw_issue hrun hb hph hdom⟩
    | rmwWb => exact ⟨_, exec_rmw_rmwWb hrun hb hph hdom⟩
    | wait => simp [hph] at hwait
  | dly d =>
    cases hph : s.ph with
    | issue =>
      by_cases hload : timerLoad s.cfg.tickNs d = 0
      · exact ⟨_, exec_dly_at_once hrun hb hph hload⟩
      · exact ⟨_, exec_dly_issue hrun hb hph hload⟩
    | rmwWb => simp [hph] at hrmwWb
    | wait =>
      by_cases htmr : s.tmr = 0
      · exact ⟨_, exec_dly_done hrun hb hph htmr⟩
      · exact ⟨_, exec_dly_tick hrun hb hph htmr⟩
  | _ => cases isCommand_of_decodeStep hdec

/-- With nothing pending, the step of an accepted configuration is SEQ's move (log 6). -/
theorem step_eq_seqMove (hc : configOk s.cfg = true) (hpending : s.agenda = []) : step s = s.seqMove := by
  rw [step, if_pos hc, State.nextMove, hpending]

/-- A running job with nothing pending steps on. -/
theorem Inv.exists_step_of_run (hinv : Inv s) (hrun : s.fsm = .run) (hpending : s.agenda = []) :
    ∃ t, step s = .next t := by
  rw [step_eq_seqMove hinv.config hpending]
  obtain hlt | hlast := hinv.spc_le.lt_or_eq
  · have hb := List.getElem?_eq_getElem hlt
    have hrunnable := hinv.steps_run _ (List.getElem_mem hlt)
    cases hdec : decodeStep (s.job[s.spc]).word with
    | ok i =>
      rw [State.seqMove_step hrun hb hdec]
      exact hinv.exists_exec hrun hb hdec
    | error e => simp [runnable, hdec] at hrunnable
  · exact ⟨_, State.seqMove_past_job hrun hlast⟩

/-! ### The moves that are left get fewer -/

/-- A bound on the moves the step at `spc` still takes: a step that has not started may be the longest wait. -/
def phaseMovesLeft (s : State) : Nat :=
  match s.ph with
  | .issue => timerLoad s.cfg.tickNs 0xFFFFFFFF#32 + 2
  | .rmwWb => 1
  | .wait => s.tmr + 1

/-- A bound on the moves a running job still takes: those of the step at `spc`, and as many as the longest wait takes for
each step of the job that is not behind it. -/
def movesLeft (s : State) : Nat :=
  (s.job.length - s.spc) * (timerLoad s.cfg.tickNs 0xFFFFFFFF#32 + 2) + phaseMovesLeft s

/-- A phase that stays at its step leaves fewer moves when the step has fewer left. -/
theorem movesLeft_lt_of_phase (hjob : t.job = s.job) (hspc : t.spc = s.spc) (hcfg : t.cfg = s.cfg)
    (hlt : phaseMovesLeft t < phaseMovesLeft s) : movesLeft t < movesLeft s := by
  simpa only [movesLeft, hjob, hspc, hcfg] using Nat.add_lt_add_left hlt _

/-- The end of a step leaves fewer moves, whatever the step after it takes. -/
theorem movesLeft_phaseEnds (hb : s.job[s.spc]? = some b) (es : List Event) (n : Nat) :
    movesLeft (phaseEnds s b es n) < movesLeft s := by
  have hlt : s.spc < s.job.length := (List.getElem?_eq_some_iff.1 hb).1
  have hpos : 0 < phaseMovesLeft s := by
    unfold phaseMovesLeft
    split
    all_goals exact Nat.succ_pos _
  have hsteps : s.job.length - s.spc = s.job.length - (s.spc + 1) + 1 := by omega
  rw [movesLeft, movesLeft, hsteps, Nat.succ_mul]
  exact Nat.lt_add_of_pos_right hpos

/-- Every phase of a step leaves fewer moves. -/
theorem exec_movesLeft_lt (hi : isCommand i = false) (h : exec i s = .next t) : movesLeft t < movesLeft s := by
  obtain ⟨b, -, hb, hcases⟩ := exec_step_next hi h
  obtain ⟨dc, off, val, dom, -, -, -, rfl⟩ | ⟨dc, off, mask, val, dom, -, hph, -, rfl⟩ |
    ⟨dc, off, mask, val, dom, -, -, -, rfl⟩ | ⟨d, -, -, -, rfl⟩ | ⟨d, -, hph, -, rfl⟩ | ⟨d, -, -, -, rfl⟩ |
    ⟨d, -, hph, htmr, rfl⟩ := hcases
  · exact movesLeft_phaseEnds hb _ _
  · refine movesLeft_lt_of_phase rfl rfl rfl ?_
    simp [phaseMovesLeft, hph]
  · exact movesLeft_phaseEnds hb _ _
  · exact movesLeft_phaseEnds hb _ _
  · refine movesLeft_lt_of_phase rfl rfl rfl ?_
    have hload := timerLoad_le_max s.cfg.tickNs d
    simp only [phaseMovesLeft, hph]
    omega
  · exact movesLeft_phaseEnds hb _ _
  · refine movesLeft_lt_of_phase rfl rfl rfl ?_
    simp only [phaseMovesLeft, hph]
    omega

/-- In RUN with nothing pending, a step ends the run or leaves fewer moves of it. -/
theorem step_ends_or_movesLeft_lt (hrun : s.fsm = .run) (hpending : s.agenda = []) (hstep : step s = .next t) :
    runEnded t ∨ (t.fsm = .run ∧ t.agenda = [] ∧ movesLeft t < movesLeft s) := by
  obtain ⟨b, i, hb, hdec, hexec⟩ | ⟨-, rfl⟩ := step_of_run hrun hpending hstep
  · have hi := isCommand_of_decodeStep hdec
    obtain ⟨b', -, -, hphase⟩ := exec_phaseEffect hi hexec
    obtain ⟨-, -, -, hfsm, hagenda⟩ := hphase.keeps_command
    exact .inr ⟨hfsm.trans hrun, hagenda.trans hpending, exec_movesLeft_lt hi hexec⟩
  · exact .inl ⟨rfl, hpending⟩

/-! ### The end of a run -/

/-- A running job with nothing pending ends. -/
theorem Inv.run_ends {s : State} (hinv : Inv s) (hrun : s.fsm = .run) (hpending : s.agenda = []) :
    ∃ n t, stepsTo n s t ∧ runEnded t := by
  obtain ⟨u, hstep⟩ := hinv.exists_step_of_run hrun hpending
  obtain hend | ⟨hurun, hupending, hlt⟩ := step_ends_or_movesLeft_lt hrun hpending hstep
  · exact ⟨1, u, ⟨u, hstep, rfl⟩, hend⟩
  · obtain ⟨n, t, hrest, hend⟩ := (stepKeepsTheInvariant s u hinv hstep).run_ends hurun hupending
    exact ⟨n + 1, t, ⟨u, hstep, hrest⟩, hend⟩
termination_by movesLeft s

end

/-- Settles O56: an IDLE state has ended already, and in RUN the moves that are left get fewer with each step. -/
theorem everyJobEnds : Obligations.EveryJobEnds := by
  intro s hinv hpending
  cases hfsm : s.fsm with
  | idle => exact ⟨0, s, rfl, hfsm, hpending⟩
  | run => exact hinv.run_ends hfsm hpending

/-! ### The run of one command -/

/-- The first step of a command written in IDLE is its acceptance (45_orchestration.md R153). -/
theorem step_hostWrites {s : State} (hc : configOk s.cfg = true) (hidle : s.fsm = .idle) (w : Word) :
    step (hostWrites s w) = .next (({ s with agenda := [] }).accept w (decodeAndBuild s.cfg w)) := by
  rw [step_write_cmd (s := hostWrites s w) hc rfl, State.writeCmd_idle (by exact hidle)]
  rfl

/-- Acceptance leaves the pending moves. -/
theorem accept_agenda (s : State) (w : Word) (b : Build) : (s.accept w b).agenda = s.agenda := by
  rw [State.accept_eq]
  split
  all_goals rfl

/-- Every command word written in IDLE runs to its end. -/
theorem Inv.exists_completes {s : State} (hinv : Inv s) (hidle : s.fsm = .idle) (w : Word) : ∃ t, completes s w t := by
  have hstep := step_hostWrites hinv.config hidle w
  have hinv' : Inv (hostWrites s w) := hinv.withPending _ s.faults s.hostSeen
  obtain ⟨n, t, hrest, hend⟩ := everyJobEnds _ (stepKeepsTheInvariant _ _ hinv' hstep) (accept_agenda _ _ _)
  exact ⟨t, n + 1, ⟨_, hstep, hrest⟩, hend⟩

/-- Settles O57: the run ends, and a run that ends has the account of its command. -/
theorem commandRunsItsWholeJob : Obligations.CommandRunsItsWholeJob := by
  intro s w hinv hidle
  obtain ⟨t, ht⟩ := hinv.exists_completes hidle w
  obtain ⟨hcfg, hcmd, hstatus, htrace⟩ := completes_account hidle ht
  refine ⟨t, ht, hcfg, hcmd, hstatus, ?_⟩
  rw [htrace, hstatus, commandEvents]
  simp

end Sys2Proof.Safety

/-! ## SETUP_FORCED and its three primitives (45_orchestration.md R166, R168) -/

namespace Sys2Proof.Safety

open Sys2Proof.Machine

/-! ### What a running job still does to the ghost state and still reads -/

/-- `pll_done` and `redrive` once a job has run: each step that no later step of its tag follows completes its part
(42_pll.md R112, 43_reset.md R126, 44_calibration.md R146; log 19). -/
def ghostAfterJob : List BoundStep → Bool × List Redrive → Bool × List Redrive
  | [], g => g
  | b :: rest, g =>
    ghostAfterJob rest
      (if hasFrom rest 0 b.tag then g else (pllDoneAfter g.1 b.tag, redriveAfter g.1 g.2 b))

/-- One part after another: a tag that both have would complete in the second only. -/
theorem ghostAfterJob_append {a c : List BoundStep} (hdisjoint : ∀ x ∈ a, ∀ y ∈ c, y.tag ≠ x.tag)
    (g : Bool × List Redrive) : ghostAfterJob (a ++ c) g = ghostAfterJob c (ghostAfterJob a g) := by
  induction a generalizing g with
  | nil => rfl
  | cons b a ih =>
    have hlater : hasFrom (a ++ c) 0 b.tag = hasFrom a 0 b.tag := by
      have hnone : hasFrom c 0 b.tag = false := hasFrom_eq_false.2 (hdisjoint b List.mem_cons_self)
      simp only [hasFrom, List.drop_zero, List.any_append] at hnone ⊢
      rw [hnone, Bool.or_false]
    rw [List.cons_append, ghostAfterJob, ghostAfterJob, hlater, ih fun x hx => hdisjoint x (List.mem_cons_of_mem b hx)]

/-- How many reads the steps from `spc` on still issue: in RMW_WB the first of them has read already. -/
def owedReads (s : State) : Nat :=
  readsIn (s.job.drop (if s.ph = .rmwWb then s.spc + 1 else s.spc))

/-- What a running job leaves once it has run: `pll_done` and `redrive`, and the values that DOMAINS gives to the reads after
those of the job. -/
def owedEffect (s : State) : (Bool × List Redrive) × (Nat → Word) :=
  (ghostAfterJob (s.job.drop s.spc) (s.pllDone, s.redrive), fun n => oracle s (owedReads s + n))

section
variable {s t : State} {b : BoundStep} {i : Instr}

/-- The reads of the steps from a position on. -/
theorem readsIn_drop (hb : s.job[s.spc]? = some b) :
    readsIn (s.job.drop s.spc) = readsOf b + readsIn (s.job.drop (s.spc + 1)) := by
  simp [drop_of_getElem? hb, readsIn]

/-- The ghost state at the end of a step, as one value. -/
theorem phaseEnds_ghost (s : State) (b : BoundStep) (es : List Event) (n : Nat) :
    ((phaseEnds s b es n).pllDone, (phaseEnds s b es n).redrive) =
      if hasFrom s.job (s.spc + 1) b.tag then (s.pllDone, s.redrive)
      else (pllDoneAfter s.pllDone b.tag, redriveAfter s.pllDone s.redrive b) := by
  simp only [phaseEnds]
  split_ifs
  · rfl
  · rfl

/-- The end of a step does to the ghost state what the step does first of those from `spc` on. -/
theorem owedEffect_phaseEnds (hb : s.job[s.spc]? = some b) (hreads : s.ph = .rmwWb ∨ readsOf b = 0) (es : List Event)
    (n : Nat) : owedEffect (phaseEnds s b es n) = owedEffect s := by
  have howed : owedReads s = readsIn (s.job.drop (s.spc + 1)) := by
    obtain hph | hnone := hreads
    · rw [owedReads, if_pos hph]
    · unfold owedReads
      split
      · rfl
      · rw [readsIn_drop hb, hnone, Nat.zero_add]
  refine Prod.ext ?_ ?_
  · rw [owedEffect, owedEffect, drop_of_getElem? hb, ghostAfterJob, phaseEnds_ghost]
    rfl
  · simp only [owedEffect]
    rw [howed, oracle_congr (s := s) rfl rfl]
    rfl

/-- A phase that stays at its step and reads nothing. -/
theorem owedEffect_waits (hph : s.ph ≠ .rmwWb) (hph' : t.ph ≠ .rmwWb) (hjob : t.job = s.job ∧ t.spc = s.spc)
    (hghost : t.pllDone = s.pllDone ∧ t.redrive = s.redrive) (hdomains : t.answers = s.answers ∧ t.draws = s.draws) :
    owedEffect t = owedEffect s := by
  simp only [owedEffect, owedReads, if_neg hph, if_neg hph', hjob.1, hjob.2, hghost.1, hghost.2,
    oracle_congr hdomains.1 hdomains.2]

/-- The read of an RMW takes the first of the values, and is owed no more. -/
theorem owedEffect_read (hb : s.job[s.spc]? = some b) (hph : s.ph = .issue) (hreads : readsOf b = 1) (f : HazardSet)
    (tr : List Event) :
    owedEffect
        { s with
          faults := f
          rd := s.nextAnswer
          trace := tr
          answers := s.answers.tail
          draws := if s.answers = [] then s.draws + 1 else s.draws
          ph := .rmwWb } = owedEffect s := by
  refine Prod.ext rfl (funext fun n => ?_)
  have howed : owedReads s = readsIn (s.job.drop (s.spc + 1)) + 1 := by
    rw [owedReads, if_neg (by simp [hph]), readsIn_drop hb, hreads, Nat.add_comm]
  simp only [owedEffect]
  rw [oracle_of_read (s := s) rfl rfl, howed, Nat.add_right_comm]
  rfl

/-- A phase of a step moves its effect from what is owed to what is done: together they stay the same. -/
theorem exec_keeps_owedEffect (hb : s.job[s.spc]? = some b) (hdec : decodeStep b.word = .ok i) (h : exec i s = .next t) :
    owedEffect t = owedEffect s := by
  obtain ⟨b', -, hb', hcases⟩ := exec_step_next (isCommand_of_decodeStep hdec) h
  obtain rfl : b = b' := Option.some.inj (hb.symm.trans hb')
  obtain ⟨dc, off, val, dom, rfl, -, hdom, rfl⟩ | ⟨dc, off, mask, val, dom, rfl, hph, hdom, rfl⟩ |
    ⟨dc, off, mask, val, dom, rfl, hph, -, rfl⟩ | ⟨d, rfl, -, -, rfl⟩ | ⟨d, rfl, hph, -, rfl⟩ | ⟨d, rfl, -, -, rfl⟩ |
    ⟨d, rfl, hph, -, rfl⟩ := hcases
  · exact owedEffect_phaseEnds hb (.inr (events_of_wr hdec (boundDomain_eq_some.1 hdom).1 0).2) _ _
  · exact owedEffect_read hb hph (events_of_rmw hdec (boundDomain_eq_some.1 hdom).1 0).2 _ _
  · exact owedEffect_phaseEnds hb (.inl hph) _ _
  · exact owedEffect_phaseEnds hb (.inr (events_of_dly hdec 0).2) _ _
  · exact owedEffect_waits (by simp [hph]) nofun ⟨rfl, rfl⟩ ⟨rfl, rfl⟩ ⟨rfl, rfl⟩
  · exact owedEffect_phaseEnds hb (.inr (events_of_dly hdec 0).2) _ _
  · exact owedEffect_waits (by simp [hph]) (by simp [hph]) ⟨rfl, rfl⟩ ⟨rfl, rfl⟩ ⟨rfl, rfl⟩

/-- Past the last step of a job, the effect has happened. -/
theorem owedEffect_past_job (hlast : s.spc = s.job.length) : owedEffect s = ((s.pllDone, s.redrive), oracle s) := by
  have hnone : owedReads s = 0 := by
    rw [owedReads, List.drop_eq_nil_of_le (by split <;> omega)]
    rfl
  simp [owedEffect, hnone, hlast, ghostAfterJob]

/-! ### The effect of a whole command -/

/-- A running job with nothing pending ends with the effect it owes. -/
theorem run_effect {n : Nat} (hrun : s.fsm = .run) (hpending : s.agenda = []) (h : stepsTo n s t) (hend : runEnded t) :
    ((t.pllDone, t.redrive), oracle t) = owedEffect s := by
  induction n generalizing s with
  | zero =>
    cases h
    cases hrun.symm.trans hend.1
  | succ n ih =>
    obtain ⟨u, hstep, hrest⟩ := h
    obtain ⟨b, i, hb, hdec, hexec⟩ | ⟨hlast, rfl⟩ := step_of_run hrun hpending hstep
    · obtain ⟨b', -, -, hphase⟩ := exec_phaseEffect (isCommand_of_decodeStep hdec) hexec
      obtain ⟨-, -, -, hfsm, hagenda⟩ := hphase.keeps_command
      rw [← exec_keeps_owedEffect hb hdec hexec]
      exact ih (hfsm.trans hrun) (hagenda.trans hpending) hrest
    · obtain rfl := stepsTo_of_runEnded (s := s.complete s.res LaneFields.zero) ⟨rfl, hpending⟩ hrest
      rw [owedEffect_past_job hlast, oracle_congr (s := s) rfl rfl]
      rfl

/-- A command that runs to its end leaves the ghost state of its whole job, and the values after its reads. -/
theorem completes_effect {w : Word} (hidle : s.fsm = .idle) (h : completes s w t) :
    (t.pllDone, t.redrive) = ghostAfterJob (decodeAndBuild s.cfg w).job (s.pllDone, s.redrive) ∧
      ∀ n, oracle t n = oracle s (readsIn (decodeAndBuild s.cfg w).job + n) := by
  obtain ⟨n, hrun, hend⟩ := h
  cases n with
  | zero =>
    cases hrun
    cases hend.2
  | succ n =>
    obtain ⟨u, hstep, hrest⟩ := hrun
    rw [step_hostWrites (s := s) (step_next hstep).1 hidle] at hstep
    cases hstep
    rw [State.accept_eq] at hrest
    split at hrest
    · rename_i hnone
      have hjob : (decodeAndBuild s.cfg w).job = [] := hnone.elim decodeAndBuild_job_nil id
      obtain rfl := stepsTo_of_runEnded ⟨rfl, rfl⟩ hrest
      refine ⟨by rw [hjob]; rfl, fun n => ?_⟩
      rw [hjob, oracle_congr (s := s) rfl rfl]
      exact congrArg (oracle s) (Nat.zero_add n).symm
    · have heffect := run_effect rfl rfl hrest hend
      obtain ⟨hghost, horacle⟩ := Prod.ext_iff.1 heffect
      exact ⟨hghost, fun n => congrFun horacle n⟩

end

/-! ### One job after another -/

/-- Every event of a job is a domain event. -/
theorem domainEvents_jobEvents (r : Nat → Word) (n : Nat) (j : List BoundStep) :
    domainEvents (jobEvents r n j) = jobEvents r n j := by
  refine List.filter_eq_self.2 fun e he => ?_
  obtain ⟨b, -, v, hev⟩ := mem_jobEvents he
  obtain ⟨i, hdec⟩ := decodes_of_mem_stepEvents hev
  obtain ⟨-, d, rfl⟩ | ⟨dc, dom, -, -, off, x, rfl | rfl⟩ := mem_stepEvents hdec hev
  · rfl
  · rfl
  · rfl

/-- `t` is what the job `j` leaves of `s`, as the domains and the ghost state see it: its events, `pll_done` and `redrive`,
and the values that DOMAINS has left to give. -/
structure RanJob (s : State) (j : List BoundStep) (t : State) : Prop where
  config : t.cfg = s.cfg
  events : domainEvents t.trace = domainEvents s.trace ++ jobEvents (oracle s) 0 j
  ghost : (t.pllDone, t.redrive) = ghostAfterJob j (s.pllDone, s.redrive)
  values : ∀ n, oracle t n = oracle s (readsIn j + n)

/-- A command that runs to its end has run the job it builds. -/
theorem ranJob_of_completes {s t : State} {w : Word} (hidle : s.fsm = .idle) (h : completes s w t) :
    RanJob s (decodeAndBuild s.cfg w).job t := by
  obtain ⟨hcfg, -, -, htrace⟩ := completes_account hidle h
  obtain ⟨hghost, hvalues⟩ := completes_effect hidle h
  refine ⟨hcfg, ?_, hghost, hvalues⟩
  rw [htrace, domainEvents, List.filter_append]
  refine congrArg (domainEvents s.trace ++ ·) ?_
  calc domainEvents (commandEvents (oracle s) s.cfg w)
      = domainEvents (jobEvents (oracle s) 0 (decodeAndBuild s.cfg w).job) := by
        simp [domainEvents, commandEvents, isDomainEvent]
    _ = jobEvents (oracle s) 0 (decodeAndBuild s.cfg w).job := domainEvents_jobEvents _ _ _

/-- Two jobs without a common tag, one after the other, leave what the one job of all their steps leaves. -/
theorem RanJob.append {s t u : State} {a c : List BoundStep} (hst : RanJob s a t) (htu : RanJob t c u)
    (hdisjoint : ∀ x ∈ a, ∀ y ∈ c, y.tag ≠ x.tag) : RanJob s (a ++ c) u where
  config := htu.config.trans hst.config
  events := by
    rw [htu.events, hst.events, jobEvents_append, List.append_assoc,
      jobEvents_shift (oracle t) (oracle s) 0 (0 + readsIn a) c fun n => by
        rw [Nat.zero_add, Nat.zero_add, hst.values]]
  ghost := by rw [htu.ghost, hst.ghost, ghostAfterJob_append hdisjoint]
  values n := by
    rw [htu.values, hst.values, ← Nat.add_assoc]
    simp [readsIn]

/-! ### The four commands -/

/-- A command's word builds what the command does. -/
theorem decodeAndBuild_of_encode {i : Instr} {w : Word} (hi : isCommand i = true) (hw : encode i = [w]) (c : Config) :
    decodeAndBuild c w = buildOf c i := by
  rw [decodeAndBuild, decodeCmd_of_encode hi hw]

/-- The job of SETUP_FORCED on a valid port (45_orchestration.md R158). -/
theorem setupForced_job {c : Config} {p : PortId} (hport : p.toNat < c.portCount) (ifk : BitVec 4) :
    (decodeAndBuild c (Cmd32.word 0x2#4 ifk p 0#16)).job = setupJob c (forcedProgram ifk) p := by
  have hvalid : portBad c p = false := decide_eq_false (Nat.not_le_of_lt hport)
  rw [decodeAndBuild_of_encode (i := .setupForced ifk p 0#16) rfl rfl, buildOf, buildSetupForced, hvalid]
  rfl

/-- The job of ENABLE_PLL (45_orchestration.md R160). -/
theorem enablePll_job {c : Config} (hpll : c.hasPll = true) :
    (decodeAndBuild c (Cmd32.word 0x4#4 0#4 0#8 0#16)).job = pllJob c := by
  rw [decodeAndBuild_of_encode (i := .enablePll 0#4 0#8 0#16) rfl rfl, buildOf, buildEnablePll, if_pos hpll]
  rfl

/-- The job of RESET_LANE in USXGMII mode (45_orchestration.md R159). -/
theorem resetLaneUsx_job (c : Config) (p : PortId) :
    (decodeAndBuild c (Cmd32.word 0x3#4 0#4 p 0#16)).job = usxJob c p :=
  congrArg Build.job (decodeAndBuild_of_encode (i := .resetLane .usx 0#3 p 0#16) rfl rfl c)

/-- The job of CALIBRATE with the program that IFK selects (45_orchestration.md R158, R161). -/
theorem calibrateForced_job (c : Config) (p : PortId) (ifk : BitVec 4) :
    (decodeAndBuild c (Cmd32.word 0x5#4 (if ifk = 0x1#4 then 1#4 else 2#4) p 0#16)).job = calJob c (forcedProgram ifk) p := by
  unfold forcedProgram
  split
  · exact congrArg Build.job (decodeAndBuild_of_encode (i := .calibrate 1#3 0#1 p 0#16) rfl rfl c)
  · exact congrArg Build.job (decodeAndBuild_of_encode (i := .calibrate 2#3 0#1 p 0#16) rfl rfl c)

/-! ### Three commands for one -/

/-- A run keeps the invariant. -/
theorem Inv.stepsTo {n : Nat} {s t : State} (hinv : Inv s) (h : stepsTo n s t) : Inv t := by
  induction n generalizing s with
  | zero =>
    cases h
    exact hinv
  | succ n ih =>
    obtain ⟨u, hstep, hrest⟩ := h
    exact ih (stepKeepsTheInvariant s u hinv hstep) hrest

/-- A command that has run to its end leaves a state of the invariant in IDLE. -/
theorem Inv.completes {s t : State} {w : Word} (hinv : Inv s) (h : completes s w t) : Inv t ∧ t.fsm = .idle := by
  obtain ⟨n, hrun, hidle, -⟩ := h
  have hinv' : Inv (hostWrites s w) := hinv.withPending _ s.faults s.hostSeen
  exact ⟨hinv'.stepsTo hrun, hidle⟩

/-- The parts of a setup have different tags. -/
theorem setup_tags_disjoint {c : Config} {k : Program} {p : PortId} :
    (∀ x ∈ pllJob c, ∀ y ∈ usxJob c p, y.tag ≠ x.tag) ∧ ∀ x ∈ pllJob c ++ usxJob c p, ∀ y ∈ calJob c k p, y.tag ≠ x.tag := by
  refine ⟨fun x hx y hy => ?_, fun x hx y hy => ?_⟩
  · obtain ⟨-, _, -, rfl⟩ := mem_pllJob hx
    obtain ⟨_, _, _, -, -, -, -, rfl⟩ := mem_resetJob hy
    nofun
  · obtain ⟨_, _, -, -, -, -, rfl⟩ := mem_calJob hy
    obtain hx | hx := List.mem_append.1 hx
    · obtain ⟨-, _, -, rfl⟩ := mem_pllJob hx
      nofun
    · obtain ⟨_, _, _, -, -, -, -, rfl⟩ := mem_resetJob hx
      nofun

/-- Settles O60: each of the four commands runs its job, the job of SETUP_FORCED is the three others one after another, and
what a job leaves depends on its steps and on the values of its reads. -/
theorem setupForcedIsItsThreePrimitives : Obligations.SetupForcedIsItsThreePrimitives := by
  intro s t ifk p hinv hidle hport hpll ht
  obtain ⟨t1, ht1⟩ := hinv.exists_completes hidle (Cmd32.word 0x4#4 0#4 0#8 0#16)
  obtain ⟨hinv1, hidle1⟩ := hinv.completes ht1
  obtain ⟨t2, ht2⟩ := hinv1.exists_completes hidle1 (Cmd32.word 0x3#4 0#4 p 0#16)
  obtain ⟨hinv2, hidle2⟩ := hinv1.completes ht2
  obtain ⟨t3, ht3⟩ := hinv2.exists_completes hidle2 (Cmd32.word 0x5#4 (if ifk = 0x1#4 then 1#4 else 2#4) p 0#16)
  have hsetup := ranJob_of_completes hidle ht
  have hran1 := ranJob_of_completes hidle ht1
  have hran2 := ranJob_of_completes hidle1 ht2
  have hran3 := ranJob_of_completes hidle2 ht3
  rw [setupForced_job hport] at hsetup
  rw [enablePll_job hpll] at hran1
  rw [resetLaneUsx_job, hran1.config] at hran2
  rw [calibrateForced_job, hran2.config, hran1.config] at hran3
  obtain ⟨hreset, hcal⟩ := setup_tags_disjoint (c := s.cfg) (k := forcedProgram ifk) (p := p)
  have hthree : RanJob s (setupJob s.cfg (forcedProgram ifk) p) t3 := (hran1.append hran2 hreset).append hran3 hcal
  obtain ⟨hpllDone, hredrive⟩ := Prod.ext_iff.1 (hthree.ghost.trans hsetup.ghost.symm)
  exact ⟨t1, t2, t3, ht1, ht2, ht3, hthree.events.trans hsetup.events.symm, hredrive, hpllDone⟩

end Sys2Proof.Safety

/-! ## No stuck state (60_exceptions.md R183, R184) -/

namespace Sys2Proof.Safety

open Sys2Proof.Machine

/-- A runnable step has a well-formed word (40_steps.md R87). -/
theorem exists_decodeStep {c : Config} {b : BoundStep} (hrunnable : runnable c b = true) :
    ∃ i, decodeStep b.word = .ok i := by
  cases hdec : decodeStep b.word with
  | ok i => exact ⟨i, rfl⟩
  | error e => simp [runnable, hdec] at hrunnable

/-- SEQ has a move whatever else is pending: it waits in IDLE, and in RUN it runs the step at `spc` or completes. -/
theorem Inv.exists_seqMove {s : State} (hinv : Inv s) : ∃ t, s.seqMove = .next t := by
  cases hfsm : s.fsm with
  | idle => exact ⟨s, State.seqMove_idle hfsm⟩
  | run =>
    obtain hlt | hlast := hinv.spc_le.lt_or_eq
    · have hb := List.getElem?_eq_getElem hlt
      obtain ⟨i, hdec⟩ := exists_decodeStep (hinv.steps_run _ (List.getElem_mem hlt))
      rw [State.seqMove_step hfsm hb hdec]
      exact hinv.exists_exec hfsm hb hdec
    · exact ⟨_, State.seqMove_past_job hfsm hlast⟩

/-- SEQ's move, when it is the next one or nothing is pending (log 6), gives a next state. -/
theorem Inv.exists_step_of_seq {s : State} {rest : List Move} (hinv : Inv s)
    (ha : s.agenda = .seq :: rest ∨ (s.agenda = [] ∧ rest = [])) : ∃ t, step s = .next t := by
  rw [step_of_seq hinv.config ha]
  exact (hinv.withPending rest s.faults s.hostSeen).exists_seqMove

/-- An access the host window answers gives a next state, at CMD and beside it (20_memory.md R58). -/
theorem exists_step_of_host {s : State} {a : HostAccess} {rest : List Move} (hc : configOk s.cfg = true)
    (ha : s.agenda = .host a :: rest) (hok : nextMoveOk s = true) : ∃ t, step s = .next t := by
  cases a with
  | read off bits =>
    obtain ⟨rfl, hoff⟩ : bits = 32 ∧ off % 4 = 0 := by simpa [nextMoveOk, ha, windowOk_iff] using hok
    exact ⟨_, step_read_window hc ha hoff⟩
  | write off bits w =>
    obtain ⟨rfl, hoff⟩ : bits = 32 ∧ off % 4 = 0 := by simpa [nextMoveOk, ha, windowOk_iff] using hok
    by_cases hcmd : off = 0x0
    · subst hcmd
      exact ⟨_, step_write_cmd hc ha⟩
    · exact ⟨_, step_write_beside_cmd hc ha hoff hcmd⟩

/-- Settles O54: the window answers HOST's access, the invariant gives SEQ a move, and a block reset always happens. -/
theorem noStuckState : Obligations.NoStuckState := by
  intro s hinv hok
  match ha : s.agenda with
  | [] => exact hinv.exists_step_of_seq (.inr ⟨ha, rfl⟩)
  | .seq :: rest => exact hinv.exists_step_of_seq (.inl ha)
  | .host a :: rest => exact exists_step_of_host hinv.config ha hok
  | .blockReset :: rest => exact ⟨_, step_of_agenda hinv.config (.inl ha)⟩

end Sys2Proof.Safety

/-! ## Block reset (70_reset_and_hazards.md R198, R199, R201) -/

namespace Sys2Proof.Machine

/-! ### The whole state -/

/-- A block reset is the next state of its move, in every accepted configuration. -/
theorem step_blockReset {s : State} {rest : List Move} (hc : configOk s.cfg = true) (ha : s.agenda = .blockReset :: rest) :
    step s = .next ({ s with agenda := rest } : State).blockReset :=
  step_of_agenda hc (.inl ha)

/-- Settles O38: the model's law of block reset, at the state whose move is taken off the agenda. -/
theorem blockResetClearsTheHardwareState : Obligations.BlockResetClearsTheHardwareState := by
  intro s rest hc ha
  obtain ⟨pd, rv, -, hkept, heq⟩ := ({ s with agenda := rest } : State).blockReset_eq
  exact ⟨_, pd, rv, (step_blockReset hc ha).trans (congrArg _ heq), hkept⟩

/-! ### Started steps and unfinished parts (log 19) -/

/-- A started step lies before `spc`, or at `spc` once its phase has left ISSUE. -/
theorem mem_startedSteps {job : List BoundStep} {spc : Nat} {ph : Phase} {b : BoundStep} :
    b ∈ startedSteps job spc ph ↔ ∃ i, job[i]? = some b ∧ (i < spc ∨ (i = spc ∧ ph ≠ .issue)) := by
  by_cases hph : ph = .issue
  · simp [startedSteps, hph, List.mem_iff_getElem?, List.getElem?_take, and_comm]
  · have hle : ∀ i, i < spc + 1 ↔ i < spc ∨ (i = spc ∧ ph ≠ .issue) := by simp [hph, Nat.le_iff_lt_or_eq]
    simp only [startedSteps, if_neg hph, List.mem_iff_getElem?, List.getElem?_take,
      Option.ite_none_right_eq_some, hle, and_comm]

/-- A part has not completed before position `n` when it has a step at or after `n`. -/
theorem hasFrom_iff {job : List BoundStep} {n : Nat} {g : Tag} :
    hasFrom job n g = true ↔ ∃ j x, n ≤ j ∧ job[j]? = some x ∧ x.tag = g := by
  simp only [hasFrom, List.any_eq_true, beq_iff_eq, List.mem_iff_getElem?, List.getElem?_drop]
  constructor
  · rintro ⟨x, ⟨i, hx⟩, htag⟩
    exact ⟨n + i, x, Nat.le_add_right n i, hx, htag⟩
  · rintro ⟨j, x, hle, hx, htag⟩
    exact ⟨x, ⟨j - n, by rwa [Nat.add_sub_cancel' hle]⟩, htag⟩

/-! ### What the interruption of a job leaves of the ghost state -/

/-- An interruption finds the PLL part started and not completed. -/
def PllPartHit (s : State) : Prop :=
  (∃ b ∈ startedSteps s.job s.spc s.ph, b.tag = .pll) ∧ hasFrom s.job s.spc .pll = true

/-- Step `b` is of a reset or calibration part of lane `l` that has not completed. -/
def OfUnfinishedLanePart (s : State) (l : Lane) (b : BoundStep) : Prop :=
  b.tag ≠ .pll ∧ hasFrom s.job s.spc b.tag = true ∧ b.lane = some l

/-- An interruption of the PLL part leaves every lane DIRTY. -/
theorem State.pllInterrupted_redriveOf (s : State) (l : Lane) : s.pllInterrupted.redriveOf l = .dirty := by
  simp only [State.redriveOf, State.pllInterrupted_redrive, List.getD_eq_getElem?_getD, List.getElem?_map]
  cases s.redrive[l.toNat]? <;> rfl

/-- An entry set to DIRTY reads DIRTY, even where there is none. -/
theorem redriveSet_dirty_getD_self (rv : List Redrive) (l : Lane) :
    (redriveSet rv (some l) .dirty).getD l.toNat .dirty = .dirty := by
  obtain hlt | hle := Nat.lt_or_ge l.toNat rv.length
  · exact redriveSet_getD_self hlt .dirty
  · rw [List.getD_eq_default _ _ (by simpa using hle)]

/-- A started step of an unfinished part leaves its own lane DIRTY. -/
theorem State.stepInterrupted_redriveOf_self {s : State} {l : Lane} {b : BoundStep} (h : OfUnfinishedLanePart s l b) :
    (s.stepInterrupted b).redriveOf l = .dirty := by
  obtain ⟨htag, hfrom, hlane⟩ := h
  rw [State.stepInterrupted_eq, State.redriveOf]
  simp only [htag, hfrom, ne_eq, not_false_eq_true, and_self, if_true, hlane]
  exact redriveSet_dirty_getD_self s.redrive l

/-- Every other step leaves the lane as it is. -/
theorem State.stepInterrupted_redriveOf_other {s : State} {l : Lane} {b : BoundStep} (h : ¬OfUnfinishedLanePart s l b) :
    (s.stepInterrupted b).redriveOf l = s.redriveOf l := by
  rw [State.stepInterrupted_eq, State.redriveOf, State.redriveOf]
  split
  next hunfinished =>
    by_contra hne
    exact h ⟨hunfinished.1, hunfinished.2, (redriveSet_getD_ne hne).1⟩
  next => rfl

/-- What the update of one step leaves, the next ones read as the same job at the same place. -/
theorem ofUnfinishedLanePart_stepInterrupted {s : State} {l : Lane} {a b : BoundStep} :
    OfUnfinishedLanePart (s.stepInterrupted a) l b ↔ OfUnfinishedLanePart s l b := by
  rw [State.stepInterrupted_eq]
  exact Iff.rfl

/-- Once DIRTY, a lane stays DIRTY. -/
theorem State.foldl_stepInterrupted_dirty {s : State} {l : Lane} (h : s.redriveOf l = .dirty) (steps : List BoundStep) :
    (steps.foldl State.stepInterrupted s).redriveOf l = .dirty :=
  ((State.foldl_stepInterrupted_falls steps s).2 l).elim (·.trans h) id

/-- The lane of a step of an unfinished part is DIRTY once the updates of all steps are done. -/
theorem State.foldl_stepInterrupted_hit {s : State} {l : Lane} {steps : List BoundStep}
    (h : ∃ b ∈ steps, OfUnfinishedLanePart s l b) : (steps.foldl State.stepInterrupted s).redriveOf l = .dirty := by
  induction steps generalizing s with
  | nil => simp at h
  | cons a steps ih =>
    rw [List.foldl_cons]
    by_cases ha : OfUnfinishedLanePart s l a
    · exact State.foldl_stepInterrupted_dirty (State.stepInterrupted_redriveOf_self ha) steps
    · obtain ⟨b, hb, hpart⟩ := h
      obtain rfl | hb := List.mem_cons.1 hb
      · exact absurd hpart ha
      · exact ih ⟨b, hb, ofUnfinishedLanePart_stepInterrupted.2 hpart⟩

/-- A lane none of whose unfinished parts has a step among them reads as before. -/
theorem State.foldl_stepInterrupted_other {s : State} {l : Lane} {steps : List BoundStep}
    (h : ∀ b ∈ steps, ¬OfUnfinishedLanePart s l b) :
    (steps.foldl State.stepInterrupted s).redriveOf l = s.redriveOf l := by
  induction steps generalizing s with
  | nil => rfl
  | cons a steps ih =>
    obtain ⟨ha, hsteps⟩ := List.forall_mem_cons.1 h
    rw [List.foldl_cons, ih fun b hb => mt ofUnfinishedLanePart_stepInterrupted.1 (hsteps b hb)]
    exact State.stepInterrupted_redriveOf_other ha

/-- An interruption that hits the PLL part. -/
theorem State.interrupted_of_hit {s : State} (h : PllPartHit s) :
    s.interrupted = (startedSteps s.job s.spc s.ph).foldl State.stepInterrupted s.pllInterrupted := by
  refine congrArg (List.foldl _ · _) (if_pos ?_)
  simpa [PllPartHit] using h

/-- An interruption that does not. -/
theorem State.interrupted_of_not_hit {s : State} (h : ¬PllPartHit s) :
    s.interrupted = (startedSteps s.job s.spc s.ph).foldl State.stepInterrupted s := by
  refine congrArg (List.foldl _ · _) (if_neg ?_)
  simpa [PllPartHit] using h

/-- The updates for reset and calibration parts leave `pll_done`. -/
theorem State.foldl_stepInterrupted_pllDone (steps : List BoundStep) (s : State) :
    (steps.foldl State.stepInterrupted s).pllDone = s.pllDone := by
  obtain ⟨rv, -, heq⟩ := State.foldl_stepInterrupted steps s
  rw [heq]

/-- The PLL part hit: `pll_done` is cleared, and no started step lifts a lane out of DIRTY. -/
theorem State.interrupted_pllHit {s : State} (h : PllPartHit s) :
    s.interrupted.pllDone = false ∧ ∀ l, s.interrupted.redriveOf l = .dirty := by
  rw [State.interrupted_of_hit h]
  exact ⟨State.foldl_stepInterrupted_pllDone _ _,
    fun l => State.foldl_stepInterrupted_dirty (s.pllInterrupted_redriveOf l) _⟩

/-- The PLL part not hit: `pll_done` is kept. -/
theorem State.interrupted_pllDone_kept {s : State} (h : ¬PllPartHit s) : s.interrupted.pllDone = s.pllDone := by
  rw [State.interrupted_of_not_hit h]
  exact State.foldl_stepInterrupted_pllDone _ _

/-- A started part that has not completed leaves its lane DIRTY, whether or not the PLL part is hit. -/
theorem State.interrupted_lane_dirty {s : State} {l : Lane}
    (h : ∃ b ∈ startedSteps s.job s.spc s.ph, OfUnfinishedLanePart s l b) : s.interrupted.redriveOf l = .dirty := by
  by_cases hpll : PllPartHit s
  · exact (State.interrupted_pllHit hpll).2 l
  · rw [State.interrupted_of_not_hit hpll]
    exact State.foldl_stepInterrupted_hit h

/-- A lane of no such part keeps what is known of it, unless the PLL part is hit. -/
theorem State.interrupted_lane_kept {s : State} {l : Lane} (hpll : ¬PllPartHit s)
    (h : ∀ b ∈ startedSteps s.job s.spc s.ph, ¬OfUnfinishedLanePart s l b) :
    s.interrupted.redriveOf l = s.redriveOf l := by
  rw [State.interrupted_of_not_hit hpll]
  exact State.foldl_stepInterrupted_other h

/-- In RUN, a block reset leaves the ghost state of the interruption. -/
theorem State.blockReset_of_run {s : State} (hrun : s.fsm = .run) :
    s.blockReset.pllDone = s.interrupted.pllDone ∧ ∀ l, s.blockReset.redriveOf l = s.interrupted.redriveOf l := by
  simp [State.blockReset, State.redriveOf, hrun]

/-- Settles O39: the interruption of the PLL part comes first, then each started step of another unfinished part marks its
lane, and no update clears a mark. -/
theorem blockResetDuringAJob : Obligations.BlockResetDuringAJob := by
  intro s t rest hc ha hrun hstep
  obtain rfl : ({ s with agenda := rest } : State).blockReset = t := by
    simpa [step_blockReset hc ha] using hstep
  obtain ⟨hpllDone, hredrive⟩ := State.blockReset_of_run (s := { s with agenda := rest }) hrun
  simp only [← mem_startedSteps, ← hasFrom_iff, hpllDone, hredrive]
  refine ⟨fun h => State.interrupted_pllHit h, fun h => State.interrupted_pllDone_kept h, ?_, ?_⟩
  · intro b l hstarted htag hfrom hlane
    exact State.interrupted_lane_dirty ⟨b, hstarted, htag, hfrom, hlane⟩
  · intro l hpll hlanes
    refine State.interrupted_lane_kept hpll fun b hstarted hpart => ?_
    obtain ⟨htag, hfrom, hlane⟩ := hpart
    exact hlanes b hstarted htag hfrom hlane

end Sys2Proof.Machine

/-! ## Delays (70_reset_and_hazards.md R212) -/

namespace Sys2Proof.Safety

open Sys2Proof.Machine

/-! ### The delays of a sequence, step by step -/

section

variable {dc : DomainClass} {off mask val : Word}

theorem delayTotal_wr_cons (ha : Word.aligned off = true) (rest : List StepWord) :
    delayTotal (StepWord.wr dc off val :: rest) = delayTotal rest := by
  simp [delayTotal, dlyOf_wr ha]

theorem delayTotal_rmw_cons (ha : Word.aligned off = true) (rest : List StepWord) :
    delayTotal (StepWord.rmw dc off mask val :: rest) = delayTotal rest := by
  simp [delayTotal, dlyOf_rmw ha]

theorem delayTotal_dly_cons (d : Word) (rest : List StepWord) :
    delayTotal (StepWord.dly d :: rest) = d.toNat + delayTotal rest := by
  simp [delayTotal, dlyOf_dly]

theorem delayTotal_nil : delayTotal [] = 0 := rfl

end

/-! ### The sums of R212 -/

section

variable {c : Config} (hc : configOk c = true)
include hc

theorem delayTotal_pllSeq : delayTotal (pllSeq c.k) = 0 := by
  obtain ⟨hana, hdig⟩ := aligned_pll hc
  rw [pllSeq, StepWord.setb, delayTotal_wr_cons hana, delayTotal_rmw_cons hdig, delayTotal_nil]

theorem delayTotal_usxRst (u : UsxPort) : delayTotal (usxRst c.k u) = c.k.usx.settleNs.toNat := by
  simp only [usxRst, usxStep, delayTotal_wr_cons (aligned_usx hc _), delayTotal_dly_cons, delayTotal_nil, Nat.add_zero]

theorem delayTotal_sgmRst (g : SgmPort) :
    delayTotal (sgmRst c.k g) = c.k.sgm.assertNs.toNat + c.k.sgm.settleNs.toNat := by
  obtain ⟨hen, hrst⟩ := aligned_sgm hc
  simp only [sgmRst, StepWord.setb, StepWord.clrb, delayTotal_rmw_cons hen, delayTotal_rmw_cons hrst, delayTotal_dly_cons,
    delayTotal_nil, Nat.add_zero]

theorem delayTotal_handshake (k : Program) :
    delayTotal (handshake c.k.transNs (c.k.hs.get k)) = 665000 + 2 * c.k.transNs.toNat := by
  obtain ⟨hpd, he1, he2, hfin⟩ := aligned_hs hc k
  simp only [handshake, delayTotal_wr_cons hpd, delayTotal_wr_cons he1, delayTotal_wr_cons he2, delayTotal_wr_cons hfin,
    delayTotal_dly_cons, delayTotal_nil, BitVec.toNat_ofNat]
  omega

theorem delayTotal_forcePrefix {f : ForceConsts} (hf : f = c.k.f5g ∨ f = c.k.f10g) :
    delayTotal (forcePrefix f) = f.gateNs.toNat + f.ungateNs.toNat := by
  obtain ⟨hspd, han, hckg, hfrc⟩ := aligned_force hc hf
  simp only [forcePrefix, StepWord.fld, StepWord.clrb, delayTotal_rmw_cons hspd, delayTotal_rmw_cons han,
    delayTotal_rmw_cons hckg, delayTotal_rmw_cons hfrc, delayTotal_dly_cons, delayTotal_nil, Nat.add_zero]

/-- W10: the delays of AN_PREFIX are its two pulses (44_calibration.md R131). -/
theorem configOk_anDelays : c.k.an.steps.filterMap dlyOf = [c.k.an.p1Ns, c.k.an.p2Ns] := by
  obtain ⟨-, -, -, -, -, -, -, -, -, -, hw, -⟩ := configOk_all hc
  simp only [checkW10, allOf, List.all_cons, List.all_nil, Bool.and_eq_true, beq_iff_eq] at hw
  obtain ⟨-, -, -, hdelays, -⟩ := hw
  exact hdelays

theorem delayTotal_anSteps : delayTotal c.k.an.steps = c.k.an.p1Ns.toNat + c.k.an.p2Ns.toNat := by
  simp [delayTotal, configOk_anDelays hc]

/-! ### The lower bounds of R212 -/

/-- The two gate delays of FORCE_PREFIX are of nanosecond scale (44_calibration.md R137). -/
theorem two_le_delayTotal_forcePrefix {f : ForceConsts} (hf : f = c.k.f5g ∨ f = c.k.f10g) :
    2 ≤ delayTotal (forcePrefix f) := by
  obtain ⟨-, -, -, -, -, hgate5, hungate5, hgate10, hungate10, -⟩ := configOk_scales hc
  rw [delayTotal_forcePrefix hc hf]
  obtain rfl | rfl := hf
  · omega
  · omega

/-- So are the two pulses of AN_PREFIX. -/
theorem two_le_delayTotal_anSteps : 2 ≤ delayTotal c.k.an.steps := by
  obtain ⟨-, -, -, hp1, hp2, -⟩ := configOk_scales hc
  rw [delayTotal_anSteps hc]
  omega

/-- T_TRANS_NS is at least 500 (44_calibration.md R135). -/
theorem delayTotal_handshake_ge (k : Program) : 666000 ≤ delayTotal (handshake c.k.transNs (c.k.hs.get k)) := by
  obtain ⟨-, -, -, -, -, -, -, -, -, htrans, -⟩ := configOk_scales hc
  rw [delayTotal_handshake hc]
  omega

/-- A program delays at least as long as `PREFIX(k)` and its handshake: `BODY(k)` only adds (44_calibration.md R130). -/
theorem delayTotal_prog_ge (k : Program) : delayTotal (calPrefix c.k k) + 666000 ≤ delayTotal (c.rom.prog.get k) := by
  have hhandshake := delayTotal_handshake_ge hc k
  rw [configOk_prog hc, progSeq, delayTotal_append, delayTotal_append]
  omega

/-- `PREFIX(k)` of AN10G, F5G and F10G holds two delays. -/
theorem two_le_delayTotal_calPrefix {k : Program} (hk : k ∈ [Program.an10g, .f5g, .f10g]) :
    2 ≤ delayTotal (calPrefix c.k k) := by
  simp only [List.mem_cons, List.not_mem_nil, or_false] at hk
  obtain rfl | rfl | rfl := hk
  · exact two_le_delayTotal_anSteps hc
  · exact two_le_delayTotal_forcePrefix hc (.inl rfl)
  · exact two_le_delayTotal_forcePrefix hc (.inr rfl)

/-- The USXGMII reset of either port delays for its settle time, which is of millisecond scale (43_reset.md R116). -/
theorem delayTotal_usx {u : List StepWord} (hu : u ∈ [c.rom.usx1, c.rom.usx2]) :
    delayTotal u = c.k.usx.settleNs.toNat ∧ 1000000 ≤ delayTotal u := by
  obtain ⟨hsettle, -⟩ := configOk_scales hc
  have hsum : delayTotal u = c.k.usx.settleNs.toNat := by
    simp only [configOk_rom hc, List.mem_cons, List.not_mem_nil, or_false] at hu
    obtain rfl | rfl := hu
    · exact delayTotal_usxRst hc _
    · exact delayTotal_usxRst hc _
  exact ⟨hsum, by omega⟩

/-- The SGMII reset of either port delays for its assert time and its settle time, of microsecond and millisecond scale
(43_reset.md R121). -/
theorem delayTotal_sgm {g : List StepWord} (hg : g ∈ [c.rom.sgm1, c.rom.sgm2]) :
    delayTotal g = c.k.sgm.assertNs.toNat + c.k.sgm.settleNs.toNat ∧ 1001000 ≤ delayTotal g := by
  obtain ⟨-, hassert, hsettle, -⟩ := configOk_scales hc
  have hsum : delayTotal g = c.k.sgm.assertNs.toNat + c.k.sgm.settleNs.toNat := by
    simp only [configOk_rom hc, List.mem_cons, List.not_mem_nil, or_false] at hg
    obtain rfl | rfl := hg
    · exact delayTotal_sgmRst hc _
    · exact delayTotal_sgmRst hc _
  exact ⟨hsum, by omega⟩

end

/-- Settles O48: the sums are those of the sequences of check W2, and the scales of W7 bound each delay in them. -/
theorem delayLowerBounds : Obligations.DelayLowerBounds := by
  intro c hc
  refine ⟨?_, fun u hu => delayTotal_usx hc hu, fun g hg => delayTotal_sgm hc hg,
    fun k => ⟨delayTotal_handshake hc k, delayTotal_handshake_ge hc k⟩, fun f hf => ?_, delayTotal_anSteps hc,
    two_le_delayTotal_anSteps hc, fun k => ?_, fun u hu k hk => ?_⟩
  · rw [configOk_rom hc]
    exact delayTotal_pllSeq hc
  · have hf : f = c.k.f5g ∨ f = c.k.f10g := by simpa using hf
    exact ⟨delayTotal_forcePrefix hc hf, two_le_delayTotal_forcePrefix hc hf⟩
  · exact Nat.le_of_add_left_le (delayTotal_prog_ge hc k)
  · calc 1666002 = 1000000 + (2 + 666000) := rfl
      _ ≤ delayTotal u + (delayTotal (calPrefix c.k k) + 666000) :=
        Nat.add_le_add (delayTotal_usx hc hu).2 (Nat.add_le_add_right (two_le_delayTotal_calPrefix hc hk) _)
      _ ≤ delayTotal u + delayTotal (c.rom.prog.get k) := Nat.add_le_add_left (delayTotal_prog_ge hc k) _

end Sys2Proof.Safety
